-- ==== Sys2Proof/Word.lean ====
section
/-!
DEFINITION. The machine's bit-vector types (00_scope.md R9, R12; 30_encoding.md R61).
-/

namespace Sys2Proof

/-- A word: a register, a data-memory word, a latch value or the PC. `xlen` is the parameter `XLEN` (00_scope.md R9, R12). -/
abbrev Word (xlen : Nat) := BitVec xlen

/-- The immediate field of a record, 32 bits (30_encoding.md R61). -/
abbrev Imm := BitVec 32

/-- A register field of a record, 5 bits (30_encoding.md R61). -/
abbrev RegIndex := BitVec 5

/-- The opcode tag of a record, 6 bits (30_encoding.md R61). -/
abbrev Opcode := BitVec 6

/-- A record word, the value of the code-memory read port, 64 bits (30_encoding.md R61). -/
abbrev RecordWord := BitVec 64

end Sys2Proof
end

