-- ==== Sys2Proof/Config.lean ====
section
/-!
DEFINITION. The implementation parameters of 00_scope.md R9, which are fixed for a run, their constraints, and the one
value the spec leaves free.
-/

namespace Sys2Proof

/-- `BYPASS_EXPIRY` (00_scope.md R9, 10_state.md R38, 90_conflicts.md C3): whether a bypass entry survives the commit of
its register. Both readings are exact rules of the spec. -/
inductive BypassExpiry where
  | persistent
  | clearAtCommit
  deriving DecidableEq, Repr

/-- The parameters of 00_scope.md R9 with the defaults that are this hardware's values (92_eei_decisions.md D1 to D4, D7,
D14), but two: `XLEN` is the index of `CoreState`, `N` the length of the code memory (log 6). -/
structure Config where
  /-- `NUM_REGS` -/
  numRegs : Nat := 16
  /-- `DMEM_SIZE`, in words -/
  dmemSize : Nat := 4096
  /-- `CODE_BASE`, the address of the first code record and the reset vector -/
  codeBase : Nat := 4000
  /-- `INSN_WIDTH`, the PC distance between consecutive records -/
  insnWidth : Nat := 4
  /-- `INC`, what LDI and STI add to their base register (log 3) -/
  inc : Int := 4
  /-- `BYPASS_EXPIRY` -/
  bypassExpiry : BypassExpiry := .persistent
  deriving DecidableEq, Repr

/-- The constraints of 00_scope.md R9 on a configuration launched with `n` code records. A configuration that breaks them
"is not a valid core, and a model should refuse to build it" (60_exceptions.md R177). -/
def Config.valid (cfg : Config) (n : Nat) : Bool :=
  decide (1 ≤ cfg.numRegs ∧ cfg.numRegs ≤ 32 ∧ 1 ≤ cfg.dmemSize ∧ cfg.dmemSize ≤ 2 ^ 31 - 1 ∧ 1 ≤ cfg.insnWidth ∧
    cfg.codeBase + cfg.insnWidth * n ≤ 2 ^ 31 - 1)

/-- FREE VALUE, log 11: what `dbg_dmem_data` shows for a `dbg_dmem_addr` that names no data-memory word. The spec gives
the port only as `DM[dbg_dmem_addr]` (40_pipeline.md R119). DESIGN CHOICE; safe: nothing constrains it. -/
opaque Config.dbgDmemOutside {xlen : Nat} : Config → Word xlen → Word xlen

end Sys2Proof
end

