-- ==== Sys2Proof/Machine/State.lean ====
section
/-!
DEFINITION. The machine's state: the record of 10_state.md R18, the inputs that are fixed for a run (R18: "not state",
held here because a step takes nothing else), and the signals that live inside one tick (40_pipeline.md R75).
-/

namespace Sys2Proof.Machine

variable {xlen : Nat}

/-- One entry per register index a 5-bit field can hold; the first `NUM_REGS` entries are the spec's (10_state.md R18, R19).
DESIGN CHOICE, log 4: entries at `NUM_REGS` and above are no registers and no run writes them; safe. -/
abbrev Bank (α : Type) := Vector α 32

/-- One data-memory word at an index. The memory has no byte view, so a cell is a word (20_memory.md R42, R48; log 5). -/
abbrev Cell (xlen : Nat) := Nat × Word xlen

/-- The data memory `DM`: the words that are not 0, with strictly rising indices (`Memory.wf`); an index that is not listed
reads as 0, the reset value (10_state.md R18; log 5). -/
abbrev Memory (xlen : Nat) := List (Cell xlen)

/-- The pipeline latch (40_pipeline.md R80). The reserved bits of the record word are not held (30_encoding.md R68). -/
structure Latch (xlen : Nat) where
  /-- 1 = the latch holds a live instruction; in `F`, the fetch enable (10_state.md R33) -/
  hasInsn : Bool
  /-- opcode tag, from the record -/
  opcode : Opcode
  /-- `rd` index, from the record -/
  rd : RegIndex
  /-- `rs1` index, from the record -/
  rs1 : RegIndex
  /-- `rs2` index, from the record -/
  rs2 : RegIndex
  /-- immediate, from the record; as a word, `immWord` -/
  imm : Imm
  /-- address of the instruction: the PC it was read at (10_state.md R25) -/
  pc : Word xlen
  /-- source operand value, set by Decode -/
  rs1Value : Word xlen
  /-- source operand value, set by Decode -/
  rs2Value : Word xlen
  /-- first result, set by Execute, or by Memory for loads -/
  resultBuffer : Word xlen
  /-- second result of LDI and STI, set by Execute -/
  newResultBuffer : Word xlen
  /-- data address of LOAD, STORE, LDI, STI, set by Execute -/
  memoryAddress : Word xlen
  deriving DecidableEq, Repr

/-- A latch with every field 0 (10_state.md R18). -/
def Latch.reset : Latch xlen :=
  { hasInsn := false, opcode := 0, rd := 0, rs1 := 0, rs2 := 0, imm := 0, pc := 0, rs1Value := 0, rs2Value := 0,
    resultBuffer := 0, newResultBuffer := 0, memoryAddress := 0 }

/-- The fault codes of 60_exceptions.md R157. -/
inductive FaultCode where
  | dataAddressOutOfRange
  | registerIndexOutOfRange
  | divideByZero
  | illegalInstruction
  | fetchAddressFault
  deriving DecidableEq, Repr

/-- The stages that can fault: `S in {FETCH, DEC, EX, MEM}` (60_exceptions.md R156). -/
inductive FaultStage where
  | fetch
  | dec
  | ex
  | mem
  deriving DecidableEq, Repr

/-- The run status (10_state.md R34). `halted`, `exhausted` and `faulted` are terminal. -/
inductive RunStatus (xlen : Nat) where
  | running
  | halted
  | exhausted
  | faulted (code : FaultCode) (stage : FaultStage) (pc : Word xlen)
  deriving DecidableEq, Repr

/-- The five stages, in the tick's order (40_pipeline.md R74). -/
inductive Stage where
  | wb
  | mem
  | ex
  | dec
  | fetch
  deriving DecidableEq, Repr

/-- The MODEL's own field (log 7): the signals of 40_pipeline.md R75, which "exist only inside the tick", and the step of
the tick that is running. At every tick boundary they are at rest, so no claim about a boundary depends on them. -/
structure Signals where
  /-- which step of R75 runs: it says which stage's part of an instruction's rule applies -/
  stage : Stage
  /-- Decode to Fetch, in the same tick (40_pipeline.md R107) -/
  stall : Bool
  /-- Execute to Fetch, in the same tick (40_pipeline.md R94, R95) -/
  redirect : Bool
  deriving DecidableEq, Repr

/-- The signals at the start of a tick, `stall <- 0; redirect <- 0` (40_pipeline.md R75), and between ticks. -/
def Signals.rest : Signals := { stage := .wb, stall := false, redirect := false }

/-- The inputs (40_pipeline.md R119; 10_state.md R18: "not state: they are inputs fixed for a run"). No rule writes them
(70_reset_and_hazards.md R179). -/
structure Inputs (xlen : Nat) where
  /-- the parameters of 00_scope.md R9 -/
  cfg : Config
  /-- the code memory `code[0..N-1]`, one record word each; its length is `N`, the port `code_count` (20_memory.md R52) -/
  code : List RecordWord
  /-- the port `rst` (70_reset_and_hazards.md R178) -/
  rst : Bool
  /-- the port `tick_en` (60_exceptions.md R173) -/
  tickEn : Bool
  /-- the port `dbg_dmem_addr` -/
  dbgDmemAddr : Word xlen
  deriving DecidableEq, Repr

/-- The inputs of the reset core: the default parameters (00_scope.md R9), no program loaded (log 6), and the pins so that
the next clock edge is a tick (DESIGN CHOICE, log 12; unsafe: the spec gives the pins no value). -/
def Inputs.standard : Inputs xlen := { cfg := {}, code := [], rst := false, tickEn := true, dbgDmemAddr := 0 }

/-- The state of the core (10_state.md R18), its inputs, and the tick's signals, for words of `xlen` bits (00_scope.md R9:
`XLEN` is the "width of a register, a data-memory word, an immediate, a latch value field and the PC"). -/
structure CoreState (xlen : Nat) where
  /-- `R` (10_state.md R19) -/
  regs : Bank (Word xlen)
  /-- `DM` (20_memory.md R42) -/
  dmem : Memory xlen
  /-- `Z` (10_state.md R28) -/
  zeroFlag : Bool
  /-- `P` (10_state.md R28) -/
  positiveFlag : Bool
  /-- `PC` (10_state.md R24) -/
  pc : Word xlen
  /-- `SB`, the scoreboard (10_state.md R37) -/
  sb : Bank Bool
  /-- `BV`, the valid bits of the bypass table (10_state.md R38) -/
  bv : Bank Bool
  /-- `BYP`, the values of the bypass table (10_state.md R38) -/
  byp : Bank (Word xlen)
  /-- `F` (10_state.md R39) -/
  fLatch : Latch xlen
  /-- `D` -/
  dLatch : Latch xlen
  /-- `E` -/
  eLatch : Latch xlen
  /-- `M` -/
  mLatch : Latch xlen
  /-- `W` -/
  wLatch : Latch xlen
  /-- completed ticks (10_state.md R40) -/
  clock : Nat
  /-- committed instructions (10_state.md R40) -/
  retired : Nat
  /-- run status (10_state.md R34) -/
  status : RunStatus xlen
  /-- the inputs, fixed for a run -/
  inputs : Inputs xlen
  /-- the tick's signals, at rest between ticks -/
  signals : Signals
  deriving DecidableEq, Repr

/-- The machine's state: the parameter `XLEN` and the core with words of that width. No rule writes `xlen`. -/
structure State where
  /-- `XLEN` (00_scope.md R9; log 1) -/
  xlen : Nat
  /-- the core -/
  core : CoreState xlen
  deriving DecidableEq, Repr

/-- The reset state for given inputs: every field 0, but `PC = CODE_BASE`, `F.has_insn = 1` and `status = Running`
(70_reset_and_hazards.md R178). The inputs are not touched (R179). -/
def CoreState.resetWith (inputs : Inputs xlen) : CoreState xlen :=
  { regs := Vector.replicate 32 0
    dmem := []
    zeroFlag := false
    positiveFlag := false
    pc := BitVec.ofNat xlen inputs.cfg.codeBase
    sb := Vector.replicate 32 false
    bv := Vector.replicate 32 false
    byp := Vector.replicate 32 0
    fLatch := { Latch.reset with hasInsn := true }
    dLatch := Latch.reset
    eLatch := Latch.reset
    mLatch := Latch.reset
    wLatch := Latch.reset
    clock := 0
    retired := 0
    status := .running
    inputs := inputs
    signals := Signals.rest }

/-- The machine right after reset, with the standard inputs and `XLEN` at its default, 32 (70_reset_and_hazards.md R178;
00_scope.md R9). -/
def State.reset : State := { xlen := 32, core := CoreState.resetWith Inputs.standard }

/-- No outcome of a step is a stuck fault: each fatal fault of the spec "stops the core with a fault status that the host
can read" (60_exceptions.md R156) and so is a next state, `status = Faulted(code, stage, pc)`. The type has no
constructor: that no step faults holds by its type. DEDUCED, log 9; safe. -/
inductive Fault where
  deriving DecidableEq, Repr

/-- Why the model refuses to step. -/
inductive Refusal where
  /-- raised by an arm of `exec` that has no meaning yet; safe. No arm of this model is one. -/
  | notModelled (mnemonic : String)
  /-- raised by `step` when the inputs break the constraints of 00_scope.md R9: "not a valid core, and a model should
  refuse to build it" (60_exceptions.md R177; 93_implementation_defined.md U19); safe. -/
  | invalidConfiguration
  deriving DecidableEq, Repr

/-- What one step of the machine answers. -/
abbrev Result := Host.Outcome State Fault Refusal

end Sys2Proof.Machine
end

