-- ==== Sys2Proof/Machine/Flags.lean ====
section
/-!
DEFINITION. Word arithmetic (00_scope.md R12, R13; 41_alu.md R125, R126) and the flag computation (41_alu.md R127).
-/

namespace Sys2Proof.Machine

variable {xlen : Nat}

/-- `s32(v)`: the word as a two's-complement integer, `XLEN` bits wide (00_scope.md R12; log 1). -/
def signed (v : Word xlen) : Int := v.toInt

/-- `wrap(n)`: the word whose unsigned value is `n mod 2^XLEN` (00_scope.md R12; log 1). -/
def wrap (n : Int) : Word xlen := BitVec.ofInt xlen n

/-- The immediate as a word: the two's-complement value of its 32 bits (30_encoding.md R61, R63). With words of 32 bits it is
"used as it stands" (`immWord_thirtyTwo`); DEDUCED for another `XLEN`, log 1; unsafe there. -/
def immWord (imm : Imm) : Word xlen := wrap imm.toInt

/-- `a +w b` (00_scope.md R13). -/
def addw (a b : Word xlen) : Word xlen := wrap (signed a + signed b)

/-- `a -w b` (00_scope.md R13). -/
def subw (a b : Word xlen) : Word xlen := wrap (signed a - signed b)

/-- `a *w b` (00_scope.md R13). -/
def mulw (a b : Word xlen) : Word xlen := wrap (signed a * signed b)

/-- `a &w b` (00_scope.md R13). -/
def andw (a b : Word xlen) : Word xlen := a &&& b

/-- `a |w b` (00_scope.md R13). -/
def orw (a b : Word xlen) : Word xlen := a ||| b

/-- `a ^w b` (00_scope.md R13). -/
def xorw (a b : Word xlen) : Word xlen := a ^^^ b

/-- `divw(a, b)`: the quotient rounded toward zero, wrapped (41_alu.md R126). DIV faults before it divides by 0 (R131). -/
def divw (a b : Word xlen) : Word xlen := wrap (Int.tdiv (signed a) (signed b))

/-- `Z <- (v = 0)` (41_alu.md R127). -/
def zeroOf (v : Word xlen) : Bool := decide (v = 0)

/-- `P <- (s32(v) > 0)`: strictly greater than zero as a signed word (41_alu.md R127). -/
def positiveOf (v : Word xlen) : Bool := decide (signed v > 0)

/-- An instruction that writes the flags writes both, from one word (41_alu.md R127). -/
def CoreState.setFlags (v : Word xlen) (s : CoreState xlen) : CoreState xlen :=
    { s with zeroFlag := zeroOf v, positiveFlag := positiveOf v }

end Sys2Proof.Machine
end

