-- ==== Sys2Proof/Syntax.lean ====
section
/-!
DEFINITION. The 22 instructions of 30_encoding.md R65, one constructor per row of spec/opcode_table.json, each with the
fields its format uses (R62, R64). A field a format does not use is ignored by the core (R68) and is no argument.
-/

namespace Sys2Proof

/-- The instruction set (30_encoding.md R65), in the table's order. -/
inductive Instr where
  | add (rd rs1 rs2 : RegIndex)
  | sub (rd rs1 rs2 : RegIndex)
  | mul (rd rs1 rs2 : RegIndex)
  | div (rd rs1 rs2 : RegIndex)
  | and (rd rs1 rs2 : RegIndex)
  | or (rd rs1 rs2 : RegIndex)
  | xor (rd rs1 rs2 : RegIndex)
  | movc (rd : RegIndex) (imm : Imm)
  | load (rd rs1 : RegIndex) (imm : Imm)
  | store (rs1 rs2 : RegIndex) (imm : Imm)
  | bz (imm : Imm)
  | bnz (imm : Imm)
  | halt
  | addl (rd rs1 : RegIndex) (imm : Imm)
  | subl (rd rs1 : RegIndex) (imm : Imm)
  | cmp (rs1 rs2 : RegIndex)
  | bp (imm : Imm)
  | bnp (imm : Imm)
  | jump (rs1 : RegIndex) (imm : Imm)
  | ldi (rd rs1 : RegIndex) (imm : Imm)
  | sti (rs1 rs2 : RegIndex) (imm : Imm)
  | nop
  deriving DecidableEq, Repr

end Sys2Proof
end

