-- ==== Sys2Proof/Decode.lean ====
section
/-!
DEFINITION. The record word of 30_encoding.md R61, the decoder (R65, R66, R67) and the encoder.
-/

namespace Sys2Proof

/-- Bits 63:58 of a record word (30_encoding.md R61). -/
def opcodeField (w : RecordWord) : Opcode := w.extractLsb' 58 6

/-- Bits 57:53 (30_encoding.md R61). -/
def rdField (w : RecordWord) : RegIndex := w.extractLsb' 53 5

/-- Bits 52:48 (30_encoding.md R61). -/
def rs1Field (w : RecordWord) : RegIndex := w.extractLsb' 48 5

/-- Bits 47:43 (30_encoding.md R61). -/
def rs2Field (w : RecordWord) : RegIndex := w.extractLsb' 43 5

/-- Bits 31:0, used as they stand: not extended, scaled or shifted (30_encoding.md R61, R63). -/
def immField (w : RecordWord) : Imm := w.extractLsb' 0 32

/-- What the decoder answers: an instruction, or the rejection of an illegal opcode by name (30_encoding.md R67). -/
inductive Decoded where
  | instr (i : Instr)
  | illegalInstruction (op : Opcode)
  deriving DecidableEq, Repr

/-- The instruction a record's fields stand for: the row whose opcode equals the tag (30_encoding.md R65), with the fields
its format uses (R62, R64); opcodes 0x16 to 0x3F are illegal (R67). Other fields are dropped (R68). -/
def decodeFields (op : Opcode) (rd rs1 rs2 : RegIndex) (imm : Imm) : Decoded :=
  match op with
  | 0x00#6 => .instr (.add rd rs1 rs2)
  | 0x01#6 => .instr (.sub rd rs1 rs2)
  | 0x02#6 => .instr (.mul rd rs1 rs2)
  | 0x03#6 => .instr (.div rd rs1 rs2)
  | 0x04#6 => .instr (.and rd rs1 rs2)
  | 0x05#6 => .instr (.or rd rs1 rs2)
  | 0x06#6 => .instr (.xor rd rs1 rs2)
  | 0x07#6 => .instr (.movc rd imm)
  | 0x08#6 => .instr (.load rd rs1 imm)
  | 0x09#6 => .instr (.store rs1 rs2 imm)
  | 0x0A#6 => .instr (.bz imm)
  | 0x0B#6 => .instr (.bnz imm)
  | 0x0C#6 => .instr .halt
  | 0x0D#6 => .instr (.addl rd rs1 imm)
  | 0x0E#6 => .instr (.subl rd rs1 imm)
  | 0x0F#6 => .instr (.cmp rs1 rs2)
  | 0x10#6 => .instr (.bp imm)
  | 0x11#6 => .instr (.bnp imm)
  | 0x12#6 => .instr (.jump rs1 imm)
  | 0x13#6 => .instr (.ldi rd rs1 imm)
  | 0x14#6 => .instr (.sti rs1 rs2 imm)
  | 0x15#6 => .instr .nop
  | op => .illegalInstruction op

/-- The decoder, total on record words. Bits 42:32 take no part in it (30_encoding.md R65, R68). -/
def decode (w : RecordWord) : Decoded :=
  decodeFields (opcodeField w) (rdField w) (rs1Field w) (rs2Field w) (immField w)

/-- The opcode number of an instruction (30_encoding.md R65). -/
def opcodeOf : Instr → Opcode
  | .add _ _ _ => 0x00
  | .sub _ _ _ => 0x01
  | .mul _ _ _ => 0x02
  | .div _ _ _ => 0x03
  | .and _ _ _ => 0x04
  | .or _ _ _ => 0x05
  | .xor _ _ _ => 0x06
  | .movc _ _ => 0x07
  | .load _ _ _ => 0x08
  | .store _ _ _ => 0x09
  | .bz _ => 0x0A
  | .bnz _ => 0x0B
  | .halt => 0x0C
  | .addl _ _ _ => 0x0D
  | .subl _ _ _ => 0x0E
  | .cmp _ _ => 0x0F
  | .bp _ => 0x10
  | .bnp _ => 0x11
  | .jump _ _ => 0x12
  | .ldi _ _ _ => 0x13
  | .sti _ _ _ => 0x14
  | .nop => 0x15

/-- The packing of 30_encoding.md R61 as 95_test_vectors.md section 2 writes it: each field shifted to its place, the
reserved bits 0. -/
def packRecord (op : Opcode) (rd rs1 rs2 : RegIndex) (imm : Imm) : RecordWord :=
  (op.setWidth 64 <<< 58) ||| (rd.setWidth 64 <<< 53) ||| (rs1.setWidth 64 <<< 48) ||| (rs2.setWidth 64 <<< 43) |||
    imm.setWidth 64

/-- The record word of an instruction: its format's fields in their places, every other bit 0
(30_encoding.md R59: "absent/zero when not applicable", R62, R68). -/
def encode (i : Instr) : RecordWord :=
  match i with
  | .add rd rs1 rs2 => packRecord (opcodeOf i) rd rs1 rs2 0
  | .sub rd rs1 rs2 => packRecord (opcodeOf i) rd rs1 rs2 0
  | .mul rd rs1 rs2 => packRecord (opcodeOf i) rd rs1 rs2 0
  | .div rd rs1 rs2 => packRecord (opcodeOf i) rd rs1 rs2 0
  | .and rd rs1 rs2 => packRecord (opcodeOf i) rd rs1 rs2 0
  | .or rd rs1 rs2 => packRecord (opcodeOf i) rd rs1 rs2 0
  | .xor rd rs1 rs2 => packRecord (opcodeOf i) rd rs1 rs2 0
  | .movc rd imm => packRecord (opcodeOf i) rd 0 0 imm
  | .load rd rs1 imm => packRecord (opcodeOf i) rd rs1 0 imm
  | .store rs1 rs2 imm => packRecord (opcodeOf i) 0 rs1 rs2 imm
  | .bz imm => packRecord (opcodeOf i) 0 0 0 imm
  | .bnz imm => packRecord (opcodeOf i) 0 0 0 imm
  | .halt => packRecord (opcodeOf i) 0 0 0 0
  | .addl rd rs1 imm => packRecord (opcodeOf i) rd rs1 0 imm
  | .subl rd rs1 imm => packRecord (opcodeOf i) rd rs1 0 imm
  | .cmp rs1 rs2 => packRecord (opcodeOf i) 0 rs1 rs2 0
  | .bp imm => packRecord (opcodeOf i) 0 0 0 imm
  | .bnp imm => packRecord (opcodeOf i) 0 0 0 imm
  | .jump rs1 imm => packRecord (opcodeOf i) 0 rs1 0 imm
  | .ldi rd rs1 imm => packRecord (opcodeOf i) rd rs1 0 imm
  | .sti rs1 rs2 imm => packRecord (opcodeOf i) 0 rs1 rs2 imm
  | .nop => packRecord (opcodeOf i) 0 0 0 0

/-- The bits of a record word that an instruction's format uses: the opcode and the fields of 30_encoding.md R62. Every
other bit is ignored (R66: marked `x`, R68). -/
def usedBits (i : Instr) : RecordWord :=
  match i with
  | .add _ _ _ => 0xFFFFF80000000000
  | .sub _ _ _ => 0xFFFFF80000000000
  | .mul _ _ _ => 0xFFFFF80000000000
  | .div _ _ _ => 0xFFFFF80000000000
  | .and _ _ _ => 0xFFFFF80000000000
  | .or _ _ _ => 0xFFFFF80000000000
  | .xor _ _ _ => 0xFFFFF80000000000
  | .movc _ _ => 0xFFE00000FFFFFFFF
  | .load _ _ _ => 0xFFFF0000FFFFFFFF
  | .store _ _ _ => 0xFC1FF800FFFFFFFF
  | .bz _ => 0xFC000000FFFFFFFF
  | .bnz _ => 0xFC000000FFFFFFFF
  | .halt => 0xFC00000000000000
  | .addl _ _ _ => 0xFFFF0000FFFFFFFF
  | .subl _ _ _ => 0xFFFF0000FFFFFFFF
  | .cmp _ _ => 0xFC1FF80000000000
  | .bp _ => 0xFC000000FFFFFFFF
  | .bnp _ => 0xFC000000FFFFFFFF
  | .jump _ _ => 0xFC1F0000FFFFFFFF
  | .ldi _ _ _ => 0xFFFF0000FFFFFFFF
  | .sti _ _ _ => 0xFC1FF800FFFFFFFF
  | .nop => 0xFC00000000000000

/-- The record word whose low `nbits` bits are those of `w` and whose other bits are 0: bit 0 of the table's numbering is
bit 0 of the record word (30_encoding.md R11, R66). A record has no byte order (20_memory.md R48), so there is one word. -/
def tableWord (nbits w : Nat) : RecordWord := BitVec.ofNat 64 (w % 2 ^ nbits)

/-- The instruction the decoder reads from the bits `w` of a row of spec/opcode_table.json. -/
def decodeTableWord (nbits w : Nat) : Option Instr :=
  match decode (tableWord nbits w) with
  | .instr i => some i
  | .illegalInstruction _ => none

end Sys2Proof
end

