-- ==== Sys2Proof/WellFormed.lean ====
section
/-!
DEFINITION. Well-formed instructions: the register fields an instruction uses name existing registers
(30_encoding.md R69; 60_exceptions.md R159). An ill-formed one is not refused by the core: Decode raises
`RegisterIndexOutOfRange` for it.
-/

namespace Sys2Proof

/-- The column "used regs" of 40_pipeline.md R118: the register fields checked against `NUM_REGS`. -/
def Instr.usedRegs : Instr → List RegIndex
  | .add rd rs1 rs2 => [rd, rs1, rs2]
  | .sub rd rs1 rs2 => [rd, rs1, rs2]
  | .mul rd rs1 rs2 => [rd, rs1, rs2]
  | .div rd rs1 rs2 => [rd, rs1, rs2]
  | .and rd rs1 rs2 => [rd, rs1, rs2]
  | .or rd rs1 rs2 => [rd, rs1, rs2]
  | .xor rd rs1 rs2 => [rd, rs1, rs2]
  | .movc rd _ => [rd]
  | .load rd rs1 _ => [rd, rs1]
  | .store rs1 rs2 _ => [rs1, rs2]
  | .bz _ => []
  | .bnz _ => []
  | .halt => []
  | .addl rd rs1 _ => [rd, rs1]
  | .subl rd rs1 _ => [rd, rs1]
  | .cmp rs1 rs2 => [rs1, rs2]
  | .bp _ => []
  | .bnp _ => []
  | .jump rs1 _ => [rs1]
  | .ldi rd rs1 _ => [rd, rs1]
  | .sti rs1 rs2 _ => [rs1, rs2]
  | .nop => []

/-- A register index names an existing register (30_encoding.md R69). -/
def Config.hasReg (cfg : Config) (r : RegIndex) : Bool := decide (r.toNat < cfg.numRegs)

/-- Every register field the instruction uses holds an index below `NUM_REGS` (30_encoding.md R69). -/
def Instr.wellFormed (cfg : Config) (i : Instr) : Bool := i.usedRegs.all cfg.hasReg

end Sys2Proof
end

