-- ==== Sys2Proof/Machine/Operands.lean ====
section
/-!
DEFINITION. Register banks, the per-opcode register columns of 40_pipeline.md R118, the hazard_detector (R98) and the
bypass_multiplexer (R99): the one place where Decode reads a register (10_state.md R22).
-/

namespace Sys2Proof.Machine

variable {xlen : Nat}

/-- The entry of register `r`. -/
def Bank.get {α : Type} (b : Bank α) (r : RegIndex) : α := b[r.toNat]'r.isLt

/-- The bank with `v` in the entry of register `r`. No register is hardwired (10_state.md R20). -/
def Bank.put {α : Type} (b : Bank α) (r : RegIndex) (v : α) : Bank α := b.set r.toNat v r.isLt

/-- The column "dests" of 40_pipeline.md R118: the registers marked pending in Decode and written in Writeback. -/
def destsOf : Instr → List RegIndex
  | .add rd _ _ => [rd]
  | .sub rd _ _ => [rd]
  | .mul rd _ _ => [rd]
  | .div rd _ _ => [rd]
  | .and rd _ _ => [rd]
  | .or rd _ _ => [rd]
  | .xor rd _ _ => [rd]
  | .movc rd _ => [rd]
  | .load rd _ _ => [rd]
  | .store _ _ _ => []
  | .bz _ => []
  | .bnz _ => []
  | .halt => []
  | .addl rd _ _ => [rd]
  | .subl rd _ _ => [rd]
  | .cmp _ _ => []
  | .bp _ => []
  | .bnp _ => []
  | .jump _ _ => []
  | .ldi rd rs1 _ => [rd, rs1]
  | .sti _ rs2 _ => [rs2]
  | .nop => []

/-- The column "sources (checked)" of 40_pipeline.md R118: the registers the hazard_detector checks. JUMP reads `rs1`
unchecked (R105). -/
def sourcesOf : Instr → List RegIndex
  | .add _ rs1 rs2 => [rs1, rs2]
  | .sub _ rs1 rs2 => [rs1, rs2]
  | .mul _ rs1 rs2 => [rs1, rs2]
  | .div _ rs1 rs2 => [rs1, rs2]
  | .and _ rs1 rs2 => [rs1, rs2]
  | .or _ rs1 rs2 => [rs1, rs2]
  | .xor _ rs1 rs2 => [rs1, rs2]
  | .movc _ _ => []
  | .load _ rs1 _ => [rs1]
  | .store rs1 rs2 _ => [rs1, rs2]
  | .bz _ => []
  | .bnz _ => []
  | .halt => []
  | .addl _ rs1 _ => [rs1]
  | .subl _ rs1 _ => [rs1]
  | .cmp rs1 rs2 => [rs1, rs2]
  | .bp _ => []
  | .bnp _ => []
  | .jump _ _ => []
  | .ldi _ rs1 _ => [rs1]
  | .sti rs1 rs2 _ => [rs1, rs2]
  | .nop => []

/-- The instruction a latch holds, by its opcode tag alone (30_encoding.md R60, R65); none for an illegal opcode (R67). -/
def Latch.instr (l : Latch xlen) : Option Instr :=
  match decodeFields l.opcode l.rd l.rs1 l.rs2 l.imm with
  | .instr i => some i
  | .illegalInstruction _ => none

/-- `ready(r) = (BV[r] = 1) or (SB[r] = 0)` (40_pipeline.md R98). -/
def CoreState.ready (s : CoreState xlen) (r : RegIndex) : Bool := Bank.get s.bv r || !Bank.get s.sb r

/-- `operand(r)`: the bypass entry wins whenever it is valid, even when it is stale (40_pipeline.md R99). -/
def CoreState.operand (s : CoreState xlen) (r : RegIndex) : Word xlen :=
    if Bank.get s.bv r then Bank.get s.byp r else Bank.get s.regs r

end Sys2Proof.Machine
end

