-- ==== Sys2Proof/Machine/Ops.lean ====
section
/-!
DEFINITION. The named operations of the stage engine: the data memory, raising a fault, the latches, the tables, redirect,
fetch and commit, and the stage steps an instruction's meaning is made of.
-/

namespace Sys2Proof.Machine

variable {xlen : Nat}

/-! ## Data memory (20_memory.md) -/

/-- The word at an index; an index that is not listed reads as 0, its reset value (20_memory.md R50). -/
def Memory.read (m : Memory xlen) (a : Nat) : Word xlen :=
  match m with
  | [] => 0
  | (b, v) :: rest => if a = b then v else Memory.read rest a

/-- The memory with `v` at index `a`, in canonical form: indices strictly rising, no word 0 listed. -/
def Memory.write (m : Memory xlen) (a : Nat) (v : Word xlen) : Memory xlen :=
  match m with
  | [] => if v = 0 then [] else [(a, v)]
  | (b, u) :: rest =>
    if a < b then (if v = 0 then (b, u) :: rest else (a, v) :: (b, u) :: rest)
    else if a = b then (if v = 0 then rest else (a, v) :: rest)
    else (b, u) :: Memory.write rest a v

/-- Every index of the list is above `a`. -/
def Memory.allAbove (a : Nat) (m : Memory xlen) : Bool := m.all fun c => decide (a < c.1)

/-- The canonical form: indices strictly rising, and no listed word is 0 (log 5). -/
def Memory.wf : Memory xlen → Bool
  | [] => true
  | (a, v) :: rest => decide (v ≠ 0) && Memory.allAbove a rest && Memory.wf rest

/-- A data address is valid when `0 <= s32(a) < DMEM_SIZE` (20_memory.md R43). -/
def CoreState.validAddress (s : CoreState xlen) (a : Word xlen) : Bool :=
    decide (0 ≤ signed a ∧ signed a < s.inputs.cfg.dmemSize)

/-- `MemRead(a, 1)`: `DM[s32(a)]`, or none where it raises (20_memory.md R44). -/
def CoreState.memRead (s : CoreState xlen) (a : Word xlen) : Option (Word xlen) :=
  if s.validAddress a then some (Memory.read s.dmem (signed a).toNat) else none

/-- `MemWrite(a, 1, v)`: `DM[s32(a)] <- v`, or none where it raises (20_memory.md R45). -/
def CoreState.memWrite (s : CoreState xlen) (a v : Word xlen) : Option (CoreState xlen) :=
  if s.validAddress a then some { s with dmem := Memory.write s.dmem (signed a).toNat v } else none

/-! ## Faults (60_exceptions.md) -/

/-- `raise Fault(code, pc)` performed by stage `stage`: the status is written and nothing else; the tick stops there
because the status is no longer Running (60_exceptions.md R156, `andThen`). There is no trap entry (R164) and no return
from a fault: "the only way out is reset" (R167). -/
def CoreState.raiseFault (code : FaultCode) (stage : FaultStage) (pc : Word xlen) (s : CoreState xlen) :
    CoreState xlen :=
  { s with status := .faulted code stage pc }

/-! ## The tick's signals (40_pipeline.md R75) -/

/-- The state in which step `stage` of the tick runs (40_pipeline.md R75). -/
def CoreState.atStage (stage : Stage) (s : CoreState xlen) : CoreState xlen :=
    { s with signals := { s.signals with stage := stage } }

/-- `stall <- 0; redirect <- 0` (40_pipeline.md R75): the signals at rest. -/
def CoreState.restSignals (s : CoreState xlen) : CoreState xlen := { s with signals := Signals.rest }

/-- `stall <- 1` (40_pipeline.md R100, R107). -/
def CoreState.raiseStall (s : CoreState xlen) : CoreState xlen := { s with signals := { s.signals with stall := true } }

/-! ## Latches (40_pipeline.md R80 to R83) -/

/-- The latch with `has_insn <- 1`. -/
def Latch.filled (l : Latch xlen) : Latch xlen := { l with hasInsn := true }

/-- The latch with `has_insn <- 0`; its other fields keep their last values (40_pipeline.md R81; log 16). -/
def Latch.emptied (l : Latch xlen) : Latch xlen := { l with hasInsn := false }

/-- Decode copies itself forward with the contents `l`: `D <- l; E <- D; E.has_insn <- 1; D.has_insn <- 0` (R83). -/
def CoreState.sendToExecute (l : Latch xlen) (s : CoreState xlen) : CoreState xlen :=
    { s with dLatch := l.emptied, eLatch := l.filled }

/-- Execute copies itself forward with the contents `l` (40_pipeline.md R83, R89). -/
def CoreState.sendToMemory (l : Latch xlen) (s : CoreState xlen) : CoreState xlen :=
    { s with eLatch := l.emptied, mLatch := l.filled }

/-- Memory copies itself forward with the contents `l` (40_pipeline.md R83, R88). -/
def CoreState.sendToWriteback (l : Latch xlen) (s : CoreState xlen) : CoreState xlen :=
    { s with mLatch := l.emptied, wLatch := l.filled }

/-- `D.has_insn <- 0`: Decode drops a NOP (40_pipeline.md R106). -/
def CoreState.dropDecode (s : CoreState xlen) : CoreState xlen := { s with dLatch := s.dLatch.emptied }

/-! ## Scoreboard and bypass table (10_state.md R37, R38) -/

/-- The bank with `true` in the entry of every register listed. -/
def Bank.setAll (b : Bank Bool) (rs : List RegIndex) : Bank Bool := rs.foldl (fun c r => Bank.put c r true) b

/-- `for each r in dests(op): SB[r] <- 1` (40_pipeline.md R100, R103). -/
def CoreState.markAll (rs : List RegIndex) (s : CoreState xlen) : CoreState xlen := { s with sb := Bank.setAll s.sb rs }

/-- `BYP[r] <- value; BV[r] <- 1` (40_pipeline.md R90). -/
def CoreState.writeBypass (r : RegIndex) (v : Word xlen) (s : CoreState xlen) : CoreState xlen :=
  { s with byp := Bank.put s.byp r v, bv := Bank.put s.bv r true }

/-- One register write of the commit: `R[r] <- v; SB[r] <- 0`, and under `clear_at_commit` also `BV[r] <- 0`
(40_pipeline.md R85). -/
def CoreState.commitTo (r : RegIndex) (v : Word xlen) (s : CoreState xlen) : CoreState xlen :=
  { s with
    regs := Bank.put s.regs r v
    sb := Bank.put s.sb r false
    bv := match s.inputs.cfg.bypassExpiry with
      | .persistent => s.bv
      | .clearAtCommit => Bank.put s.bv r false }

/-- What Writeback does after the register writes: `retired` counts the instruction and `W` becomes empty
(40_pipeline.md R84). -/
def CoreState.retire (s : CoreState xlen) : CoreState xlen :=
    { s with wLatch := s.wLatch.emptied, retired := s.retired + 1 }

/-- `clock <- clock + 1` (40_pipeline.md R87, R116). -/
def CoreState.countTick (s : CoreState xlen) : CoreState xlen := { s with clock := s.clock + 1 }

/-- `status <- Halted` (40_pipeline.md R87). -/
def CoreState.halt (s : CoreState xlen) : CoreState xlen := { s with status := .halted }

/-- `status <- Exhausted` (40_pipeline.md R117). -/
def CoreState.exhaust (s : CoreState xlen) : CoreState xlen := { s with status := .exhausted }

/-! ## pc_redirect_fsm (40_pipeline.md R94) -/

/-- `PC <- target; D.has_insn <- 0; F.has_insn <- 1; redirect <- 1` (40_pipeline.md R94). -/
def CoreState.redirect (target : Word xlen) (s : CoreState xlen) : CoreState xlen :=
  { s with
    pc := target
    dLatch := s.dLatch.emptied
    fLatch := s.fLatch.filled
    signals := { s.signals with redirect := true } }

/-! ## fetch_unit (40_pipeline.md R108 to R113) -/

/-- The fetch class of a PC value (40_pipeline.md R108). -/
inductive FetchClass where
  | fault
  | exhausted
  | index (k : Nat)
  deriving DecidableEq, Repr

/-- `fetch_class(PC)`, computed from `p = s32(PC)` (40_pipeline.md R108). -/
def fetchClassOf (cfg : Config) (n : Nat) (pc : Word xlen) : FetchClass :=
  let offset := signed pc - cfg.codeBase
  if signed pc < cfg.codeBase ∨ offset % cfg.insnWidth ≠ 0 then .fault
  else
    let k := (offset / cfg.insnWidth).toNat
    if k ≥ n then .exhausted else .index k

/-- The fetch class of the state's `PC`. -/
def CoreState.fetchClass (s : CoreState xlen) : FetchClass := fetchClassOf s.inputs.cfg s.inputs.code.length s.pc

/-- The record word `code[k]`; Fetch reads it only for `k < N` (20_memory.md R52). -/
def CoreState.codeRecord (s : CoreState xlen) (k : Nat) : RecordWord := s.inputs.code.getD k 0

/-- `load_record(F, c); F.pc <- PC`: the record's fields go to the latch, its reserved bits do not (40_pipeline.md R109). -/
def Latch.loadRecord (l : Latch xlen) (w : RecordWord) (pc : Word xlen) : Latch xlen :=
  { l with opcode := opcodeField w, rd := rdField w, rs1 := rs1Field w, rs2 := rs2Field w, imm := immField w, pc := pc }

/-- HOLD: Fetch reloads `F` from the record at the unchanged `PC` (40_pipeline.md R111). -/
def CoreState.holdRecord (w : RecordWord) (s : CoreState xlen) : CoreState xlen :=
    { s with fLatch := s.fLatch.loadRecord w s.pc }

/-- FETCH: Fetch loads `F` and clears its value fields (40_pipeline.md R109). -/
def CoreState.fetchRecord (w : RecordWord) (s : CoreState xlen) : CoreState xlen :=
  { s with fLatch := { s.fLatch.loadRecord w s.pc with
    rs1Value := 0, rs2Value := 0, resultBuffer := 0, newResultBuffer := 0, memoryAddress := 0 } }

/-- `PC <- PC +w INSN_WIDTH; D <- F; D.has_insn <- 1` (40_pipeline.md R109, R110). -/
def CoreState.deliver (s : CoreState xlen) : CoreState xlen :=
  { s with pc := addw s.pc (BitVec.ofNat xlen s.inputs.cfg.insnWidth), dLatch := s.fLatch.filled }

/-- `F.has_insn <- 0` (40_pipeline.md R113). -/
def CoreState.stopFetch (s : CoreState xlen) : CoreState xlen := { s with fLatch := s.fLatch.emptied }

/-! ## decode_stage (40_pipeline.md R100) -/

/-- What Decode needs of an opcode: its row of 40_pipeline.md R118. -/
structure DecodeNeeds where
  /-- "used regs" -/
  used : List RegIndex
  /-- "sources (checked)" -/
  sources : List RegIndex
  /-- the register whose value fills `rs1_value`, if the field is a source field -/
  fill1 : Option RegIndex
  /-- the register whose value fills `rs2_value`, if the field is a source field -/
  fill2 : Option RegIndex
  /-- "dests" -/
  dests : List RegIndex

/-- The Decode latch with its source values read through the bypass_multiplexer (40_pipeline.md R100). -/
def CoreState.withOperands (s : CoreState xlen) (n : DecodeNeeds) : Latch xlen :=
  { s.dLatch with
    rs1Value := match n.fill1 with
      | some r => s.operand r
      | none => s.dLatch.rs1Value
    rs2Value := match n.fill2 with
      | some r => s.operand r
      | none => s.dLatch.rs2Value }

/-- The Decode step of an instruction that is not a NOP: the register indices are checked, then the hazards; then the
sources are read, the destinations marked and the instruction dispatched (40_pipeline.md R100; 60_exceptions.md R159,
R166). -/
def CoreState.decodeWith (n : DecodeNeeds) (s : CoreState xlen) : CoreState xlen :=
  if n.used.all s.inputs.cfg.hasReg then
    if n.sources.all s.ready then (s.markAll n.dests).sendToExecute (s.withOperands n) else s.raiseStall
  else s.raiseFault .registerIndexOutOfRange .dec s.dLatch.pc

/-! ## An instruction's meaning: its step in each stage -/

/-- The stage steps of one instruction, as its rule lists them: Fetch, Decode, Execute, Memory, Writeback. The defaults
are what every instruction shares: Fetch delivers it (40_pipeline.md R110), Execute and Memory pass it on (R88, R89), and
Writeback retires it (R84). -/
structure StageSteps (xlen : Nat) where
  fetch : CoreState xlen → CoreState xlen := CoreState.deliver
  dec : CoreState xlen → CoreState xlen
  ex : CoreState xlen → CoreState xlen := fun s => s.sendToMemory s.eLatch
  mem : CoreState xlen → CoreState xlen := fun s => s.sendToWriteback s.mLatch
  wb : CoreState xlen → CoreState xlen := CoreState.retire

/-- The instruction's step in the stage whose turn it is (40_pipeline.md R75; log 8). Every step answers a next state: a
fault of the spec is one too (60_exceptions.md R156; log 9). -/
def runSteps (p : ∀ {xlen : Nat}, StageSteps xlen) (s : State) : Result :=
  match s.core.signals.stage with
  | .fetch => .next ⟨_, p.fetch s.core⟩
  | .dec => .next ⟨_, p.dec s.core⟩
  | .ex => .next ⟨_, p.ex s.core⟩
  | .mem => .next ⟨_, p.mem s.core⟩
  | .wb => .next ⟨_, p.wb s.core⟩

/-! ## Execute, Memory and Writeback steps that instructions share -/

/-- Execute produces the value `v` for register `rd`: `E.result_buffer <- v`, the bypass table, and forward
(40_pipeline.md R89, R90). -/
def CoreState.produce (rd : RegIndex) (v : Word xlen) (s : CoreState xlen) : CoreState xlen :=
  (s.writeBypass rd v).sendToMemory { s.eLatch with resultBuffer := v }

/-- As `produce`, with both flags from the result (41_alu.md R127). -/
def CoreState.produceFlags (rd : RegIndex) (v : Word xlen) (s : CoreState xlen) : CoreState xlen :=
    (s.produce rd v).setFlags v

/-- Execute forms the data address (20_memory.md R46). -/
def CoreState.formAddress (a : Word xlen) (s : CoreState xlen) : CoreState xlen :=
    s.sendToMemory { s.eLatch with memoryAddress := a }

/-- Execute forms the data address and increments the base: `nb <- base +w INC`, an Execute-produced value of the base
register (42_loadstore.md R140, R142, R144). -/
def CoreState.formAddressInc (base : RegIndex) (a old : Word xlen) (s : CoreState xlen) : CoreState xlen :=
  (s.writeBypass base (addw old (wrap s.inputs.cfg.inc))).sendToMemory
    { s.eLatch with memoryAddress := a, newResultBuffer := addw old (wrap s.inputs.cfg.inc) }

/-- Memory loads: `M.result_buffer <- MemRead(M.memory_address, 1)`, then forward (40_pipeline.md R88; 60_exceptions.md
R158). -/
def CoreState.loadWord (s : CoreState xlen) : CoreState xlen :=
  match s.memRead s.mLatch.memoryAddress with
  | some v => s.sendToWriteback { s.mLatch with resultBuffer := v }
  | none => s.raiseFault .dataAddressOutOfRange .mem s.mLatch.pc

/-- Memory stores: `MemWrite(M.memory_address, 1, M.rs1_value)`, then forward (40_pipeline.md R88; 60_exceptions.md
R158). -/
def CoreState.storeWord (s : CoreState xlen) : CoreState xlen :=
  match s.memWrite s.mLatch.memoryAddress s.mLatch.rs1Value with
  | some t => t.sendToWriteback t.mLatch
  | none => s.raiseFault .dataAddressOutOfRange .mem s.mLatch.pc

/-- Writeback commits the first result to `rd` and retires (40_pipeline.md R84, R85). -/
def CoreState.commitResult (rd : RegIndex) (s : CoreState xlen) : CoreState xlen :=
    (s.commitTo rd s.wLatch.resultBuffer).retire

/-- Execute of a branch or jump: the redirect if it is taken, then forward (40_pipeline.md R89, R92, R94). -/
def CoreState.branch (taken : Bool) (target : Word xlen) (s : CoreState xlen) : CoreState xlen :=
  let t := if taken then s.redirect target else s
  t.sendToMemory t.eLatch

end Sys2Proof.Machine
end

