-- ==== Sys2Proof/Machine/Alu.lean ====
section
/-!
DEFINITION. The arithmetic, logical, move and compare instructions (41_alu.md).
-/

namespace Sys2Proof.Machine

variable {xlen : Nat}

/-- Decode of the R3 format: both sources checked and read, `rd` marked (40_pipeline.md R118). -/
def decodeR3 (rd rs1 rs2 : RegIndex) : CoreState xlen → CoreState xlen :=
  CoreState.decodeWith { used := [rd, rs1, rs2], sources := [rs1, rs2], fill1 := some rs1, fill2 := some rs2, dests :=
      [rd] }

/-- Decode of the RI format with one destination: `rs1` checked and read, `rd` marked; `rs2` neither read nor checked
(40_pipeline.md R118). -/
def decodeRI (rd rs1 : RegIndex) : CoreState xlen → CoreState xlen :=
  CoreState.decodeWith { used := [rd, rs1], sources := [rs1], fill1 := some rs1, fill2 := none, dests := [rd] }

/-- The stages of a register-register arithmetic instruction: the result of `op` to `rd`, with both flags
(41_alu.md R128 to R130). -/
def arithR3 (op : Word xlen → Word xlen → Word xlen) (rd rs1 rs2 : RegIndex) : StageSteps xlen where
  dec := decodeR3 rd rs1 rs2
  ex s := s.produceFlags rd (op s.eLatch.rs1Value s.eLatch.rs2Value)
  wb := CoreState.commitResult rd

/-- The stages of a register-register logical instruction: no flag is written (41_alu.md R132 to R134). -/
def logicR3 (op : Word xlen → Word xlen → Word xlen) (rd rs1 rs2 : RegIndex) : StageSteps xlen where
  dec := decodeR3 rd rs1 rs2
  ex s := s.produce rd (op s.eLatch.rs1Value s.eLatch.rs2Value)
  wb := CoreState.commitResult rd

/-- The stages of a register-immediate arithmetic instruction (41_alu.md R135, R136). -/
def arithRI (op : Word xlen → Word xlen → Word xlen) (rd rs1 : RegIndex) (imm : Imm) : StageSteps xlen where
  dec := decodeRI rd rs1
  ex s := s.produceFlags rd (op s.eLatch.rs1Value (immWord imm))
  wb := CoreState.commitResult rd

/-- ADD `Rd,Rs1,Rs2` (41_alu.md R128). -/
def execAdd (rd rs1 rs2 : RegIndex) (s : State) : Result := runSteps (arithR3 addw rd rs1 rs2) s

/-- SUB `Rd,Rs1,Rs2` (41_alu.md R129). -/
def execSub (rd rs1 rs2 : RegIndex) (s : State) : Result := runSteps (arithR3 subw rd rs1 rs2) s

/-- MUL `Rd,Rs1,Rs2`: the low `XLEN` bits of the product (41_alu.md R130). -/
def execMul (rd rs1 rs2 : RegIndex) (s : State) : Result := runSteps (arithR3 mulw rd rs1 rs2) s

/-- DIV `Rd,Rs1,Rs2`: a divisor of 0 raises `DivideByZero` in Execute before any write (41_alu.md R131;
60_exceptions.md R160). -/
def execDiv (rd rs1 rs2 : RegIndex) (s : State) : Result :=
  runSteps { arithR3 divw rd rs1 rs2 with
    ex := fun t =>
      if t.eLatch.rs2Value = 0 then t.raiseFault .divideByZero .ex t.eLatch.pc
      else t.produceFlags rd (divw t.eLatch.rs1Value t.eLatch.rs2Value) } s

/-- AND `Rd,Rs1,Rs2` (41_alu.md R132). -/
def execAnd (rd rs1 rs2 : RegIndex) (s : State) : Result := runSteps (logicR3 andw rd rs1 rs2) s

/-- OR `Rd,Rs1,Rs2` (41_alu.md R133). -/
def execOr (rd rs1 rs2 : RegIndex) (s : State) : Result := runSteps (logicR3 orw rd rs1 rs2) s

/-- XOR `Rd,Rs1,Rs2` (41_alu.md R134). -/
def execXor (rd rs1 rs2 : RegIndex) (s : State) : Result := runSteps (logicR3 xorw rd rs1 rs2) s

/-- ADDL `Rd,Rs1,#imm` (41_alu.md R135). -/
def execAddl (rd rs1 : RegIndex) (imm : Imm) (s : State) : Result := runSteps (arithRI addw rd rs1 imm) s

/-- SUBL `Rd,Rs1,#imm` (41_alu.md R136). -/
def execSubl (rd rs1 : RegIndex) (imm : Imm) (s : State) : Result := runSteps (arithRI subw rd rs1 imm) s

/-- MOVC `Rd,#imm`: no source register, no flag (41_alu.md R137). -/
def execMovc (rd : RegIndex) (imm : Imm) (s : State) : Result :=
  runSteps
    { dec := CoreState.decodeWith { used := [rd], sources := [], fill1 := none, fill2 := none, dests := [rd] }
      ex := CoreState.produce rd (immWord imm)
      wb := CoreState.commitResult rd } s

/-- CMP `Rs1,Rs2`: both flags from `rs1_value -w rs2_value`; no register, bypass or `result_buffer` write
(41_alu.md R138). -/
def execCmp (rs1 rs2 : RegIndex) (s : State) : Result :=
  runSteps
    { dec := CoreState.decodeWith
        { used := [rs1, rs2], sources := [rs1, rs2], fill1 := some rs1, fill2 := some rs2, dests := [] }
      ex := fun t => (t.sendToMemory t.eLatch).setFlags (subw t.eLatch.rs1Value t.eLatch.rs2Value) } s

end Sys2Proof.Machine
end

