-- ==== Sys2Proof/Machine/Control.lean ====
section
/-!
DEFINITION. The branch and jump instructions (43_control.md), resolved in Execute by the branch_resolver
(40_pipeline.md R92, R93).
-/

namespace Sys2Proof.Machine

variable {xlen : Nat}

/-- Decode of a conditional branch: no register; it always dispatches (40_pipeline.md R104). -/
def decodeB : CoreState xlen → CoreState xlen :=
    CoreState.decodeWith { used := [], sources := [], fill1 := none, fill2 := none, dests := [] }

/-- The stages of a conditional branch: taken on `cond`, to `E.pc +w imm` (40_pipeline.md R92, R93). -/
def condBranch (cond : CoreState xlen → Bool) (imm : Imm) : StageSteps xlen where
  dec := decodeB
  ex s := s.branch (cond s) (addw s.eLatch.pc (immWord imm))

/-- BZ `#imm`: taken when `Z = 1` (43_control.md R147). -/
def execBz (imm : Imm) (s : State) : Result := runSteps (condBranch (fun t => t.zeroFlag) imm) s

/-- BNZ `#imm`: taken when `Z = 0` (43_control.md R148). -/
def execBnz (imm : Imm) (s : State) : Result := runSteps (condBranch (fun t => !t.zeroFlag) imm) s

/-- BP `#imm`: taken when `P = 1` (43_control.md R149). -/
def execBp (imm : Imm) (s : State) : Result := runSteps (condBranch (fun t => t.positiveFlag) imm) s

/-- BNP `#imm`: taken when `P = 0` (43_control.md R150). -/
def execBnp (imm : Imm) (s : State) : Result := runSteps (condBranch (fun t => !t.positiveFlag) imm) s

/-- JUMP `Rs1,#imm`: `rs1` is read with no hazard check; always taken, to `rs1_value +w imm` (43_control.md R151;
40_pipeline.md R105). -/
def execJump (rs1 : RegIndex) (imm : Imm) (s : State) : Result :=
  runSteps
    { dec := CoreState.decodeWith { used := [rs1], sources := [], fill1 := some rs1, fill2 := none, dests := [] }
      ex := fun t => t.branch true (addw t.eLatch.rs1Value (immWord imm)) } s

end Sys2Proof.Machine
end

