-- ==== Sys2Proof/Machine/LoadStore.lean ====
section
/-!
DEFINITION. The load and store instructions (42_loadstore.md).
-/

namespace Sys2Proof.Machine

variable {xlen : Nat}

/-- LOAD `Rd,Rs1,#imm` (42_loadstore.md R141). -/
def execLoad (rd rs1 : RegIndex) (imm : Imm) (s : State) : Result :=
  runSteps
    { dec := CoreState.decodeWith { used := [rd, rs1], sources := [rs1], fill1 := some rs1, fill2 := none, dests :=
        [rd] }
      ex := fun t => t.formAddress (addw t.eLatch.rs1Value (immWord imm))
      mem := CoreState.loadWord
      wb := CoreState.commitResult rd } s

/-- LDI `Rd,Rs1,#imm`: as LOAD, and `rs1 <- base +w INC`; Writeback writes `rs1` first, then `rd`, so that the loaded word
is kept when they are one register (42_loadstore.md R142; 40_pipeline.md R85). -/
def execLdi (rd rs1 : RegIndex) (imm : Imm) (s : State) : Result :=
  runSteps
    { dec := CoreState.decodeWith
        { used := [rd, rs1], sources := [rs1], fill1 := some rs1, fill2 := none, dests := [rd, rs1] }
      ex := fun t => t.formAddressInc rs1 (addw t.eLatch.rs1Value (immWord imm)) t.eLatch.rs1Value
      mem := CoreState.loadWord
      wb := fun t => (t.commitTo rs1 t.wLatch.newResultBuffer).commitResult rd } s

/-- STORE `Rs1,Rs2,#imm`: `rs1` is the data, `rs2` the base (42_loadstore.md R143). -/
def execStore (rs1 rs2 : RegIndex) (imm : Imm) (s : State) : Result :=
  runSteps
    { dec := CoreState.decodeWith
        { used := [rs1, rs2], sources := [rs1, rs2], fill1 := some rs1, fill2 := some rs2, dests := [] }
      ex := fun t => t.formAddress (addw t.eLatch.rs2Value (immWord imm))
      mem := CoreState.storeWord } s

/-- STI `Rs1,Rs2,#imm`: as STORE, and `rs2 <- base +w INC` (42_loadstore.md R144). -/
def execSti (rs1 rs2 : RegIndex) (imm : Imm) (s : State) : Result :=
  runSteps
    { dec := CoreState.decodeWith
        { used := [rs1, rs2], sources := [rs1, rs2], fill1 := some rs1, fill2 := some rs2, dests := [rs2] }
      ex := fun t => t.formAddressInc rs2 (addw t.eLatch.rs2Value (immWord imm)) t.eLatch.rs2Value
      mem := CoreState.storeWord
      wb := fun t => (t.commitTo rs2 t.wLatch.newResultBuffer).retire } s

end Sys2Proof.Machine
end

