-- ==== Sys2Proof/Machine/System.lean ====
section
/-!
DEFINITION. No-op and halt (44_system.md).
-/

namespace Sys2Proof.Machine

variable {xlen : Nat}

/-- NOP: Decode drops it, with no check of any kind; it never reaches Execute (44_system.md R152; 40_pipeline.md R106). -/
def execNop (s : State) : Result := runSteps { dec := CoreState.dropDecode } s

/-- HALT: Fetch stops when it delivers it (40_pipeline.md R113); Writeback retires it, sets `Halted` and counts the tick,
which ends there (44_system.md R153, R154; 40_pipeline.md R87). -/
def execHalt (s : State) : Result :=
  runSteps
    { fetch := fun t => t.deliver.stopFetch
      dec := CoreState.decodeWith { used := [], sources := [], fill1 := none, fill2 := none, dests := [] }
      wb := fun t => t.retire.halt.countTick } s

end Sys2Proof.Machine
end

