-- ==== Sys2Proof/Machine/Pipeline.lean ====
section
/-!
DEFINITION. The stage engine: the five stages, the end of the tick, the tick (40_pipeline.md R75) and the clock edge (R76).
-/

namespace Sys2Proof.Machine

variable {xlen : Nat}

/-- The step of a stage on the instruction in its latch: the stage's part of that instruction's meaning. For an opcode
that is no instruction, or one the stage's rule does not list, `pass` (log 10: no run brings one past Decode). -/
def stageWork (l : Latch xlen) (pass : CoreState xlen → CoreState xlen) (s : CoreState xlen) : Result :=
  if l.hasInsn then
    match l.instr with
    | some i => exec i ⟨_, s⟩
    | none => .next ⟨_, pass s⟩
  else .next ⟨_, s⟩

/-- writeback_stage (40_pipeline.md R84). -/
def writebackStage (s : CoreState xlen) : Result := stageWork s.wLatch CoreState.retire s

/-- memory_stage (40_pipeline.md R88). -/
def memoryStage (s : CoreState xlen) : Result := stageWork s.mLatch (fun t => t.sendToWriteback t.mLatch) s

/-- execute_stage (40_pipeline.md R89). -/
def executeStage (s : CoreState xlen) : Result := stageWork s.eLatch (fun t => t.sendToMemory t.eLatch) s

/-- decode_stage (40_pipeline.md R100): an illegal opcode raises `IllegalInstruction` (60_exceptions.md R161). -/
def decodeStage (s : CoreState xlen) : Result :=
  stageWork s.dLatch (fun t => t.raiseFault .illegalInstruction .dec t.dLatch.pc) s

/-- Delivery of the record just loaded into `F`: the Fetch part of the instruction's meaning (40_pipeline.md R109); a record
with an illegal opcode is delivered like any other (30_encoding.md R67). -/
def deliverStage (s : CoreState xlen) : Result :=
  match s.fLatch.instr with
  | some i => exec i ⟨_, s⟩
  | none => .next ⟨_, s.deliver⟩

/-- fetch_unit (40_pipeline.md R109): STOPPED, BUBBLE, HOLD, fault, EXHAUSTED idle, or FETCH (R97). -/
def fetchUnit (s : CoreState xlen) : Result :=
  if !s.fLatch.hasInsn then .next ⟨_, s⟩
  else if s.signals.redirect then .next ⟨_, s⟩
  else if s.signals.stall then
    match s.fetchClass with
    | .index k => .next ⟨_, s.holdRecord (s.codeRecord k)⟩
    | .fault => .next ⟨_, s⟩
    | .exhausted => .next ⟨_, s⟩
  else
    match s.fetchClass with
    | .fault => .next ⟨_, s.raiseFault .fetchAddressFault .fetch s.pc⟩
    | .exhausted => .next ⟨_, s⟩
    | .index k => deliverStage (s.fetchRecord (s.codeRecord k))

/-- No instruction is in flight: `D.has_insn = E.has_insn = M.has_insn = W.has_insn = 0` (40_pipeline.md R117). -/
def CoreState.drained (s : CoreState xlen) : Bool :=
  !s.dLatch.hasInsn && !s.eLatch.hasInsn && !s.mLatch.hasInsn && !s.wLatch.hasInsn

/-- Fetch can never deliver: it is stopped, or `PC` is past the code (40_pipeline.md R117). -/
def CoreState.cannotFetch (s : CoreState xlen) : Bool := !s.fLatch.hasInsn || decide (s.fetchClass = .exhausted)

/-- end_of_tick: the clock, then the exhaustion check (40_pipeline.md R116, R117). -/
def endOfTick (s : CoreState xlen) : Result :=
  if s.drained && s.cannotFetch then .next ⟨_, s.countTick.exhaust⟩ else .next ⟨_, s.countTick⟩

/-- The next step of the tick, unless the tick stopped: a fault or a committed HALT stops it, and the remaining steps do
not run (40_pipeline.md R75, R87; 60_exceptions.md R156). -/
def andThen (r : Result) (k : ∀ {xlen : Nat}, CoreState xlen → Result) : Result :=
  match r with
  | .next s => if s.core.status = .running then k s.core else .next s
  | .fault f => .fault f
  | .refused f => .refused f

/-- The tick up to Writeback (40_pipeline.md R75, step 1). -/
def afterWriteback (s : CoreState xlen) : Result := writebackStage (s.restSignals.atStage .wb)

/-- The tick up to Memory (step 2). -/
def afterMemory (s : CoreState xlen) : Result := andThen (afterWriteback s) fun t => memoryStage (t.atStage .mem)

/-- The tick up to Execute (step 3). -/
def afterExecute (s : CoreState xlen) : Result := andThen (afterMemory s) fun t => executeStage (t.atStage .ex)

/-- The tick up to Decode (step 4). -/
def afterDecode (s : CoreState xlen) : Result := andThen (afterExecute s) fun t => decodeStage (t.atStage .dec)

/-- The tick up to Fetch (step 5). -/
def afterFetch (s : CoreState xlen) : Result := andThen (afterDecode s) fun t => fetchUnit (t.atStage .fetch)

/-- The signals end with the tick (40_pipeline.md R75, R95, R107; log 7). -/
def restAfter (r : Result) : Result :=
  match r with
  | .next s => .next ⟨_, s.core.restSignals⟩
  | .fault f => .fault f
  | .refused f => .refused f

/-- One tick (40_pipeline.md R75). In a terminal status it leaves every field unchanged (R75; 10_state.md R34). -/
def tick (s : CoreState xlen) : Result :=
  if s.status = .running then restAfter (andThen (afterFetch s) endOfTick) else .next ⟨_, s⟩

/-- One rising edge of `clk` (40_pipeline.md R76): a reset with `rst = 1`, whatever `tick_en` and the status hold
(70_reset_and_hazards.md R178); nothing with `tick_en = 0` (60_exceptions.md R173); else a tick. -/
def clockEdge (s : CoreState xlen) : Result :=
  if s.inputs.rst then .next ⟨_, CoreState.resetWith s.inputs⟩
  else if s.inputs.tickEn then tick s
  else .next ⟨_, s⟩

/-- The clock edge of a valid core; a configuration that breaks the constraints of 00_scope.md R9 is refused
(60_exceptions.md R177). -/
def validEdge (s : CoreState xlen) : Result :=
  if s.inputs.cfg.valid s.inputs.code.length then clockEdge s else .refused .invalidConfiguration

/-- The loader's work for one record (log 6): the record `w` where Fetch reads next, with Fetch enabled and nothing in
flight that could hold, redirect or stop it. If `PC` addresses no record, the program is `w` alone, at `CODE_BASE`. -/
def CoreState.placeRecord (s : CoreState xlen) (w : RecordWord) : CoreState xlen :=
  let t := { s with
    fLatch := s.fLatch.filled
    dLatch := s.dLatch.emptied
    eLatch := s.eLatch.emptied
    mLatch := s.mLatch.emptied
    wLatch := s.wLatch.emptied
    status := .running }
  match s.fetchClass with
  | .index k => { t with inputs := { s.inputs with code := s.inputs.code.set k w, rst := false, tickEn := true } }
  | .fault => { t with
      pc := BitVec.ofNat xlen s.inputs.cfg.codeBase
      inputs := { s.inputs with code := [w], rst := false, tickEn := true } }
  | .exhausted => { t with
      pc := BitVec.ofNat xlen s.inputs.cfg.codeBase
      inputs := { s.inputs with code := [w], rst := false, tickEn := true } }

end Sys2Proof.Machine
end

