-- ==== Sys2Proof/Machine/Step.lean ====
section
/-!
DEFINITION. One step of the machine is one clock edge (40_pipeline.md R76): with `rst = 0` and `tick_en = 1`, one tick.
-/

namespace Sys2Proof.Machine

/-- One rising edge of the clock (40_pipeline.md R75, R76). -/
def step (s : State) : Host.Outcome State Fault Refusal := validEdge s.core

/-- The state in which the next step fetches the record whose bits are `w` (log 6). -/
def State.withFetchWord (s : State) (nbits w : Nat) : State :=
  ⟨s.xlen, s.core.placeRecord (tableWord nbits w)⟩

end Sys2Proof.Machine
end

