-- ==== Sys2Proof/Machine/Ports.lean ====
section
/-!
DEFINITION. What the outside sees of the core: the ports of 40_pipeline.md R119 and the read accessors of 60_exceptions.md
R171, R172, all functions of the state without side effects, and the two signals of one tick.
-/

namespace Sys2Proof.Machine

variable {xlen : Nat}

/-- The inputs are those of a valid core (00_scope.md R9). -/
abbrev CoreState.validCore (s : CoreState xlen) : Prop := s.inputs.cfg.valid s.inputs.code.length = true

/-- The next clock edge is a tick: a valid core, `rst = 0`, `tick_en = 1`, `status = Running` (40_pipeline.md R75, R76). -/
abbrev CoreState.ticking (s : CoreState xlen) : Prop :=
  s.validCore ∧ s.inputs.rst = false ∧ s.inputs.tickEn = true ∧ s.status = .running

/-- `dbg_regs`: the register file `R[0..NUM_REGS-1]` (60_exceptions.md R171). -/
def dbgRegs (s : CoreState xlen) : List (Word xlen) := s.regs.toList.take s.inputs.cfg.numRegs

/-- `dbg_dmem_data`: `DM[dbg_dmem_addr]`; for an address that names no word, the free value (40_pipeline.md R119; log 11). -/
def dbgDmemData (s : CoreState xlen) : Word xlen :=
  if s.inputs.dbgDmemAddr.toNat < s.inputs.cfg.dmemSize then Memory.read s.dmem s.inputs.dbgDmemAddr.toNat
  else Config.dbgDmemOutside s.inputs.cfg s.inputs.dbgDmemAddr

/-- `dbg_pc` -/
def dbgPc (s : CoreState xlen) : Word xlen := s.pc

/-- `dbg_clock`, 64 bits (40_pipeline.md R119; log 15). -/
def dbgClock (s : CoreState xlen) : BitVec 64 := BitVec.ofNat 64 s.clock

/-- `dbg_retired`, 64 bits (40_pipeline.md R119; log 15). -/
def dbgRetired (s : CoreState xlen) : BitVec 64 := BitVec.ofNat 64 s.retired

/-- `dbg_flags`: `{Z, P}`, `Z` the high bit (40_pipeline.md R119; 00_scope.md R11). -/
def dbgFlags (s : CoreState xlen) : BitVec 2 := BitVec.ofBool s.zeroFlag ++ BitVec.ofBool s.positiveFlag

/-- The snapshot of one latch (60_exceptions.md R172). -/
structure StageSnapshot (xlen : Nat) where
  hasInsn : Bool
  opcode : Opcode
  rd : RegIndex
  rs1 : RegIndex
  rs2 : RegIndex
  imm : Imm
  pc : Word xlen
  deriving DecidableEq, Repr

/-- The snapshot of a latch; of an empty one the other fields mean nothing (60_exceptions.md R172). -/
def snapshotOf (l : Latch xlen) : StageSnapshot xlen :=
  { hasInsn := l.hasInsn, opcode := l.opcode, rd := l.rd, rs1 := l.rs1, rs2 := l.rs2, imm := l.imm, pc := l.pc }

/-- `dbg_stage[F,D,E,M,W]` (40_pipeline.md R119). -/
def dbgStage (s : CoreState xlen) : List (StageSnapshot xlen) :=
  [snapshotOf s.fLatch, snapshotOf s.dLatch, snapshotOf s.eLatch, snapshotOf s.mLatch, snapshotOf s.wLatch]

/-- `finished`: `status != Running` (60_exceptions.md R171). -/
def finished (s : CoreState xlen) : Bool := decide (s.status ≠ .running)

/-- `status_code`: 0 Running, 1 Halted, 2 Exhausted, 3 Faulted (40_pipeline.md R119). -/
def statusCode (s : CoreState xlen) : BitVec 2 :=
  match s.status with
  | .running => 0
  | .halted => 1
  | .exhausted => 2
  | .faulted _ _ _ => 3

/-- The number of a fault code (60_exceptions.md R157). -/
def faultCodeNumber (code : FaultCode) : BitVec 3 :=
  match code with
  | .dataAddressOutOfRange => 1
  | .registerIndexOutOfRange => 2
  | .divideByZero => 3
  | .illegalInstruction => 4
  | .fetchAddressFault => 5

/-- The number of a fault stage: 1 FETCH, 2 DEC, 3 EX, 4 MEM (60_exceptions.md R157). -/
def faultStageNumber (stage : FaultStage) : BitVec 3 :=
  match stage with
  | .fetch => 1
  | .dec => 2
  | .ex => 3
  | .mem => 4

/-- `fault_code`; 0 when not faulted (40_pipeline.md R119). -/
def faultCode (s : CoreState xlen) : BitVec 3 :=
  match s.status with
  | .running => 0
  | .halted => 0
  | .exhausted => 0
  | .faulted code _ _ => faultCodeNumber code

/-- `fault_stage`; 0 when not faulted (40_pipeline.md R119). -/
def faultStage (s : CoreState xlen) : BitVec 3 :=
  match s.status with
  | .running => 0
  | .halted => 0
  | .exhausted => 0
  | .faulted _ stage _ => faultStageNumber stage

/-- `fault_pc`; 0 when not faulted (40_pipeline.md R119). -/
def faultPc (s : CoreState xlen) : Word xlen :=
  match s.status with
  | .running => 0
  | .halted => 0
  | .exhausted => 0
  | .faulted _ _ pc => pc

/-- The signal `stall` of the tick that starts in `s` (40_pipeline.md R107). -/
def stallSignal (s : CoreState xlen) : Bool :=
  match afterDecode s with
  | .next t => t.core.signals.stall
  | .fault _ => false
  | .refused _ => false

/-- The signal `redirect` of the tick that starts in `s` (40_pipeline.md R95). -/
def redirectSignal (s : CoreState xlen) : Bool :=
  match afterExecute s with
  | .next t => t.core.signals.redirect
  | .fault _ => false
  | .refused _ => false

/-- `code_index`: the index Fetch reads in the tick that starts in `s`, in FETCH and in HOLD mode; none when it reads no
record (40_pipeline.md R109, R119; log 14). -/
def codeIndex (s : CoreState xlen) : Option Nat :=
  match afterDecode s with
  | .next t =>
    if s.ticking ∧ t.core.status = .running ∧ t.core.fLatch.hasInsn = true ∧ t.core.signals.redirect = false then
      match t.core.fetchClass with
      | .index k => some k
      | .fault => none
      | .exhausted => none
    else none
  | .fault _ => none
  | .refused _ => none

/-- `code_word`: the record word at `code_index` (40_pipeline.md R119). -/
def codeWord (s : CoreState xlen) : Option RecordWord := (codeIndex s).map s.codeRecord

end Sys2Proof.Machine
end

