-- ==== Sys2Proof/Safety.lean ====
section
/-!
DEFINITION. The terms claims use: when the next step is a tick, what a state between ticks is (the invariant), an
instruction's passage through its stages, and what an instruction leaves unchanged.
-/

namespace Sys2Proof.Machine

variable {xlen : Nat}

/-- `k` steps of the machine. -/
abbrev run (k : Nat) (s : State) : Result := Sys2Proof.core.run k s

/-! ## The invariant of the states between ticks -/

/-- The data memory is in canonical form and lists no index at or above `DMEM_SIZE` (20_memory.md R42). -/
def CoreState.MemoryOk (s : CoreState xlen) : Prop :=
  Memory.wf s.dmem = true ∧ ∀ c ∈ s.dmem, c.1 < s.inputs.cfg.dmemSize

/-- `Z` and `P` are never both 1 (41_alu.md R127). -/
def CoreState.FlagsExclusive (s : CoreState xlen) : Prop := ¬(s.zeroFlag = true ∧ s.positiveFlag = true)

/-- Registers that do not exist keep the reset value in every bank (10_state.md R19; log 4). -/
def CoreState.AbsentUntouched (s : CoreState xlen) : Prop :=
  ∀ r : RegIndex, s.inputs.cfg.hasReg r = false →
    Bank.get s.regs r = 0 ∧ Bank.get s.sb r = false ∧ Bank.get s.bv r = false ∧ Bank.get s.byp r = 0

/-- A latch past Decode is empty, or holds an instruction that is no NOP and whose registers exist (40_pipeline.md R100,
R106). -/
def Latch.PastDecode (cfg : Config) (l : Latch xlen) : Prop :=
  l.hasInsn = true → ∃ i, l.instr = some i ∧ i ≠ .nop ∧ i.wellFormed cfg = true

/-- A latch is empty, or holds the code record at its own `pc` (10_state.md R25; 40_pipeline.md R110). -/
def CoreState.FromCode (s : CoreState xlen) (l : Latch xlen) : Prop :=
  l.hasInsn = true → ∃ k, fetchClassOf s.inputs.cfg s.inputs.code.length l.pc = .index k ∧
    l.opcode = opcodeField (s.codeRecord k) ∧ l.rd = rdField (s.codeRecord k) ∧ l.rs1 = rs1Field (s.codeRecord k) ∧
    l.rs2 = rs2Field (s.codeRecord k) ∧ l.imm = immField (s.codeRecord k)

/-- The latch holds a live HALT. -/
def Latch.HoldsHalt (l : Latch xlen) : Prop := l.hasInsn = true ∧ l.instr = some .halt

/-- While Running, `F.has_insn = 0` exactly when a delivered HALT is in D, E, M or W, and it is the youngest live
instruction (40_pipeline.md R122). -/
def CoreState.HaltYoungest (s : CoreState xlen) : Prop :=
  s.status = .running →
    (s.fLatch.hasInsn = false ↔
      s.dLatch.HoldsHalt ∨ s.eLatch.HoldsHalt ∨ s.mLatch.HoldsHalt ∨ s.wLatch.HoldsHalt) ∧
    (s.eLatch.HoldsHalt → s.dLatch.hasInsn = false) ∧
    (s.mLatch.HoldsHalt → s.dLatch.hasInsn = false ∧ s.eLatch.hasInsn = false) ∧
    (s.wLatch.HoldsHalt → s.dLatch.hasInsn = false ∧ s.eLatch.hasInsn = false ∧ s.mLatch.hasInsn = false)

/-- The live instruction of the latch has `r` as a destination. -/
def Latch.Writes (l : Latch xlen) (r : RegIndex) : Prop := l.hasInsn = true ∧ ∃ i, l.instr = some i ∧ r ∈ destsOf i

/-- A register that is marked pending is a destination of a live instruction in E, M or W: "an outstanding,
not-yet-committed write" (00_scope.md R16; 40_pipeline.md R123). -/
def CoreState.ScoreboardSound (s : CoreState xlen) : Prop :=
  ∀ r : RegIndex, Bank.get s.sb r = true → s.eLatch.Writes r ∨ s.mLatch.Writes r ∨ s.wLatch.Writes r

/-- The instructions that access data memory (20_memory.md R47). -/
def isMemoryInstr : Instr → Bool
  | .load _ _ _ => true
  | .store _ _ _ => true
  | .ldi _ _ _ => true
  | .sti _ _ _ => true
  | .add _ _ _ => false
  | .sub _ _ _ => false
  | .mul _ _ _ => false
  | .div _ _ _ => false
  | .and _ _ _ => false
  | .or _ _ _ => false
  | .xor _ _ _ => false
  | .movc _ _ => false
  | .bz _ => false
  | .bnz _ => false
  | .halt => false
  | .addl _ _ _ => false
  | .subl _ _ _ => false
  | .cmp _ _ => false
  | .bp _ => false
  | .bnp _ => false
  | .jump _ _ => false
  | .nop => false

/-- The status tells the truth about the frozen state: a fault record names the stage that faulted and the pc of the
instruction still in that stage's latch, with the fault's cause (60_exceptions.md R156 to R162); after HALT or at
exhaustion nothing is in flight (40_pipeline.md R87, R117). -/
def CoreState.StatusTrue (s : CoreState xlen) : Prop :=
  match s.status with
  | .running => True
  | .halted => s.drained = true ∧ s.fLatch.hasInsn = false
  | .exhausted => s.drained = true ∧ s.cannotFetch = true
  | .faulted .dataAddressOutOfRange .mem pc =>
    pc = s.mLatch.pc ∧ s.mLatch.hasInsn = true ∧ (∃ i, s.mLatch.instr = some i ∧ isMemoryInstr i = true) ∧
      s.validAddress s.mLatch.memoryAddress = false
  | .faulted .registerIndexOutOfRange .dec pc =>
    pc = s.dLatch.pc ∧ s.dLatch.hasInsn = true ∧ ∃ i, s.dLatch.instr = some i ∧ i.wellFormed s.inputs.cfg = false
  | .faulted .divideByZero .ex pc =>
    pc = s.eLatch.pc ∧ s.eLatch.hasInsn = true ∧ (∃ rd rs1 rs2, s.eLatch.instr = some (.div rd rs1 rs2)) ∧
      s.eLatch.rs2Value = 0
  | .faulted .illegalInstruction .dec pc => pc = s.dLatch.pc ∧ s.dLatch.hasInsn = true ∧ s.dLatch.instr = none
  | .faulted .fetchAddressFault .fetch pc => pc = s.pc ∧ s.fLatch.hasInsn = true ∧ s.fetchClass = .fault
  | .faulted _ _ _ => False

/-- What every state between ticks has. -/
structure CoreState.Inv (s : CoreState xlen) : Prop where
  signals_rest : s.signals = Signals.rest
  memory : s.MemoryOk
  flags : s.FlagsExclusive
  absent : s.AbsentUntouched
  past_decode_e : s.eLatch.PastDecode s.inputs.cfg
  past_decode_m : s.mLatch.PastDecode s.inputs.cfg
  past_decode_w : s.wLatch.PastDecode s.inputs.cfg
  from_code_d : s.FromCode s.dLatch
  from_code_e : s.FromCode s.eLatch
  from_code_m : s.FromCode s.mLatch
  from_code_w : s.FromCode s.wLatch
  halt_youngest : s.HaltYoungest
  scoreboard : s.ScoreboardSound
  status_true : s.StatusTrue

/-- A run that is safe so far: no fatal fault has stopped the core (60_exceptions.md R156). -/
def CoreState.NotFaulted (s : CoreState xlen) : Prop := ∀ code stage pc, s.status ≠ .faulted code stage pc

/-- Words hold the code's addresses: that of every record, and the one past the last, is not negative as a signed word. With
words of 32 bits the constraints of 00_scope.md R9 say so; they do not speak of narrower words (log 1). -/
abbrev Inputs.AddressesFit (inputs : Inputs xlen) : Prop :=
  inputs.cfg.codeBase + inputs.cfg.insnWidth * inputs.code.length < 2 ^ (xlen - 1)

/-! ## An instruction's passage through its stages -/

/-- The four steps of one instruction after its delivery, with no other instruction's step between: Decode in `s`, then
Execute, Memory and Writeback, each on the state the one before it left (40_pipeline.md R75, R124). -/
def Passage (i : Instr) (s s1 s2 s3 s4 : CoreState xlen) : Prop :=
  exec i ⟨_, s.atStage .dec⟩ = .next ⟨_, s1⟩ ∧ exec i ⟨_, s1.atStage .ex⟩ = .next ⟨_, s2⟩ ∧
  exec i ⟨_, s2.atStage .mem⟩ = .next ⟨_, s3⟩ ∧ exec i ⟨_, s3.atStage .wb⟩ = .next ⟨_, s4⟩

/-- The valid bit a bypass entry is left with once the write of its register has committed (40_pipeline.md R85). -/
def validAfterCommit (e : BypassExpiry) (b : Bool) : Bool :=
  match e with
  | .persistent => b
  | .clearAtCommit => false

/-! ## What an instruction needs, and where its effect goes -/

/-- Decode can dispatch the instruction: the registers it uses exist and its checked sources are ready
(40_pipeline.md R100, R101). -/
abbrev CoreState.canDispatch (s : CoreState xlen) (i : Instr) : Prop :=
  i.wellFormed s.inputs.cfg = true ∧ (sourcesOf i).all s.ready = true

/-- The destination and the result of an instruction whose result Execute computes, from the latch that holds it
(column "Execute" of 40_pipeline.md R118); none for every other instruction, and for a DIV by 0. -/
def executeResult (i : Instr) (l : Latch xlen) : Option (RegIndex × Word xlen) :=
  match i with
  | .add rd _ _ => some (rd, addw l.rs1Value l.rs2Value)
  | .sub rd _ _ => some (rd, subw l.rs1Value l.rs2Value)
  | .mul rd _ _ => some (rd, mulw l.rs1Value l.rs2Value)
  | .div rd _ _ => if l.rs2Value = 0 then none else some (rd, divw l.rs1Value l.rs2Value)
  | .and rd _ _ => some (rd, andw l.rs1Value l.rs2Value)
  | .or rd _ _ => some (rd, orw l.rs1Value l.rs2Value)
  | .xor rd _ _ => some (rd, xorw l.rs1Value l.rs2Value)
  | .addl rd _ imm => some (rd, addw l.rs1Value (immWord imm))
  | .subl rd _ imm => some (rd, subw l.rs1Value (immWord imm))
  | .movc rd imm => some (rd, immWord imm)
  | .load _ _ _ => none
  | .store _ _ _ => none
  | .bz _ => none
  | .bnz _ => none
  | .halt => none
  | .cmp _ _ => none
  | .bp _ => none
  | .bnp _ => none
  | .jump _ _ => none
  | .ldi _ _ _ => none
  | .sti _ _ _ => none
  | .nop => none

/-- The Execute-produced value of an instruction and the register it is for (40_pipeline.md R90): the result, or for LDI and
STI the incremented base. -/
def executeProduces (cfg : Config) (i : Instr) (l : Latch xlen) : Option (RegIndex × Word xlen) :=
  match i with
  | .ldi _ rs1 _ => some (rs1, addw l.rs1Value (wrap cfg.inc))
  | .sti _ rs2 _ => some (rs2, addw l.rs2Value (wrap cfg.inc))
  | i => executeResult i l

/-- The instructions that write both flags (10_state.md R29). -/
def writesFlags : Instr → Bool
  | .add _ _ _ => true
  | .sub _ _ _ => true
  | .mul _ _ _ => true
  | .div _ _ _ => true
  | .addl _ _ _ => true
  | .subl _ _ _ => true
  | .cmp _ _ => true
  | .and _ _ _ => false
  | .or _ _ _ => false
  | .xor _ _ _ => false
  | .movc _ _ => false
  | .load _ _ _ => false
  | .store _ _ _ => false
  | .bz _ => false
  | .bnz _ => false
  | .halt => false
  | .bp _ => false
  | .bnp _ => false
  | .jump _ _ => false
  | .ldi _ _ _ => false
  | .sti _ _ _ => false
  | .nop => false

/-- The target of the instruction in Execute when it is a taken branch or jump; none otherwise (40_pipeline.md R92,
R93). -/
def takenTarget (s : CoreState xlen) (i : Instr) (l : Latch xlen) : Option (Word xlen) :=
  match i with
  | .bz imm => if s.zeroFlag then some (addw l.pc (immWord imm)) else none
  | .bnz imm => if s.zeroFlag then none else some (addw l.pc (immWord imm))
  | .bp imm => if s.positiveFlag then some (addw l.pc (immWord imm)) else none
  | .bnp imm => if s.positiveFlag then none else some (addw l.pc (immWord imm))
  | .jump _ imm => some (addw l.rs1Value (immWord imm))
  | .add _ _ _ => none
  | .sub _ _ _ => none
  | .mul _ _ _ => none
  | .div _ _ _ => none
  | .and _ _ _ => none
  | .or _ _ _ => none
  | .xor _ _ _ => none
  | .movc _ _ => none
  | .load _ _ _ => none
  | .store _ _ _ => none
  | .halt => none
  | .addl _ _ _ => none
  | .subl _ _ _ => none
  | .cmp _ _ => none
  | .ldi _ _ _ => none
  | .sti _ _ _ => none
  | .nop => none

/-- Writeback does not end the tick: it commits no HALT (40_pipeline.md R87). -/
def CoreState.NoHaltCommit (s : CoreState xlen) : Prop := ¬s.wLatch.HoldsHalt

/-- Memory does not end the tick: the access it makes, if any, is at a valid address (60_exceptions.md R158). -/
def CoreState.NoMemoryFault (s : CoreState xlen) : Prop :=
  s.mLatch.hasInsn = true → (∃ i, s.mLatch.instr = some i ∧ isMemoryInstr i = true) →
    s.validAddress s.mLatch.memoryAddress = true

/-- Execute neither faults nor redirects: what `E` holds, if anything, is no DIV by 0 and no taken branch or jump
(40_pipeline.md R91, R94). -/
def CoreState.ExecuteGoesOn (s : CoreState xlen) : Prop :=
  s.eLatch.hasInsn = true → ∀ i, s.eLatch.instr = some i → takenTarget s i s.eLatch = none ∧
    ∀ rd rs1 rs2, i = .div rd rs1 rs2 → s.eLatch.rs2Value ≠ 0

/-- The state in which record `k` has just been delivered to Decode (40_pipeline.md R109, R110). -/
def CoreState.delivered (s : CoreState xlen) (k : Nat) : CoreState xlen := (s.fetchRecord (s.codeRecord k)).deliver

/-! ## Frames -/

/-- Every register but those listed is unchanged, with its scoreboard bit and bypass entry. -/
structure KeepsRegsBut (rs : List RegIndex) (s t : CoreState xlen) : Prop where
  regs : ∀ r, r ∉ rs → Bank.get t.regs r = Bank.get s.regs r
  sb : ∀ r, r ∉ rs → Bank.get t.sb r = Bank.get s.sb r
  bv : ∀ r, r ∉ rs → Bank.get t.bv r = Bank.get s.bv r
  byp : ∀ r, r ∉ rs → Bank.get t.byp r = Bank.get s.byp r

/-- Both flags are unchanged. -/
def KeepsFlags (s t : CoreState xlen) : Prop := t.zeroFlag = s.zeroFlag ∧ t.positiveFlag = s.positiveFlag

/-- Every data-memory word is unchanged. -/
def KeepsMemory (s t : CoreState xlen) : Prop := ∀ a, Memory.read t.dmem a = Memory.read s.dmem a

/-- Every data-memory word but the one at `a` is unchanged. -/
def KeepsMemoryBut (a : Nat) (s t : CoreState xlen) : Prop := ∀ b, b ≠ a → Memory.read t.dmem b = Memory.read s.dmem b

/-- The program counter and the Fetch latch are unchanged. -/
def KeepsFetch (s t : CoreState xlen) : Prop := t.pc = s.pc ∧ t.fLatch = s.fLatch

/-- The clock, the status and the inputs are unchanged. -/
def KeepsRun (s t : CoreState xlen) : Prop := t.clock = s.clock ∧ t.status = s.status ∧ t.inputs = s.inputs

end Sys2Proof.Machine
end

