-- ==== Sys2Proof/Certificates/Slice0/Obligations.lean ====
section
/-!
DEFINITION. The statements for the provers. A passage statement runs the four stage steps of one instruction in the order
of the tick (`Passage`); a tick statement is about `step`. Frames are those of Safety.lean. Each statement is for every
`XLEN`, of which 32 is the spec's own reading of its word rules and every other the model's (log 1).
-/

open Sys2Proof Sys2Proof.Machine

namespace Sys2Proof.Claims

variable {xlen : Nat}

/-- What the passage of an instruction leaves that commits the Execute-produced value `v` to `rd` and does nothing else to
the machine, the flags aside (40_pipeline.md R85, R90). -/
structure CommittedResult (rd : RegIndex) (v : Word xlen) (s t : CoreState xlen) : Prop where
  reg : Bank.get t.regs rd = v
  pending : Bank.get t.sb rd = false
  bypass : Bank.get t.byp rd = v
  valid : Bank.get t.bv rd = validAfterCommit s.inputs.cfg.bypassExpiry true
  others : KeepsRegsBut [rd] s t
  memory : KeepsMemory s t
  fetch : KeepsFetch s t
  run : KeepsRun s t
  retired : t.retired = s.retired + 1
  drained : t.drained = true

/-- What the passage of an instruction leaves that writes no register and no memory word and is retired. -/
structure CommittedNothing (s t : CoreState xlen) : Prop where
  others : KeepsRegsBut [] s t
  memory : KeepsMemory s t
  run : KeepsRun s t
  retired : t.retired = s.retired + 1
  drained : t.drained = true

/-- The instruction `i` passes through its stages from `s`, and commits `v` to `rd` with both flags from `v`. -/
def PassesWithFlags (i : Instr) (rd : RegIndex) (v : Word xlen) (s : CoreState xlen) : Prop :=
  ∃ s1 s2 s3 s4, Passage i s s1 s2 s3 s4 ∧ CommittedResult rd v s s4 ∧
    s4.zeroFlag = zeroOf v ∧ s4.positiveFlag = positiveOf v

/-- The instruction `i` passes through its stages from `s`, and commits `v` to `rd` with the flags unchanged. -/
def PassesKeepingFlags (i : Instr) (rd : RegIndex) (v : Word xlen) (s : CoreState xlen) : Prop :=
  ∃ s1 s2 s3 s4, Passage i s s1 s2 s3 s4 ∧ CommittedResult rd v s s4 ∧ KeepsFlags s s4

/-- The conditional branch `i` passes through its stages from `s`: if `taken`, to `D.pc +w imm` with Fetch enabled, else
with `PC` and `F` unchanged; nothing else changes. -/
def PassesAsBranch (i : Instr) (taken : Bool) (imm : Imm) (s : CoreState xlen) : Prop :=
  ∃ s1 s2 s3 s4, Passage i s s1 s2 s3 s4 ∧ CommittedNothing s s4 ∧ KeepsFlags s s4 ∧
    (if taken then s4.pc = s.dLatch.pc + immWord imm ∧ s4.fLatch = s.fLatch.filled else KeepsFetch s s4)

/-- A latch with every field 0 but `has_insn`, written out (40_pipeline.md R80; 70_reset_and_hazards.md R178). -/
def zeroLatch (hasInsn : Bool) : Latch xlen where
  hasInsn := hasInsn
  opcode := 0
  rd := 0
  rs1 := 0
  rs2 := 0
  imm := 0
  pc := 0
  rs1Value := 0
  rs2Value := 0
  resultBuffer := 0
  newResultBuffer := 0
  memoryAddress := 0

/-- The tick from `s` ended in `t` with one fault reported, in the status and, numbered `n` and `m`, at the ports; Decode and
Fetch did nothing, and `clock` did not count (60_exceptions.md R156, R157; 40_pipeline.md R119). -/
structure FaultReported (code : FaultCode) (n : BitVec 3) (stage : FaultStage) (m : BitVec 3) (pc : Word xlen) (s t :
    CoreState xlen) :
    Prop where
  status : t.status = .faulted code stage pc
  codePort : faultCode t = n
  stagePort : faultStage t = m
  pcPort : faultPc t = pc
  done : finished t = true
  decode : t.dLatch = s.dLatch
  fetch : KeepsFetch s t
  clock : t.clock = s.clock

end Sys2Proof.Claims

open Sys2Proof.Claims

/-! ## Encoding -/

/-- Record words of 95_test_vectors.md section 2, one for each format and family, decode to the instructions they stand
for (30_encoding.md R61, R65), and the two illegal opcodes there are rejected by name (R67). -/
def Obligations.KnownRecordWordsDecode : Prop :=
  decode 0x0041080000000000 = .instr (.add 2 1 1) ∧ decode 0x3821000000000001 = .instr (.subl 1 1 1) ∧
  decode 0x1C20000000000005 = .instr (.movc 1 5) ∧ decode 0x3C01100000000000 = .instr (.cmp 1 2) ∧
  decode 0x4C64000000000000 = .instr (.ldi 3 4 0) ∧ decode 0x5003200000000000 = .instr (.sti 3 4 0) ∧
  decode 0x2C000000FFFFFFF8 = .instr (.bnz (-8)) ∧ decode 0x480400000000000C = .instr (.jump 4 12) ∧
  decode 0x33FFF800FFFFFFFF = .instr .halt ∧ decode 0x5400000000000000 = .instr .nop ∧
  decode 0x5800000000000000 = .illegalInstruction 0x16 ∧ decode 0xFC00000000000000 = .illegalInstruction 0x3F

/-- Decode and encode agree: every instruction, with every operand at every value, is read back from its record word
(30_encoding.md R59, R61, R62, R65). -/
def Obligations.DecodeReadsBackEncode : Prop := ∀ i : Instr, decode (encode i) = .instr i

/-- A record word that decodes to `i` is the encoding of `i` but for the bits `i`'s format does not use, which are ignored
(30_encoding.md R62, R66, R68); so two words that agree on the used bits decode alike. -/
def Obligations.IgnoredBitsChangeNothing : Prop :=
  ∀ (w : RecordWord) (i : Instr), decode w = .instr i →
    encode i = w &&& usedBits i ∧ ∀ w' : RecordWord, w' &&& usedBits i = w &&& usedBits i → decode w' = .instr i

/-- The illegal record words are exactly those whose opcode is 0x16 to 0x3F (30_encoding.md R65, R67). -/
def Obligations.IllegalOpcodesAreExactly : Prop :=
  ∀ w : RecordWord, decode w = .illegalInstruction (opcodeField w) ↔ 0x16 ≤ (opcodeField w).toNat

/-! ## Arithmetic and flags -/

/-- For every `XLEN` a word is an `XLEN`-bit two's-complement number: its signed value lies in `[-2^(XLEN-1), 2^(XLEN-1) - 1]`
and `wrap` gives the word whose unsigned value is the remainder modulo `2^XLEN`; so a sum, difference or product is exact
where the exact result lies in that range, and elsewhere a multiple of `2^XLEN` away from it (00_scope.md R9, R12, R13;
41_alu.md R125). That the spec's 31 and 32 stand for `XLEN - 1` and `XLEN` is the model's reading (log 1). -/
def Obligations.WordArithmeticWrapsAtXlen : Prop :=
  ∀ {xlen : Nat} (n : Int) (a b : Word (xlen + 1)), (((wrap n : Word (xlen + 1)).toNat : Int) = n % 2 ^ (xlen + 1)) ∧
    (-(2 ^ xlen) ≤ signed a ∧ signed a ≤ 2 ^ xlen - 1) ∧ wrap (signed a) = a ∧
    ∀ c ∈ [(addw a b, signed a + signed b), (subw a b, signed a - signed b), (mulw a b, signed a * signed b)],
      (-(2 ^ xlen) ≤ c.2 ∧ c.2 ≤ 2 ^ xlen - 1 → signed c.1 = c.2) ∧ ∃ m : Int, signed c.1 = c.2 + m * 2 ^ (xlen + 1)

/-- With words of 32 bits the immediate is used as it stands, for it is one word wide (30_encoding.md R61, R63); in wider
words it keeps its two's-complement value, and in narrower ones the low bits, which is the model's reading (log 1). -/
def Obligations.ImmediateIsTheWordOfItsValue : Prop :=
  (∀ imm : Imm, (immWord imm : Word 32) = imm) ∧
  (∀ {xlen : Nat} (imm : Imm), 32 ≤ xlen → signed (immWord imm : Word xlen) = imm.toInt) ∧
  ∀ {xlen : Nat} (imm : Imm) (i : Nat), i < xlen → xlen ≤ 32 → (immWord imm : Word xlen).getLsbD i = imm.getLsbD i

/-- `divw` truncates toward zero and wraps, and the one overflow case gives -2^31; a DIV by 0 faults before it divides
(41_alu.md R126). For an `XLEN` other than 32 that is the model's reading (log 1). -/
def Obligations.DivisionTruncatesTowardZero : Prop :=
  (∀ {xlen : Nat} (a b : Word xlen), b ≠ 0 → ∃ q : Int, q.natAbs = (signed a).natAbs / (signed b).natAbs ∧
    (q < 0 ↔ ((signed a < 0 ∧ 0 < signed b) ∨ (0 < signed a ∧ signed b < 0)) ∧ (signed b).natAbs ≤ (signed a).natAbs) ∧
    divw a b = wrap q) ∧
  divw (0x80000000 : Word 32) 0xFFFFFFFF = 0x80000000 ∧
  ∀ {xlen : Nat} (s : CoreState xlen) (rd rs1 rs2 : RegIndex), s.signals.stage = .ex → s.eLatch.rs2Value = 0 →
    exec (.div rd rs1 rs2) ⟨_, s⟩ = .next ⟨_, { s with status := .faulted .divideByZero .ex s.eLatch.pc }⟩

/-- ADD, SUB, MUL, DIV, ADDL, SUBL and CMP write both flags in Execute from one word `v`, the wrapped result, and for
CMP the wrapped difference: `Z <- (v = 0)`, `P <- (s32(v) > 0)`; never both 1, and both 0 when `v` is negative
(41_alu.md R127). For an `XLEN` other than 32 that is the model's reading (log 1). -/
def Obligations.FlagsComeFromOneWord : Prop :=
  ∀ {xlen : Nat} (s : CoreState xlen) (rd rs1 rs2 : RegIndex) (imm : Imm), s.signals.stage = .ex →
    ∀ c ∈ [(Instr.add rd rs1 rs2, s.eLatch.rs1Value + s.eLatch.rs2Value),
        (Instr.sub rd rs1 rs2, s.eLatch.rs1Value - s.eLatch.rs2Value),
        (Instr.mul rd rs1 rs2, s.eLatch.rs1Value * s.eLatch.rs2Value),
        (Instr.div rd rs1 rs2, divw s.eLatch.rs1Value s.eLatch.rs2Value),
        (Instr.addl rd rs1 imm, s.eLatch.rs1Value + immWord imm),
          (Instr.subl rd rs1 imm, s.eLatch.rs1Value - immWord imm),
        (Instr.cmp rs1 rs2, s.eLatch.rs1Value - s.eLatch.rs2Value)],
      (c.1 = .div rd rs1 rs2 → s.eLatch.rs2Value ≠ 0) →
      ∃ t : CoreState xlen, exec c.1 ⟨_, s⟩ = .next ⟨_, t⟩ ∧ (t.zeroFlag = true ↔ c.2 = 0) ∧
        (t.positiveFlag = true ↔ 0 < signed c.2) ∧
        ¬(t.zeroFlag = true ∧ t.positiveFlag = true) ∧
        (signed c.2 < 0 → t.zeroFlag = false ∧ t.positiveFlag = false)

/-! ## Each instruction's passage through its stages: result, completion and frame -/

/-- ADD, SUB and MUL complete: `rd` gets the wrapped sum, difference or product of the operands Decode reads, and both
flags come from it; no other register, memory word or counter changes, but `retired` (41_alu.md R128, R129, R130). -/
def Obligations.ArithmeticInstructionsComplete : Prop :=
  ∀ {xlen : Nat} (s : CoreState xlen) (rd rs1 rs2 : RegIndex),
    (s.canDispatch (.add rd rs1 rs2) → PassesWithFlags (.add rd rs1 rs2) rd (s.operand rs1 + s.operand rs2) s) ∧
    (s.canDispatch (.sub rd rs1 rs2) → PassesWithFlags (.sub rd rs1 rs2) rd (s.operand rs1 - s.operand rs2) s) ∧
    (s.canDispatch (.mul rd rs1 rs2) → PassesWithFlags (.mul rd rs1 rs2) rd (s.operand rs1 * s.operand rs2) s)

/-- DIV by a divisor that is not 0 completes: `rd` gets `divw` of the operands, and both flags come from it
(41_alu.md R126, R131). -/
def Obligations.DivisionCompletes : Prop :=
  ∀ {xlen : Nat} (s : CoreState xlen) (rd rs1 rs2 : RegIndex), s.canDispatch (.div rd rs1 rs2) → s.operand rs2 ≠ 0 →
    PassesWithFlags (.div rd rs1 rs2) rd (divw (s.operand rs1) (s.operand rs2)) s

/-- AND, OR and XOR complete: `rd` gets the bitwise result, and no flag is written (41_alu.md R132, R133, R134). -/
def Obligations.LogicalInstructionsComplete : Prop :=
  ∀ {xlen : Nat} (s : CoreState xlen) (rd rs1 rs2 : RegIndex),
    (s.canDispatch (.and rd rs1 rs2) → PassesKeepingFlags (.and rd rs1 rs2) rd (s.operand rs1 &&& s.operand rs2) s) ∧
    (s.canDispatch (.or rd rs1 rs2) → PassesKeepingFlags (.or rd rs1 rs2) rd (s.operand rs1 ||| s.operand rs2) s) ∧
    (s.canDispatch (.xor rd rs1 rs2) → PassesKeepingFlags (.xor rd rs1 rs2) rd (s.operand rs1 ^^^ s.operand rs2) s)

/-- ADDL and SUBL complete: `rd` gets the wrapped sum or difference of `rs1` and the immediate, and both flags come from
it (41_alu.md R135, R136). -/
def Obligations.ImmediateInstructionsComplete : Prop :=
  ∀ {xlen : Nat} (s : CoreState xlen) (rd rs1 : RegIndex) (imm : Imm),
    (s.canDispatch (.addl rd rs1 imm) → PassesWithFlags (.addl rd rs1 imm) rd (s.operand rs1 + immWord imm) s) ∧
    (s.canDispatch (.subl rd rs1 imm) → PassesWithFlags (.subl rd rs1 imm) rd (s.operand rs1 - immWord imm) s)

/-- MOVC completes whatever is pending: `rd` gets the immediate, and no flag is written (41_alu.md R137). -/
def Obligations.MoveImmediateCompletes : Prop :=
  ∀ {xlen : Nat} (s : CoreState xlen) (rd : RegIndex) (imm : Imm), s.inputs.cfg.hasReg rd = true →
    PassesKeepingFlags (.movc rd imm) rd (immWord imm) s

/-- CMP completes: both flags come from the wrapped difference; no register, scoreboard bit, bypass entry or memory word
changes, nor `PC` (41_alu.md R138). -/
def Obligations.CompareCompletes : Prop :=
  ∀ {xlen : Nat} (s : CoreState xlen) (rs1 rs2 : RegIndex), s.canDispatch (.cmp rs1 rs2) →
    ∃ s1 s2 s3 s4, Passage (.cmp rs1 rs2) s s1 s2 s3 s4 ∧ CommittedNothing s s4 ∧ KeepsFetch s s4 ∧
      s4.zeroFlag = zeroOf (s.operand rs1 - s.operand rs2) ∧
      s4.positiveFlag = positiveOf (s.operand rs1 - s.operand rs2)

/-- LOAD at a valid address completes: `rd` gets the word at `rs1 +w imm`; its bypass entry keeps its value, and stays
valid only under `persistent`; no flag and no memory word changes (42_loadstore.md R139, R141). -/
def Obligations.LoadCompletes : Prop :=
  ∀ {xlen : Nat} (s : CoreState xlen) (rd rs1 : RegIndex) (imm : Imm), s.canDispatch (.load rd rs1 imm) →
    s.validAddress (s.operand rs1 + immWord imm) = true →
    ∃ s1 s2 s3 s4, Passage (.load rd rs1 imm) s s1 s2 s3 s4 ∧
      Bank.get s4.regs rd = Memory.read s.dmem (signed (s.operand rs1 + immWord imm)).toNat ∧
      Bank.get s4.sb rd = false ∧
      Bank.get s4.byp rd = Bank.get s.byp rd ∧
      Bank.get s4.bv rd = validAfterCommit s.inputs.cfg.bypassExpiry (Bank.get s.bv rd) ∧
      KeepsRegsBut [rd] s s4 ∧ KeepsFlags s s4 ∧ KeepsMemory s s4 ∧ KeepsFetch s s4 ∧ KeepsRun s s4 ∧
      s4.retired = s.retired + 1 ∧ s4.drained = true

/-- LDI at a valid address completes: `rd` gets the word at `rs1 +w imm`, and `rs1` gets `base +w INC`, unless they are one
register, which keeps the loaded word; the bypass entry of `rs1` gets `base +w INC` in either case; no flag and no memory
word changes (42_loadstore.md R140, R142). -/
def Obligations.LoadIncrementCompletes : Prop :=
  ∀ {xlen : Nat} (s : CoreState xlen) (rd rs1 : RegIndex) (imm : Imm), s.canDispatch (.ldi rd rs1 imm) →
    s.validAddress (s.operand rs1 + immWord imm) = true →
    ∃ s1 s2 s3 s4, Passage (.ldi rd rs1 imm) s s1 s2 s3 s4 ∧
      Bank.get s4.regs rd = Memory.read s.dmem (signed (s.operand rs1 + immWord imm)).toNat ∧
      (rs1 ≠ rd → Bank.get s4.regs rs1 = s.operand rs1 + wrap s.inputs.cfg.inc) ∧
      Bank.get s4.sb rd = false ∧ Bank.get s4.sb rs1 = false ∧
      Bank.get s4.byp rs1 = s.operand rs1 + wrap s.inputs.cfg.inc ∧
      Bank.get s4.bv rs1 = validAfterCommit s.inputs.cfg.bypassExpiry true ∧
      (rs1 ≠ rd → Bank.get s4.byp rd = Bank.get s.byp rd ∧
        Bank.get s4.bv rd = validAfterCommit s.inputs.cfg.bypassExpiry (Bank.get s.bv rd)) ∧
      KeepsRegsBut [rd, rs1] s s4 ∧ KeepsFlags s s4 ∧ KeepsMemory s s4 ∧ KeepsFetch s s4 ∧ KeepsRun s s4 ∧
      s4.retired = s.retired + 1 ∧ s4.drained = true

/-- STORE at a valid address completes: the word at `rs2 +w imm` becomes the value of `rs1`; every other word, every
register and both flags are unchanged (42_loadstore.md R143). -/
def Obligations.StoreCompletes : Prop :=
  ∀ {xlen : Nat} (s : CoreState xlen) (rs1 rs2 : RegIndex) (imm : Imm), s.canDispatch (.store rs1 rs2 imm) →
    Memory.wf s.dmem = true →
    s.validAddress (s.operand rs2 + immWord imm) = true →
    ∃ s1 s2 s3 s4, Passage (.store rs1 rs2 imm) s s1 s2 s3 s4 ∧
      Memory.read s4.dmem (signed (s.operand rs2 + immWord imm)).toNat = s.operand rs1 ∧
      KeepsMemoryBut (signed (s.operand rs2 + immWord imm)).toNat s s4 ∧ KeepsRegsBut [] s s4 ∧ KeepsFlags s s4 ∧
      KeepsFetch s s4 ∧ KeepsRun s s4 ∧ s4.retired = s.retired + 1 ∧ s4.drained = true

/-- STI at a valid address completes: as STORE, and `rs2` gets `base +w INC`, in the register file and in the bypass table
(42_loadstore.md R140, R144). -/
def Obligations.StoreIncrementCompletes : Prop :=
  ∀ {xlen : Nat} (s : CoreState xlen) (rs1 rs2 : RegIndex) (imm : Imm), s.canDispatch (.sti rs1 rs2 imm) →
    Memory.wf s.dmem = true →
    s.validAddress (s.operand rs2 + immWord imm) = true →
    ∃ s1 s2 s3 s4, Passage (.sti rs1 rs2 imm) s s1 s2 s3 s4 ∧
      Memory.read s4.dmem (signed (s.operand rs2 + immWord imm)).toNat = s.operand rs1 ∧
      KeepsMemoryBut (signed (s.operand rs2 + immWord imm)).toNat s s4 ∧
      Bank.get s4.regs rs2 = s.operand rs2 + wrap s.inputs.cfg.inc ∧ Bank.get s4.sb rs2 = false ∧
      Bank.get s4.byp rs2 = s.operand rs2 + wrap s.inputs.cfg.inc ∧
      Bank.get s4.bv rs2 = validAfterCommit s.inputs.cfg.bypassExpiry true ∧
      KeepsRegsBut [rs2] s s4 ∧ KeepsFlags s s4 ∧ KeepsFetch s s4 ∧ KeepsRun s s4 ∧
      s4.retired = s.retired + 1 ∧ s4.drained = true

/-- BZ, BNZ, BP and BNP complete, taken or not, whatever is pending: taken on `Z = 1`, `Z = 0`, `P = 1`, `P = 0`, to the
branch's own address plus the immediate; they change no register, flag or memory word, and are retired either way
(43_control.md R145, R147 to R150; 40_pipeline.md R92, R93, R94). -/
def Obligations.ConditionalBranchesComplete : Prop :=
  ∀ {xlen : Nat} (s : CoreState xlen) (imm : Imm),
    PassesAsBranch (.bz imm) s.zeroFlag imm s ∧ PassesAsBranch (.bnz imm) (!s.zeroFlag) imm s ∧
    PassesAsBranch (.bp imm) s.positiveFlag imm s ∧ PassesAsBranch (.bnp imm) (!s.positiveFlag) imm s

/-- JUMP completes, whatever is pending: `PC` gets the value the bypass_multiplexer gives for `rs1` plus the immediate,
and Fetch is enabled; nothing else changes (43_control.md R151; 40_pipeline.md R105). For an `XLEN` other than 32 that
is the model's reading (log 1). -/
def Obligations.JumpCompletes : Prop :=
  ∀ {xlen : Nat} (s : CoreState xlen) (rs1 : RegIndex) (imm : Imm), s.inputs.cfg.hasReg rs1 = true →
    ∃ s1 s2 s3 s4, Passage (.jump rs1 imm) s s1 s2 s3 s4 ∧ CommittedNothing s s4 ∧ KeepsFlags s s4 ∧
      s4.pc = s.operand rs1 + immWord imm ∧ s4.fLatch = s.fLatch.filled

/-- HALT completes: it ends the run with `status = Halted`, counts the tick and itself, and changes nothing else
(44_system.md R153, R154). -/
def Obligations.HaltCompletes : Prop :=
  ∀ {xlen : Nat} (s : CoreState xlen), ∃ s1 s2 s3 s4, Passage .halt s s1 s2 s3 s4 ∧ s4.status = .halted ∧
    s4.clock = s.clock + 1 ∧
    s4.retired = s.retired + 1 ∧ s4.drained = true ∧ KeepsRegsBut [] s s4 ∧ KeepsFlags s s4 ∧ KeepsMemory s s4 ∧
    KeepsFetch s s4 ∧ s4.inputs = s.inputs

/-- NOP completes in Decode: it empties the Decode latch and changes nothing else: no register, no scoreboard bit, not
`retired`, and nothing goes to Execute, whatever registers its unused fields name (44_system.md R152; 40_pipeline.md
R106). -/
def Obligations.NopIsDroppedInDecode : Prop :=
  ∀ {xlen : Nat} (s : CoreState xlen), s.signals.stage = .dec →
    exec .nop ⟨_, s⟩ = .next ⟨_, { s with dLatch := { s.dLatch with hasInsn := false } }⟩

/-! ## Decode: dispatch, stall and fault -/

/-- An instruction that can dispatch does: its destinations and no other registers become pending, its source values are
the bypass entries where they are valid and the registers elsewhere, it moves to `E` live, and `D` becomes empty
(40_pipeline.md R99, R100, R101, R103). -/
def Obligations.DispatchMarksDestinations : Prop :=
  ∀ {xlen : Nat} (i : Instr) (s : CoreState xlen), i ≠ .nop → s.signals.stage = .dec → s.canDispatch i →
    ∃ t : CoreState xlen, exec i ⟨_, s⟩ = .next ⟨_, t⟩ ∧
      (∀ r, Bank.get t.sb r = true ↔ r ∈ destsOf i ∨ Bank.get s.sb r = true) ∧
      t.eLatch.hasInsn = true ∧ t.dLatch.hasInsn = false ∧ t.eLatch.pc = s.dLatch.pc ∧
      t.eLatch.instr = s.dLatch.instr ∧
      (∀ rd rs1 rs2 imm, i ∈ [Instr.add rd rs1 rs2, .sub rd rs1 rs2, .mul rd rs1 rs2, .div rd rs1 rs2, .and rd rs1 rs2,
          .or rd rs1 rs2, .xor rd rs1 rs2, .cmp rs1 rs2, .store rs1 rs2 imm, .sti rs1 rs2 imm] →
        t.eLatch.rs1Value = (if Bank.get s.bv rs1 = true then Bank.get s.byp rs1 else Bank.get s.regs rs1) ∧
        t.eLatch.rs2Value = (if Bank.get s.bv rs2 = true then Bank.get s.byp rs2 else Bank.get s.regs rs2)) ∧
      (∀ rd rs1 imm, i ∈ [Instr.addl rd rs1 imm, .subl rd rs1 imm, .load rd rs1 imm, .ldi rd rs1 imm, .jump rs1 imm] →
        t.eLatch.rs1Value = (if Bank.get s.bv rs1 = true then Bank.get s.byp rs1 else Bank.get s.regs rs1)) ∧
      t.regs = s.regs ∧ t.bv = s.bv ∧ t.byp = s.byp ∧ KeepsFlags s t ∧ KeepsMemory s t ∧ KeepsFetch s t ∧
      KeepsRun s t ∧ t.retired = s.retired ∧ t.mLatch = s.mLatch ∧ t.wLatch = s.wLatch

/-- MOVC, the conditional branches, JUMP and HALT dispatch in the tick they are decoded, whatever the scoreboard and the
bypass table hold (40_pipeline.md R104, R105). -/
def Obligations.HazardFreeInstructionsAlwaysDispatch : Prop :=
  ∀ {xlen : Nat} (s : CoreState xlen) (rd rs1 : RegIndex) (imm : Imm), s.signals.stage = .dec →
    ∀ i ∈ [Instr.movc rd imm, .bz imm, .bnz imm, .bp imm, .bnp imm, .jump rs1 imm, .halt],
      i.wellFormed s.inputs.cfg = true →
      ∃ t : CoreState xlen, exec i ⟨_, s⟩ = .next ⟨_, t⟩ ∧ t.eLatch.hasInsn = true ∧ t.dLatch.hasInsn = false ∧
        t.signals.stall = s.signals.stall ∧
        t.status = s.status

/-- An instruction with a checked source that is not ready stalls: the stall signal is raised and nothing else changes, so
that it is decoded again in the next tick (40_pipeline.md R98, R102, R107). -/
def Obligations.UnreadySourceStalls : Prop :=
  ∀ {xlen : Nat} (i : Instr) (s : CoreState xlen) (r : RegIndex), s.signals.stage = .dec →
    i.wellFormed s.inputs.cfg = true →
    r ∈ sourcesOf i → Bank.get s.bv r = false → Bank.get s.sb r = true →
    exec i ⟨_, s⟩ = .next ⟨_, { s with signals := { s.signals with stall := true } }⟩

/-- A used register index at or above `NUM_REGS` faults in Decode, even where the instruction would stall, and nothing but
the status is written; unused fields are not checked, NOP checks nothing, and with `NUM_REGS = 32` the fault cannot occur
(60_exceptions.md R159; 30_encoding.md R69). -/
def Obligations.MissingRegisterFaults : Prop :=
  (∀ {xlen : Nat} (i : Instr) (s : CoreState xlen) (r : RegIndex), s.signals.stage = .dec → r ∈ i.usedRegs →
    s.inputs.cfg.numRegs ≤ r.toNat →
    exec i ⟨_, s⟩ = .next ⟨_, { s with status := .faulted .registerIndexOutOfRange .dec s.dLatch.pc }⟩) ∧
  faultCodeNumber .registerIndexOutOfRange = 2 ∧ faultStageNumber .dec = 2 ∧
  (∀ {xlen : Nat} (i : Instr) (s : CoreState xlen), s.signals.stage = .dec → s.status = .running →
    (∀ r ∈ i.usedRegs, r.toNat < s.inputs.cfg.numRegs) → ∃ t : CoreState xlen, exec i ⟨_, s⟩ = .next ⟨_, t⟩ ∧
      t.status = .running) ∧
  Instr.usedRegs .nop = [] ∧
  (∀ {xlen : Nat} (i : Instr) (s : CoreState xlen), s.signals.stage = .dec → s.status = .running →
    s.inputs.cfg.numRegs = 32 →
    ∃ t : CoreState xlen, exec i ⟨_, s⟩ = .next ⟨_, t⟩ ∧ t.status = .running)

/-- A record in `D` whose opcode is none of the 22 faults in Decode with `Faulted(4, DEC, D.pc)`, whatever its register
fields hold, and nothing else is written (60_exceptions.md R161). -/
def Obligations.IllegalInstructionFaults : Prop :=
  (∀ {xlen : Nat} (s : CoreState xlen), s.dLatch.hasInsn = true → 0x16 ≤ s.dLatch.opcode.toNat →
    decodeStage s = .next ⟨_, { s with status := .faulted .illegalInstruction .dec s.dLatch.pc }⟩) ∧
  faultCodeNumber .illegalInstruction = 4 ∧ faultStageNumber .dec = 2

/-! ## Execute and Memory faults -/

/-- A DIV in `E` whose divisor is 0 faults with `Faulted(3, EX, E.pc)` before it writes anything: the status is the one
field that changes. Nothing else faults in Execute (60_exceptions.md R160; 41_alu.md R131). -/
def Obligations.DivideByZeroFaults : Prop :=
  (∀ {xlen : Nat} (s : CoreState xlen) (rd rs1 rs2 : RegIndex), s.signals.stage = .ex → s.eLatch.rs2Value = 0 →
    exec (.div rd rs1 rs2) ⟨_, s⟩ = .next ⟨_, { s with status := .faulted .divideByZero .ex s.eLatch.pc }⟩) ∧
  faultCodeNumber .divideByZero = 3 ∧ faultStageNumber .ex = 3 ∧
  ∀ {xlen : Nat} (i : Instr) (s : CoreState xlen), s.signals.stage = .ex → s.status = .running →
    (∀ rd rs1 rs2, i = .div rd rs1 rs2 → s.eLatch.rs2Value ≠ 0) → ∃ t : CoreState xlen, exec i ⟨_, s⟩ = .next ⟨_, t⟩ ∧
      t.status = .running

/-- A LOAD, LDI, STORE or STI in `M` whose address is negative, or `DMEM_SIZE` or more, faults with `Faulted(1, MEM,
M.pc)`: no register and no memory word is written, and the address stays in `M` (60_exceptions.md R158; 20_memory.md
R43). For an `XLEN` other than 32 that is the model's reading (log 1). -/
def Obligations.DataAddressOutOfRangeFaults : Prop :=
  (∀ {xlen : Nat} (s : CoreState xlen) (r q : RegIndex) (imm : Imm), s.signals.stage = .mem →
    (signed s.mLatch.memoryAddress < 0 ∨ (s.inputs.cfg.dmemSize : Int) ≤ signed s.mLatch.memoryAddress) →
    ∀ i ∈ [Instr.load r q imm, .ldi r q imm, .store r q imm, .sti r q imm],
      exec i ⟨_, s⟩ = .next ⟨_, { s with status := .faulted .dataAddressOutOfRange .mem s.mLatch.pc }⟩) ∧
  faultCodeNumber .dataAddressOutOfRange = 1 ∧ faultStageNumber .mem = 4

/-! ## Fetch -/

/-- The three fetch classes of a PC: a fault below `CODE_BASE` or off a record boundary, exhausted at or past record
`N`, and otherwise the index of the record at that address (40_pipeline.md R108; 20_memory.md R49, R51). For an `XLEN`
other than 32 that is the model's reading (log 1). -/
def Obligations.FetchClassFollowsAddress : Prop :=
  ∀ {xlen : Nat} (cfg : Config) (n : Nat) (pc : Word xlen), 1 ≤ cfg.insnWidth →
    (fetchClassOf cfg n pc = .fault ↔ ∀ k : Nat, signed pc ≠ cfg.codeBase + cfg.insnWidth * k) ∧
    (fetchClassOf cfg n pc = .exhausted ↔ ∃ k : Nat, n ≤ k ∧ signed pc = cfg.codeBase + cfg.insnWidth * k) ∧
    (∀ k : Nat, fetchClassOf cfg n pc = .index k ↔ k < n ∧ signed pc = cfg.codeBase + cfg.insnWidth * k)

/-- Fetch in FETCH mode: it delivers the record at `PC` to Decode with its address, clears the value fields, advances `PC`
by one instruction width, and stays enabled unless the record is a HALT (40_pipeline.md R109, R110, R113). -/
def Obligations.FetchDeliversRecord : Prop :=
  ∀ {xlen : Nat} (s : CoreState xlen) (k : Nat), s.signals.stage = .fetch → s.fLatch.hasInsn = true →
    s.signals.redirect = false →
    s.signals.stall = false → s.fetchClass = .index k →
    ∃ t : CoreState xlen, fetchUnit s = .next ⟨_, t⟩ ∧ t.pc = s.pc + BitVec.ofNat xlen s.inputs.cfg.insnWidth ∧
      t.dLatch =
        { hasInsn := true
          opcode := opcodeField (s.codeRecord k)
          rd := rdField (s.codeRecord k)
          rs1 := rs1Field (s.codeRecord k)
          rs2 := rs2Field (s.codeRecord k)
          imm := immField (s.codeRecord k)
          pc := s.pc
          rs1Value := 0
          rs2Value := 0
          resultBuffer := 0
          newResultBuffer := 0
          memoryAddress := 0 } ∧
      t.fLatch = { t.dLatch with hasInsn := decide (opcodeField (s.codeRecord k) ≠ 0x0C) } ∧
      t.eLatch = s.eLatch ∧ t.mLatch = s.mLatch ∧ t.wLatch = s.wLatch ∧ KeepsRegsBut [] s t ∧ KeepsFlags s t ∧
      KeepsMemory s t ∧ KeepsRun s t ∧ t.retired = s.retired

/-- The other modes of Fetch: stopped or in a bubble it does nothing; in HOLD it only reloads `F` from the record at `PC`,
if there is one; past the code it does nothing and raises no fault; at an address it cannot map it faults with
`Faulted(5, FETCH, PC)`, but not in HOLD (40_pipeline.md R97, R111, R112, R114, R115; 60_exceptions.md R162). -/
def Obligations.FetchModesThatDeliverNothing : Prop :=
  ∀ {xlen : Nat} (s : CoreState xlen),
    (s.fLatch.hasInsn = false → fetchUnit s = .next ⟨_, s⟩) ∧
    (s.signals.redirect = true → fetchUnit s = .next ⟨_, s⟩) ∧
    (s.fLatch.hasInsn = true → s.signals.redirect = false → s.signals.stall = true →
      (∀ k, s.fetchClass = .index k →
        fetchUnit s = .next ⟨_, { s with fLatch := s.fLatch.loadRecord (s.codeRecord k) s.pc }⟩) ∧
      (s.fetchClass = .fault → fetchUnit s = .next ⟨_, s⟩)) ∧
    (s.fetchClass = .exhausted → fetchUnit s = .next ⟨_, s⟩) ∧
    (s.fLatch.hasInsn = true → s.signals.redirect = false → s.signals.stall = false → s.fetchClass = .fault →
      fetchUnit s = .next ⟨_, { s with status := .faulted .fetchAddressFault .fetch s.pc }⟩)

/-! ## The tick -/

/-- A step runs the decoded instruction: with nothing in flight, when the record at `PC` decodes to `i`, the step is the
Fetch part of `exec i` on the state with that record in `F`, and then the end of the tick; Decode, Execute, Memory and
Writeback run `exec i` in the four ticks that follow (`EveryStageRunsItsInstruction`; 40_pipeline.md R75, R109). -/
def Obligations.StepRunsDecodedInstruction : Prop :=
  ∀ {xlen : Nat} (s : CoreState xlen) (k : Nat) (i : Instr), s.ticking → s.drained = true → s.fLatch.hasInsn = true →
    s.fetchClass = .index k → decode (s.codeRecord k) = .instr i →
    step ⟨_, s⟩ = restAfter (andThen (exec i ⟨_,
        (s.restSignals.atStage .fetch).fetchRecord (s.codeRecord k)⟩) endOfTick)

/-- A tick is the five stages in the order Writeback, Memory, Execute, Decode, Fetch and then the end of the tick, each on
the state the one before left; and a stage with a live instruction `i` in its latch runs `exec i`
(40_pipeline.md R74, R75). -/
def Obligations.EveryStageRunsItsInstruction : Prop :=
  (∀ {xlen : Nat} (s : CoreState xlen), s.ticking →
    step ⟨_, s⟩ = restAfter (andThen (andThen (andThen (andThen (andThen
      (writebackStage (s.restSignals.atStage .wb))
      fun t => memoryStage (t.atStage .mem))
      fun t => executeStage (t.atStage .ex))
      fun t => decodeStage (t.atStage .dec))
      fun t => fetchUnit (t.atStage .fetch)) endOfTick)) ∧
  (∀ {xlen : Nat} (s : CoreState xlen) (i : Instr), s.wLatch.hasInsn = true → s.wLatch.instr = some i →
    writebackStage s = exec i ⟨_, s⟩) ∧
  (∀ {xlen : Nat} (s : CoreState xlen) (i : Instr), s.mLatch.hasInsn = true → s.mLatch.instr = some i →
    memoryStage s = exec i ⟨_, s⟩) ∧
  (∀ {xlen : Nat} (s : CoreState xlen) (i : Instr), s.eLatch.hasInsn = true → s.eLatch.instr = some i →
    executeStage s = exec i ⟨_, s⟩) ∧
  (∀ {xlen : Nat} (s : CoreState xlen) (i : Instr), s.dLatch.hasInsn = true → s.dLatch.instr = some i →
    decodeStage s = exec i ⟨_, s⟩)

/-- In a terminal status a tick leaves every field unchanged (10_state.md R34; 40_pipeline.md R75; 60_exceptions.md
R167). -/
def Obligations.TerminalStatusHoldsEverything : Prop :=
  ∀ {xlen : Nat} (s : CoreState xlen), s.validCore → s.inputs.rst = false → s.status ≠ .running →
    step ⟨_, s⟩ = .next ⟨_, s⟩

/-- An edge with `tick_en = 0` changes no state (60_exceptions.md R173). -/
def Obligations.PausedEdgeHoldsEverything : Prop :=
  ∀ {xlen : Nat} (s : CoreState xlen), s.validCore → s.inputs.rst = false → s.inputs.tickEn = false →
    step ⟨_, s⟩ = .next ⟨_, s⟩

/-- An edge with `rst = 1` gives every field its reset value, every field of every latch among them, whatever `tick_en` and
the status hold, and does not touch the inputs (70_reset_and_hazards.md R178, R179). That it does not change the pins either
is the model's choice (log 13), and that words too narrow for `CODE_BASE` take it modulo `2^XLEN` is the model's reading
(log 1). -/
def Obligations.ResetEdgeResetsEverything : Prop :=
  ∀ {xlen : Nat} (s : CoreState xlen), s.validCore → s.inputs.rst = true →
    ∃ t : CoreState xlen, step ⟨_, s⟩ = .next ⟨_, t⟩ ∧
      (∀ r, Bank.get t.regs r = 0 ∧ Bank.get t.sb r = false ∧ Bank.get t.bv r = false ∧
        Bank.get t.byp r = 0) ∧ (∀ a, Memory.read t.dmem a = 0) ∧ t.zeroFlag = false ∧ t.positiveFlag = false ∧
      t.pc = BitVec.ofNat xlen s.inputs.cfg.codeBase ∧ t.fLatch = zeroLatch true ∧ t.dLatch = zeroLatch false ∧
      t.eLatch = zeroLatch false ∧ t.mLatch = zeroLatch false ∧ t.wLatch = zeroLatch false ∧
      t.clock = 0 ∧ t.retired = 0 ∧ t.status = .running ∧ t.inputs = s.inputs

/-- The machine right after reset has the values the spec gives: every register, scoreboard bit and bypass entry, every data
word, the flags, `PC`, every field of the five latches, the counters, the status (10_state.md R18; 70_reset_and_hazards.md
R178), and the parameters' defaults (00_scope.md R9). That the memory is in canonical form is the model's own convention
(log 5). The code memory and the pins are not stated: their values are the model's choice (logs 6, 12). -/
def Obligations.ResetStateHasSpecValues : Prop :=
  (∀ r, Bank.get State.reset.core.regs r = 0 ∧ Bank.get State.reset.core.sb r = false ∧
    Bank.get State.reset.core.bv r = false ∧ Bank.get State.reset.core.byp r = 0) ∧
  (∀ a, Memory.read State.reset.core.dmem a = 0) ∧ Memory.wf State.reset.core.dmem = true ∧
  State.reset.core.zeroFlag = false ∧ State.reset.core.positiveFlag = false ∧ State.reset.core.pc = 4000 ∧
  State.reset.core.fLatch = zeroLatch true ∧ State.reset.core.dLatch = zeroLatch false ∧
  State.reset.core.eLatch = zeroLatch false ∧ State.reset.core.mLatch = zeroLatch false ∧
  State.reset.core.wLatch = zeroLatch false ∧ State.reset.core.clock = 0 ∧ State.reset.core.retired = 0 ∧
  State.reset.core.status = .running ∧ State.reset.xlen = 32 ∧ State.reset.core.inputs.cfg.numRegs = 16 ∧
  State.reset.core.inputs.cfg.dmemSize = 4096 ∧ State.reset.core.inputs.cfg.codeBase = 4000 ∧
  State.reset.core.inputs.cfg.insnWidth = 4 ∧ State.reset.core.inputs.cfg.inc = 4 ∧
  State.reset.core.inputs.cfg.bypassExpiry = .persistent

/-- A configuration that breaks the constraints on the parameters is refused by every edge (00_scope.md R9;
60_exceptions.md R177). That the refusal comes before `rst` is the model's reading (log 2). -/
def Obligations.InvalidConfigurationIsRefused : Prop :=
  ∀ {xlen : Nat} (s : CoreState xlen), (s.inputs.cfg.numRegs = 0 ∨ 32 < s.inputs.cfg.numRegs ∨
    s.inputs.cfg.dmemSize = 0 ∨
      2 ^ 31 - 1 < s.inputs.cfg.dmemSize ∨ s.inputs.cfg.insnWidth = 0 ∨
      2 ^ 31 - 1 < s.inputs.cfg.codeBase + s.inputs.cfg.insnWidth * s.inputs.code.length) →
    step ⟨_, s⟩ = .refused .invalidConfiguration

/-- The first tick after reset: the four later stages do nothing; Fetch delivers `code[0]`, read at `CODE_BASE`, or,
with no code, the run ends Exhausted; `clock` becomes 1 (70_reset_and_hazards.md R180; 60_exceptions.md R177). For words
of 32 bits or more, and for narrower ones that hold the code's addresses. For an `XLEN` other than 32 that is the
model's reading (log 1). -/
def Obligations.FirstTickAfterReset : Prop :=
  ∀ {xlen : Nat} (inputs : Inputs xlen), (CoreState.resetWith inputs).ticking → (32 ≤ xlen ∨ inputs.AddressesFit) →
    ∃ t : CoreState xlen, step ⟨_, CoreState.resetWith inputs⟩ = .next ⟨_, t⟩ ∧ t.clock = 1 ∧ t.retired = 0 ∧
      t.eLatch.hasInsn = false ∧ t.mLatch.hasInsn = false ∧ t.wLatch.hasInsn = false ∧
      t.regs = (CoreState.resetWith inputs).regs ∧ t.dmem = [] ∧ t.inputs = inputs ∧
      t.sb = (CoreState.resetWith inputs).sb ∧
      t.bv = (CoreState.resetWith inputs).bv ∧ t.byp = (CoreState.resetWith inputs).byp ∧ t.zeroFlag = false ∧
      t.positiveFlag = false ∧
      (inputs.code = [] → t.status = .exhausted ∧ t.dLatch.hasInsn = false ∧
        t.pc = BitVec.ofNat xlen inputs.cfg.codeBase) ∧
      (∀ w rest, inputs.code = w :: rest → t.status = .running ∧ t.dLatch.hasInsn = true ∧
        t.dLatch.opcode = opcodeField w ∧ t.dLatch.rd = rdField w ∧ t.dLatch.rs1 = rs1Field w ∧
        t.dLatch.rs2 = rs2Field w ∧ t.dLatch.imm = immField w ∧ t.dLatch.pc = BitVec.ofNat xlen inputs.cfg.codeBase ∧
        t.pc = BitVec.ofNat xlen inputs.cfg.codeBase + BitVec.ofNat xlen inputs.cfg.insnWidth)

/-- No step changes the inputs: not the code memory, its length or the parameters, `XLEN` among them (20_memory.md R52, R57;
70_reset_and_hazards.md R179). That it does not change the pins either is the model's choice (log 13). -/
def Obligations.StepNeverChangesInputs : Prop :=
  (∀ s t : State, step s = .next t → t.xlen = s.xlen) ∧
  ∀ {xlen : Nat} (s t : CoreState xlen), step ⟨_, s⟩ = .next ⟨_, t⟩ → t.inputs = s.inputs

/-- The counters: a tick adds 1 to `clock` exactly when it does not fault, and 1 to `retired` exactly when Writeback holds
a live instruction (60_exceptions.md R156, R170; 40_pipeline.md R84, R116). -/
def Obligations.CountersCountTicksAndRetirements : Prop :=
  ∀ {xlen : Nat} (s t : CoreState xlen), s.ticking → step ⟨_, s⟩ = .next ⟨_, t⟩ →
    (t.NotFaulted → t.clock = s.clock + 1) ∧ (¬t.NotFaulted → t.clock = s.clock) ∧
    t.retired = s.retired + s.wLatch.hasInsn.toNat

/-- Only Writeback writes the register file: a tick leaves it as the step of Writeback leaves it, so no later stage, Decode
among them, writes it; and that step changes no register but the destinations of the live instruction in `W`
(10_state.md R21; 40_pipeline.md R79, R85). -/
def Obligations.OnlyWritebackWritesRegisters : Prop :=
  ∀ {xlen : Nat} (s t : CoreState xlen), s.ticking → step ⟨_, s⟩ = .next ⟨_, t⟩ →
    (∃ a, writebackStage (s.restSignals.atStage .wb) = .next ⟨_, a⟩ ∧ t.regs = a.regs) ∧
    ∀ r, ¬s.wLatch.Writes r → Bank.get t.regs r = Bank.get s.regs r

/-- A tick commits what `W` holds: the first result to `rd`, for LDI then also the incremented base to `rs1` unless `rd`
is the same register, and for STI the incremented base to `rs2` (40_pipeline.md R85). -/
def Obligations.TickCommitsWritebackLatch : Prop :=
  ∀ {xlen : Nat} (s t : CoreState xlen) (i : Instr), s.ticking → step ⟨_, s⟩ = .next ⟨_, t⟩ →
    s.wLatch.hasInsn = true → s.wLatch.instr = some i →
    (∀ rd (l : Latch xlen) v, executeResult i l = some (rd, v) → Bank.get t.regs rd = s.wLatch.resultBuffer) ∧
    (∀ rd rs1 imm, i = .load rd rs1 imm → Bank.get t.regs rd = s.wLatch.resultBuffer) ∧
    (∀ rd rs1 imm, i = .ldi rd rs1 imm → Bank.get t.regs rd = s.wLatch.resultBuffer ∧
      (rs1 ≠ rd → Bank.get t.regs rs1 = s.wLatch.newResultBuffer)) ∧
    (∀ rs1 rs2 imm, i = .sti rs1 rs2 imm → Bank.get t.regs rs2 = s.wLatch.newResultBuffer)

/-- Only a STORE or STI in `M` writes data memory, and only the one word at its address (20_memory.md R45, R47). -/
def Obligations.OnlyStoresWriteMemory : Prop :=
  ∀ {xlen : Nat} (s t : CoreState xlen) (a : Nat), s.ticking → step ⟨_, s⟩ = .next ⟨_, t⟩ →
    (∀ rs1 rs2 imm, s.mLatch.hasInsn = true →
      (s.mLatch.instr = some (.store rs1 rs2 imm) ∨ s.mLatch.instr = some (.sti rs1 rs2 imm)) →
      (signed s.mLatch.memoryAddress).toNat ≠ a) →
    Memory.read t.dmem a = Memory.read s.dmem a

/-- Only an ADD, SUB, MUL, DIV, ADDL, SUBL or CMP in `E` writes a flag in a tick (10_state.md R28, R29, R30). -/
def Obligations.OnlyArithmeticAndCompareWriteFlags : Prop :=
  ∀ {xlen : Nat} (s t : CoreState xlen), s.ticking → step ⟨_, s⟩ = .next ⟨_, t⟩ →
    (s.eLatch.hasInsn = true → ∀ i, s.eLatch.instr = some i → writesFlags i = false) → KeepsFlags s t

/-- `PC` changes in exactly two ways: by one instruction width when Fetch delivers, and to the target of the taken branch
or jump in `E` (10_state.md R26). -/
def Obligations.PcChangesInTwoWays : Prop :=
  ∀ {xlen : Nat} (s t : CoreState xlen), s.ticking → step ⟨_, s⟩ = .next ⟨_, t⟩ →
    t.pc = s.pc ∨ (t.pc = s.pc + BitVec.ofNat xlen s.inputs.cfg.insnWidth ∧ t.dLatch.hasInsn = true ∧
        t.dLatch.pc = s.pc) ∨
      (s.eLatch.hasInsn = true ∧ ∃ i, s.eLatch.instr = some i ∧ takenTarget s i s.eLatch = some t.pc ∧
        t.dLatch.hasInsn = false)

/-- A taken branch or jump in `E` sets `PC` to its target, discards the instruction in Decode, enables Fetch, which delivers
nothing in this tick, and moves on to `M`; the discarded instruction has marked nothing: no scoreboard bit is set
(40_pipeline.md R93, R94, R96, R112). -/
def Obligations.TakenBranchFlushesDecode : Prop :=
  ∀ {xlen : Nat} (s : CoreState xlen) (i : Instr) (target : Word xlen), s.ticking → s.NoHaltCommit → s.NoMemoryFault →
    s.eLatch.hasInsn = true →
    s.eLatch.instr = some i → takenTarget s i s.eLatch = some target →
    ∃ t : CoreState xlen, step ⟨_, s⟩ = .next ⟨_, t⟩ ∧ t.pc = target ∧ t.dLatch.hasInsn = false ∧
      t.fLatch.hasInsn = true ∧
      t.eLatch.hasInsn = false ∧ t.mLatch = s.eLatch ∧ t.status = .running ∧ t.clock = s.clock + 1 ∧ KeepsFlags s t ∧
      ∀ r, Bank.get t.sb r = true → Bank.get s.sb r = true

/-- A value Execute produces in a tick, a result or the incremented base of LDI or STI, is the value Decode reads in the same
tick: an instruction in `D` with a checked source that is the register the value is for, and whose other checked source is
ready, dispatches without a stall, with that value in each of its operands that names the register (40_pipeline.md R77, R90,
R98; 70_reset_and_hazards.md R185). -/
def Obligations.ExecutedValueIsForwardedInTheSameTick : Prop :=
  ∀ {xlen : Nat} (s : CoreState xlen) (i j : Instr) (r : RegIndex) (v : Word xlen), s.ticking → s.NoHaltCommit →
    s.NoMemoryFault →
    s.eLatch.hasInsn = true → s.eLatch.instr = some i → executeProduces s.inputs.cfg i s.eLatch = some (r, v) →
    s.dLatch.hasInsn = true → s.dLatch.instr = some j → j.wellFormed s.inputs.cfg = true → r ∈ sourcesOf j →
    (∀ q ∈ sourcesOf j, q = r ∨ s.ready q = true) →
    stallSignal s = false ∧ ∃ t : CoreState xlen, step ⟨_, s⟩ = .next ⟨_, t⟩ ∧ t.eLatch.hasInsn = true ∧
    t.eLatch.instr = some j ∧
      t.eLatch.pc = s.dLatch.pc ∧ ((sourcesOf j)[0]? = some r → t.eLatch.rs1Value = v) ∧
      ((sourcesOf j)[1]? = some r → t.eLatch.rs2Value = v)

/-- A committed HALT ends the tick: the status becomes Halted, `clock` and `retired` count it, `W` becomes empty, and no
other field changes, whatever the other latches hold. In a state with the invariant the other latches are empty and Fetch is
stopped then (40_pipeline.md R87, R122; 44_system.md R154). -/
def Obligations.CommittedHaltEndsTheTick : Prop :=
  ∀ {xlen : Nat} (s : CoreState xlen), s.ticking → s.wLatch.HoldsHalt →
    step ⟨_, s⟩ = .next ⟨_, { s with
      status := .halted
      clock := s.clock + 1
      retired := s.retired + 1
      wLatch := { s.wLatch with hasInsn := false }
      signals := Signals.rest }⟩ ∧
    (s.Inv → s.dLatch.hasInsn = false ∧ s.eLatch.hasInsn = false ∧ s.mLatch.hasInsn = false ∧ s.fLatch.hasInsn = false)

/-- Of two faults in one tick the oldest instruction's is the one reported, whatever the stages after it would have raised,
and they do nothing (60_exceptions.md R156, R163, R166; 40_pipeline.md R119):
a data access at an address that is not valid in `M`, before a DIV by 0 in `E`, Decode and Fetch;
a DIV by 0 in `E`, before Decode and Fetch;
an illegal opcode or a missing register in `D`, before Fetch, where `E` neither faults nor redirects. -/
def Obligations.OldestFaultIsReported : Prop :=
  (∀ {xlen : Nat} (s : CoreState xlen) (i : Instr), s.ticking → s.NoHaltCommit → s.mLatch.hasInsn = true →
    s.mLatch.instr = some i →
    isMemoryInstr i = true → s.validAddress s.mLatch.memoryAddress = false →
    ∃ t : CoreState xlen, step ⟨_, s⟩ = .next ⟨_, t⟩ ∧ FaultReported .dataAddressOutOfRange 1 .mem 4 s.mLatch.pc s t ∧
      t.mLatch = s.mLatch ∧
      t.eLatch = s.eLatch ∧ KeepsMemory s t ∧ KeepsFlags s t ∧ t.byp = s.byp) ∧
  (∀ {xlen : Nat} (s : CoreState xlen) (rd rs1 rs2 : RegIndex), s.ticking → s.NoHaltCommit → s.NoMemoryFault →
    s.eLatch.hasInsn = true →
    s.eLatch.instr = some (.div rd rs1 rs2) → s.eLatch.rs2Value = 0 →
    ∃ t : CoreState xlen, step ⟨_, s⟩ = .next ⟨_, t⟩ ∧ FaultReported .divideByZero 3 .ex 3 s.eLatch.pc s t ∧
      t.mLatch.hasInsn = false ∧
      t.eLatch = s.eLatch ∧ KeepsFlags s t ∧ t.byp = s.byp) ∧
  (∀ {xlen : Nat} (s : CoreState xlen), s.ticking → s.NoHaltCommit → s.NoMemoryFault → s.ExecuteGoesOn →
    s.dLatch.hasInsn = true →
    (s.dLatch.instr = none →
      ∃ t : CoreState xlen, step ⟨_, s⟩ = .next ⟨_, t⟩ ∧ FaultReported .illegalInstruction 4 .dec 2 s.dLatch.pc s t ∧
        t.eLatch.hasInsn = false ∧ ∀ r, Bank.get t.sb r = true → Bank.get s.sb r = true) ∧
    (∀ j, s.dLatch.instr = some j → j.wellFormed s.inputs.cfg = false →
      ∃ t : CoreState xlen, step ⟨_, s⟩ = .next ⟨_, t⟩ ∧
        FaultReported .registerIndexOutOfRange 2 .dec 2 s.dLatch.pc s t ∧
        t.eLatch.hasInsn = false ∧ ∀ r, Bank.get t.sb r = true → Bank.get s.sb r = true))

/-- With nothing in flight and Fetch stopped or past the code, the tick counts and ends the run Exhausted, and nothing else
changes; at a PC it cannot map, Fetch faults instead (40_pipeline.md R114, R115, R117). -/
def Obligations.EmptyPipelineExhausts : Prop :=
  ∀ {xlen : Nat} (s : CoreState xlen), s.ticking → s.drained = true →
    (s.cannotFetch = true →
      step ⟨_, s⟩ = .next ⟨_, { s with status := .exhausted, clock := s.clock + 1, signals := Signals.rest }⟩) ∧
    (s.fLatch.hasInsn = true → s.fetchClass = .fault →
      step ⟨_, s⟩ = .next ⟨_, { s with status := .faulted .fetchAddressFault .fetch s.pc, signals := Signals.rest }⟩)

/-- A LOAD or LDI right behind a STORE or STI to the same address reads the stored word (20_memory.md R54;
70_reset_and_hazards.md R195). -/
def Obligations.LoadReadsTheStoreBeforeIt : Prop :=
  ∀ {xlen : Nat} (s t u : CoreState xlen) (st ld : Instr) (rs1 rs2 rd base : RegIndex) (imm imm' : Imm), s.ticking →
    s.NoHaltCommit →
    (st = .store rs1 rs2 imm ∨ st = .sti rs1 rs2 imm) → (ld = .load rd base imm' ∨ ld = .ldi rd base imm') →
    Memory.wf s.dmem = true → s.mLatch.hasInsn = true → s.mLatch.instr = some st →
    s.validAddress s.mLatch.memoryAddress = true → s.eLatch.hasInsn = true → s.eLatch.instr = some ld →
    s.eLatch.rs1Value + immWord imm' = s.mLatch.memoryAddress →
    step ⟨_, s⟩ = .next ⟨_, t⟩ → t.status = .running → step ⟨_, t⟩ = .next ⟨_, u⟩ →
    u.wLatch.hasInsn = true ∧ u.wLatch.instr = some ld ∧ u.wLatch.resultBuffer = s.mLatch.rs1Value

/-! ## Invariants -/

/-- Every step keeps the data memory within `DMEM_SIZE` words (20_memory.md R42, R43) and in canonical form, which is the
model's own convention (log 5). -/
def Obligations.StepKeepsMemoryOk : Prop := ∀ {xlen : Nat} (s t : CoreState xlen), s.MemoryOk →
    step ⟨_, s⟩ = .next ⟨_, t⟩ → t.MemoryOk

/-- Every step keeps `Z` and `P` from both being 1 (41_alu.md R127). -/
def Obligations.StepKeepsFlagsExclusive : Prop :=
  ∀ {xlen : Nat} (s t : CoreState xlen), s.FlagsExclusive → step ⟨_, s⟩ = .next ⟨_, t⟩ → t.FlagsExclusive

/-- Every reset state, and so `State.reset`, has the invariant of the states between ticks; of its clauses the memory's
canonical form, the slots that are no registers and the signals at rest are the model's own (logs 5, 4, 7). -/
def Obligations.ResetHasInvariant : Prop := State.reset.core.Inv ∧ ∀ {xlen : Nat} (inputs : Inputs xlen),
    (CoreState.resetWith inputs).Inv

/-- Every step keeps the invariant of the states between ticks: the memory and flag invariants; missing registers are
never written; every live instruction past Decode is a legal one whose registers exist, and is the code record at its own
pc; a delivered HALT is the youngest live instruction, and Fetch is stopped exactly then; a pending register has a writer
in flight; and a terminal status tells the truth about the frozen state (10_state.md R25, R34, R37; 40_pipeline.md R87,
R100, R110, R117, R122, R123; 60_exceptions.md R156 to R162). The memory's canonical form, the slots that are no registers
and the signals at rest are the model's own (logs 5, 4, 7). -/
def Obligations.StepKeepsInvariant : Prop := ∀ {xlen : Nat} (s t : CoreState xlen), s.Inv →
    step ⟨_, s⟩ = .next ⟨_, t⟩ → t.Inv

/-- A stall lasts at most 2 consecutive ticks (40_pipeline.md R123; 70_reset_and_hazards.md R203). -/
def Obligations.StallLastsAtMostTwoTicks : Prop :=
  ∀ {xlen : Nat} (s t u : CoreState xlen), s.Inv → s.ticking → stallSignal s = true → step ⟨_, s⟩ = .next ⟨_, t⟩ →
    stallSignal t = true →
    step ⟨_, t⟩ = .next ⟨_, u⟩ → stallSignal u = false

/-- An instruction alone in the pipeline has the effect its stage steps have in sequence: fetched by the next step as the
last record of the code, it has after 5 steps left the registers, memory, flags, scoreboard, bypass table and `retired`
that its passage leaves, `clock` has counted 5 ticks, and the run is Exhausted (40_pipeline.md R117, R124;
70_reset_and_hazards.md R201). For every instruction but NOP, HALT, the branches and JUMP, which end or redirect the run or
are dropped, and for words of 32 bits or more, or that hold the code's addresses. -/
def Obligations.RunAloneMatchesPassage : Prop :=
  ∀ {xlen : Nat} (s s1 s2 s3 s4 : CoreState xlen) (k : Nat) (i : Instr), s.ticking → s.drained = true →
    s.fLatch.hasInsn = true → (32 ≤ xlen ∨ s.inputs.AddressesFit) → s.fetchClass = .index k →
      s.inputs.code.length = k + 1 →
    decode (s.codeRecord k) = .instr i →
    i ≠ .nop → i ≠ .halt → (∀ l, takenTarget s i l = none) →
    (∀ imm, i ≠ .bz imm ∧ i ≠ .bnz imm ∧ i ≠ .bp imm ∧ i ≠ .bnp imm) → s.canDispatch i →
    Passage i (s.delivered k) s1 s2 s3 s4 → s4.status = .running →
    ∃ t : CoreState xlen, run 5 ⟨_, s⟩ = .next ⟨_, t⟩ ∧ t.regs = s4.regs ∧ t.dmem = s4.dmem ∧ t.zeroFlag = s4.zeroFlag ∧
      t.positiveFlag = s4.positiveFlag ∧ t.sb = s4.sb ∧ t.bv = s4.bv ∧ t.byp = s4.byp ∧ t.retired = s4.retired ∧
      t.clock = s.clock + 5 ∧ t.status = .exhausted ∧ t.drained = true
end

