-- ==== Sys2Proof/Laws/Decode.lean ====
section
/-!
SUPPORT. The fields of a packed record word are the fields it was packed from, and its reserved bits are 0
(30_encoding.md R61).
-/

namespace Sys2Proof

variable (op : Opcode) (rd rs1 rs2 : RegIndex) (imm : Imm)

/-- Each bit of a packed record word comes from the one field that covers it. -/
theorem getLsbD_packRecord (i : Nat) (hi : i < 64) :
    (packRecord op rd rs1 rs2 imm).getLsbD i =
      if i < 32 then imm.getLsbD i
      else if i < 43 then false
      else if i < 48 then rs2.getLsbD (i - 43)
      else if i < 53 then rs1.getLsbD (i - 48)
      else if i < 58 then rd.getLsbD (i - 53)
      else op.getLsbD (i - 58) := by
  have e1 (h : 58 ≤ i) := BitVec.getLsbD_of_ge rd (i - 53) (by omega)
  have e2 (h : 53 ≤ i) := BitVec.getLsbD_of_ge rs1 (i - 48) (by omega)
  have e3 (h : 48 ≤ i) := BitVec.getLsbD_of_ge rs2 (i - 43) (by omega)
  have e4 (h : 32 ≤ i) := BitVec.getLsbD_of_ge imm i (by omega)
  simp only [packRecord, BitVec.getLsbD_or, BitVec.getLsbD_shiftLeft, BitVec.getLsbD_setWidth, hi, decide_true,
    Bool.true_and]
  split_ifs with h1 h2 h3 h4 h5
  · simp [show i < 58 by omega, show i < 53 by omega, show i < 48 by omega, show i < 43 by omega]
  · simp [show i < 58 by omega, show i < 53 by omega, show i < 48 by omega, show i < 43 by omega, e4 (by omega)]
  · simp [show i < 58 by omega, show i < 53 by omega, show i < 48 by omega, show ¬i < 43 by omega, e4 (by omega),
      show i - 43 < 64 by omega]
  · simp [show i < 58 by omega, show i < 53 by omega, show ¬i < 48 by omega, show ¬i < 43 by omega, e4 (by omega),
      e3 (by omega), show i - 48 < 64 by omega]
  · simp [show i < 58 by omega, show ¬i < 53 by omega, show ¬i < 48 by omega, show ¬i < 43 by omega, e4 (by omega),
      e3 (by omega), e2 (by omega), show i - 53 < 64 by omega]
  · simp [show ¬i < 58 by omega, show ¬i < 53 by omega, show ¬i < 48 by omega, show ¬i < 43 by omega, e4 (by omega),
      e3 (by omega), e2 (by omega), e1 (by omega), show i - 58 < 64 by omega]

@[simp] theorem opcodeField_packRecord : opcodeField (packRecord op rd rs1 rs2 imm) = op := by
  refine BitVec.eq_of_getLsbD_eq fun i hi => ?_
  simp [opcodeField, getLsbD_packRecord op rd rs1 rs2 imm (58 + i) (by omega), hi,
    show ¬58 + i < 32 by omega, show ¬58 + i < 43 by omega, show ¬58 + i < 48 by omega, show ¬58 + i < 53 by omega]

@[simp] theorem rdField_packRecord : rdField (packRecord op rd rs1 rs2 imm) = rd := by
  refine BitVec.eq_of_getLsbD_eq fun i hi => ?_
  simp [rdField, getLsbD_packRecord op rd rs1 rs2 imm (53 + i) (by omega), hi,
    show ¬53 + i < 32 by omega, show ¬53 + i < 43 by omega, show ¬53 + i < 48 by omega, show 53 + i < 58 by omega]

@[simp] theorem rs1Field_packRecord : rs1Field (packRecord op rd rs1 rs2 imm) = rs1 := by
  refine BitVec.eq_of_getLsbD_eq fun i hi => ?_
  simp [rs1Field, getLsbD_packRecord op rd rs1 rs2 imm (48 + i) (by omega), hi,
    show ¬48 + i < 32 by omega, show ¬48 + i < 43 by omega, show 48 + i < 53 by omega]

@[simp] theorem rs2Field_packRecord : rs2Field (packRecord op rd rs1 rs2 imm) = rs2 := by
  refine BitVec.eq_of_getLsbD_eq fun i hi => ?_
  simp [rs2Field, getLsbD_packRecord op rd rs1 rs2 imm (43 + i) (by omega), hi,
    show ¬43 + i < 32 by omega, show 43 + i < 48 by omega]

@[simp] theorem immField_packRecord : immField (packRecord op rd rs1 rs2 imm) = imm := by
  refine BitVec.eq_of_getLsbD_eq fun i hi => ?_
  simp [immField, getLsbD_packRecord op rd rs1 rs2 imm i (by omega), hi]

theorem reserved_packRecord : (packRecord op rd rs1 rs2 imm).extractLsb' 32 11 = 0 := by
  refine BitVec.eq_of_getLsbD_eq fun i hi => ?_
  simp [BitVec.getLsbD_extractLsb', getLsbD_packRecord op rd rs1 rs2 imm (32 + i) (by omega),
    show 32 + i < 43 by omega]

end Sys2Proof
end

