-- ==== Sys2Proof/Laws/State.lean ====
section
/-!
SUPPORT. The small lemmas of the state's updates: one lemma per field per update, and those of banks and latches.
-/

namespace Sys2Proof.Machine

variable {xlen : Nat}

/-! ## Banks -/

@[simp] theorem Bank.get_put_self {α : Type} (b : Bank α) (r : RegIndex) (v : α) :
    Bank.get (Bank.put b r v) r = v := by simp [Bank.get, Bank.put]

@[simp] theorem Bank.get_put_ne {α : Type} (b : Bank α) {r q : RegIndex} (v : α) (h : q ≠ r) :
    Bank.get (Bank.put b r v) q = Bank.get b q := by
  have h' : r.toNat ≠ q.toNat := fun e => h (BitVec.eq_of_toNat_eq e.symm)
  simp [Bank.get, Bank.put, h']

theorem Bank.get_put {α : Type} (b : Bank α) (r q : RegIndex) (v : α) :
    Bank.get (Bank.put b r v) q = if q = r then v else Bank.get b q := by
  by_cases h : q = r
  · subst h; simp
  · simp [h]

@[simp] theorem Bank.get_replicate {α : Type} (v : α) (r : RegIndex) :
    Bank.get (Vector.replicate 32 v : Bank α) r = v := by simp [Bank.get]

/-! ## Latches -/

@[simp] theorem Latch.filled_hasInsn (l : Latch xlen) : l.filled.hasInsn = true := rfl
@[simp] theorem Latch.filled_opcode (l : Latch xlen) : l.filled.opcode = l.opcode := rfl
@[simp] theorem Latch.filled_rd (l : Latch xlen) : l.filled.rd = l.rd := rfl
@[simp] theorem Latch.filled_rs1 (l : Latch xlen) : l.filled.rs1 = l.rs1 := rfl
@[simp] theorem Latch.filled_rs2 (l : Latch xlen) : l.filled.rs2 = l.rs2 := rfl
@[simp] theorem Latch.filled_imm (l : Latch xlen) : l.filled.imm = l.imm := rfl
@[simp] theorem Latch.filled_pc (l : Latch xlen) : l.filled.pc = l.pc := rfl
@[simp] theorem Latch.filled_rs1Value (l : Latch xlen) : l.filled.rs1Value = l.rs1Value := rfl
@[simp] theorem Latch.filled_rs2Value (l : Latch xlen) : l.filled.rs2Value = l.rs2Value := rfl
@[simp] theorem Latch.filled_resultBuffer (l : Latch xlen) : l.filled.resultBuffer = l.resultBuffer := rfl
@[simp] theorem Latch.filled_newResultBuffer (l : Latch xlen) : l.filled.newResultBuffer = l.newResultBuffer := rfl
@[simp] theorem Latch.filled_memoryAddress (l : Latch xlen) : l.filled.memoryAddress = l.memoryAddress := rfl
@[simp] theorem Latch.emptied_hasInsn (l : Latch xlen) : l.emptied.hasInsn = false := rfl
@[simp] theorem Latch.emptied_opcode (l : Latch xlen) : l.emptied.opcode = l.opcode := rfl
@[simp] theorem Latch.emptied_rd (l : Latch xlen) : l.emptied.rd = l.rd := rfl
@[simp] theorem Latch.emptied_rs1 (l : Latch xlen) : l.emptied.rs1 = l.rs1 := rfl
@[simp] theorem Latch.emptied_rs2 (l : Latch xlen) : l.emptied.rs2 = l.rs2 := rfl
@[simp] theorem Latch.emptied_imm (l : Latch xlen) : l.emptied.imm = l.imm := rfl
@[simp] theorem Latch.emptied_pc (l : Latch xlen) : l.emptied.pc = l.pc := rfl
@[simp] theorem Latch.emptied_rs1Value (l : Latch xlen) : l.emptied.rs1Value = l.rs1Value := rfl
@[simp] theorem Latch.emptied_rs2Value (l : Latch xlen) : l.emptied.rs2Value = l.rs2Value := rfl
@[simp] theorem Latch.emptied_resultBuffer (l : Latch xlen) : l.emptied.resultBuffer = l.resultBuffer := rfl
@[simp] theorem Latch.emptied_newResultBuffer (l : Latch xlen) : l.emptied.newResultBuffer = l.newResultBuffer := rfl
@[simp] theorem Latch.emptied_memoryAddress (l : Latch xlen) : l.emptied.memoryAddress = l.memoryAddress := rfl
@[simp] theorem Latch.loadRecord_hasInsn (l : Latch xlen) (w : RecordWord) (p : Word xlen) :
    (l.loadRecord w p).hasInsn = l.hasInsn := rfl
@[simp] theorem Latch.loadRecord_opcode (l : Latch xlen) (w : RecordWord) (p : Word xlen) :
    (l.loadRecord w p).opcode = opcodeField w := rfl
@[simp] theorem Latch.loadRecord_rd (l : Latch xlen) (w : RecordWord) (p : Word xlen) :
    (l.loadRecord w p).rd = rdField w := rfl
@[simp] theorem Latch.loadRecord_rs1 (l : Latch xlen) (w : RecordWord) (p : Word xlen) :
    (l.loadRecord w p).rs1 = rs1Field w := rfl
@[simp] theorem Latch.loadRecord_rs2 (l : Latch xlen) (w : RecordWord) (p : Word xlen) :
    (l.loadRecord w p).rs2 = rs2Field w := rfl
@[simp] theorem Latch.loadRecord_imm (l : Latch xlen) (w : RecordWord) (p : Word xlen) :
    (l.loadRecord w p).imm = immField w := rfl
@[simp] theorem Latch.loadRecord_pc (l : Latch xlen) (w : RecordWord) (p : Word xlen) :
    (l.loadRecord w p).pc = p := rfl
@[simp] theorem Latch.loadRecord_rs1Value (l : Latch xlen) (w : RecordWord) (p : Word xlen) :
    (l.loadRecord w p).rs1Value = l.rs1Value := rfl
@[simp] theorem Latch.loadRecord_rs2Value (l : Latch xlen) (w : RecordWord) (p : Word xlen) :
    (l.loadRecord w p).rs2Value = l.rs2Value := rfl
@[simp] theorem Latch.loadRecord_resultBuffer (l : Latch xlen) (w : RecordWord) (p : Word xlen) :
    (l.loadRecord w p).resultBuffer = l.resultBuffer := rfl
@[simp] theorem Latch.loadRecord_newResultBuffer (l : Latch xlen) (w : RecordWord) (p : Word xlen) :
    (l.loadRecord w p).newResultBuffer = l.newResultBuffer := rfl
@[simp] theorem Latch.loadRecord_memoryAddress (l : Latch xlen) (w : RecordWord) (p : Word xlen) :
    (l.loadRecord w p).memoryAddress = l.memoryAddress := rfl

@[simp] theorem Latch.filled_instr (l : Latch xlen) : l.filled.instr = l.instr := rfl
@[simp] theorem Latch.emptied_instr (l : Latch xlen) : l.emptied.instr = l.instr := rfl


/-! ## State.setFlags -/

@[simp] theorem CoreState.setFlags_regs (v : Word xlen) (s : CoreState xlen) : (s.setFlags v).regs = s.regs := rfl
@[simp] theorem CoreState.setFlags_dmem (v : Word xlen) (s : CoreState xlen) : (s.setFlags v).dmem = s.dmem := rfl
@[simp] theorem CoreState.setFlags_zeroFlag (v : Word xlen) (s : CoreState xlen) : (s.setFlags v).zeroFlag =
    zeroOf v := rfl
@[simp] theorem CoreState.setFlags_positiveFlag (v : Word xlen) (s : CoreState xlen) : (s.setFlags v).positiveFlag =
    positiveOf v := rfl
@[simp] theorem CoreState.setFlags_pc (v : Word xlen) (s : CoreState xlen) : (s.setFlags v).pc = s.pc := rfl
@[simp] theorem CoreState.setFlags_sb (v : Word xlen) (s : CoreState xlen) : (s.setFlags v).sb = s.sb := rfl
@[simp] theorem CoreState.setFlags_bv (v : Word xlen) (s : CoreState xlen) : (s.setFlags v).bv = s.bv := rfl
@[simp] theorem CoreState.setFlags_byp (v : Word xlen) (s : CoreState xlen) : (s.setFlags v).byp = s.byp := rfl
@[simp] theorem CoreState.setFlags_fLatch (v : Word xlen) (s : CoreState xlen) : (s.setFlags v).fLatch = s.fLatch := rfl
@[simp] theorem CoreState.setFlags_dLatch (v : Word xlen) (s : CoreState xlen) : (s.setFlags v).dLatch = s.dLatch := rfl
@[simp] theorem CoreState.setFlags_eLatch (v : Word xlen) (s : CoreState xlen) : (s.setFlags v).eLatch = s.eLatch := rfl
@[simp] theorem CoreState.setFlags_mLatch (v : Word xlen) (s : CoreState xlen) : (s.setFlags v).mLatch = s.mLatch := rfl
@[simp] theorem CoreState.setFlags_wLatch (v : Word xlen) (s : CoreState xlen) : (s.setFlags v).wLatch = s.wLatch := rfl
@[simp] theorem CoreState.setFlags_clock (v : Word xlen) (s : CoreState xlen) : (s.setFlags v).clock = s.clock := rfl
@[simp] theorem CoreState.setFlags_retired (v : Word xlen) (s : CoreState xlen) : (s.setFlags v).retired =
    s.retired := rfl
@[simp] theorem CoreState.setFlags_status (v : Word xlen) (s : CoreState xlen) : (s.setFlags v).status = s.status := rfl
@[simp] theorem CoreState.setFlags_inputs (v : Word xlen) (s : CoreState xlen) : (s.setFlags v).inputs = s.inputs := rfl
@[simp] theorem CoreState.setFlags_signals (v : Word xlen) (s : CoreState xlen) : (s.setFlags v).signals =
    s.signals := rfl

/-! ## State.atStage -/

@[simp] theorem CoreState.atStage_regs (st : Stage) (s : CoreState xlen) : (s.atStage st).regs = s.regs := rfl
@[simp] theorem CoreState.atStage_dmem (st : Stage) (s : CoreState xlen) : (s.atStage st).dmem = s.dmem := rfl
@[simp] theorem CoreState.atStage_zeroFlag (st : Stage) (s : CoreState xlen) : (s.atStage st).zeroFlag = s.zeroFlag :=
    rfl
@[simp] theorem CoreState.atStage_positiveFlag (st : Stage) (s : CoreState xlen) :
    (s.atStage st).positiveFlag = s.positiveFlag := rfl
@[simp] theorem CoreState.atStage_pc (st : Stage) (s : CoreState xlen) : (s.atStage st).pc = s.pc := rfl
@[simp] theorem CoreState.atStage_sb (st : Stage) (s : CoreState xlen) : (s.atStage st).sb = s.sb := rfl
@[simp] theorem CoreState.atStage_bv (st : Stage) (s : CoreState xlen) : (s.atStage st).bv = s.bv := rfl
@[simp] theorem CoreState.atStage_byp (st : Stage) (s : CoreState xlen) : (s.atStage st).byp = s.byp := rfl
@[simp] theorem CoreState.atStage_fLatch (st : Stage) (s : CoreState xlen) : (s.atStage st).fLatch = s.fLatch := rfl
@[simp] theorem CoreState.atStage_dLatch (st : Stage) (s : CoreState xlen) : (s.atStage st).dLatch = s.dLatch := rfl
@[simp] theorem CoreState.atStage_eLatch (st : Stage) (s : CoreState xlen) : (s.atStage st).eLatch = s.eLatch := rfl
@[simp] theorem CoreState.atStage_mLatch (st : Stage) (s : CoreState xlen) : (s.atStage st).mLatch = s.mLatch := rfl
@[simp] theorem CoreState.atStage_wLatch (st : Stage) (s : CoreState xlen) : (s.atStage st).wLatch = s.wLatch := rfl
@[simp] theorem CoreState.atStage_clock (st : Stage) (s : CoreState xlen) : (s.atStage st).clock = s.clock := rfl
@[simp] theorem CoreState.atStage_retired (st : Stage) (s : CoreState xlen) : (s.atStage st).retired = s.retired := rfl
@[simp] theorem CoreState.atStage_status (st : Stage) (s : CoreState xlen) : (s.atStage st).status = s.status := rfl
@[simp] theorem CoreState.atStage_inputs (st : Stage) (s : CoreState xlen) : (s.atStage st).inputs = s.inputs := rfl
@[simp] theorem CoreState.atStage_signals (st : Stage) (s : CoreState xlen) :
    (s.atStage st).signals = { s.signals with stage := st } := rfl

/-- Only the last stage set counts. -/
@[simp] theorem CoreState.atStage_atStage (a b : Stage) (s : CoreState xlen) : (s.atStage a).atStage b =
    s.atStage b := rfl

/-! ## State.restSignals -/

@[simp] theorem CoreState.restSignals_regs (s : CoreState xlen) : s.restSignals.regs = s.regs := rfl
@[simp] theorem CoreState.restSignals_dmem (s : CoreState xlen) : s.restSignals.dmem = s.dmem := rfl
@[simp] theorem CoreState.restSignals_zeroFlag (s : CoreState xlen) : s.restSignals.zeroFlag = s.zeroFlag := rfl
@[simp] theorem CoreState.restSignals_positiveFlag (s : CoreState xlen) : s.restSignals.positiveFlag =
    s.positiveFlag := rfl
@[simp] theorem CoreState.restSignals_pc (s : CoreState xlen) : s.restSignals.pc = s.pc := rfl
@[simp] theorem CoreState.restSignals_sb (s : CoreState xlen) : s.restSignals.sb = s.sb := rfl
@[simp] theorem CoreState.restSignals_bv (s : CoreState xlen) : s.restSignals.bv = s.bv := rfl
@[simp] theorem CoreState.restSignals_byp (s : CoreState xlen) : s.restSignals.byp = s.byp := rfl
@[simp] theorem CoreState.restSignals_fLatch (s : CoreState xlen) : s.restSignals.fLatch = s.fLatch := rfl
@[simp] theorem CoreState.restSignals_dLatch (s : CoreState xlen) : s.restSignals.dLatch = s.dLatch := rfl
@[simp] theorem CoreState.restSignals_eLatch (s : CoreState xlen) : s.restSignals.eLatch = s.eLatch := rfl
@[simp] theorem CoreState.restSignals_mLatch (s : CoreState xlen) : s.restSignals.mLatch = s.mLatch := rfl
@[simp] theorem CoreState.restSignals_wLatch (s : CoreState xlen) : s.restSignals.wLatch = s.wLatch := rfl
@[simp] theorem CoreState.restSignals_clock (s : CoreState xlen) : s.restSignals.clock = s.clock := rfl
@[simp] theorem CoreState.restSignals_retired (s : CoreState xlen) : s.restSignals.retired = s.retired := rfl
@[simp] theorem CoreState.restSignals_status (s : CoreState xlen) : s.restSignals.status = s.status := rfl
@[simp] theorem CoreState.restSignals_inputs (s : CoreState xlen) : s.restSignals.inputs = s.inputs := rfl
@[simp] theorem CoreState.restSignals_signals (s : CoreState xlen) : s.restSignals.signals = Signals.rest := rfl

/-! ## State.raiseStall -/

@[simp] theorem CoreState.raiseStall_regs (s : CoreState xlen) : s.raiseStall.regs = s.regs := rfl
@[simp] theorem CoreState.raiseStall_dmem (s : CoreState xlen) : s.raiseStall.dmem = s.dmem := rfl
@[simp] theorem CoreState.raiseStall_zeroFlag (s : CoreState xlen) : s.raiseStall.zeroFlag = s.zeroFlag := rfl
@[simp] theorem CoreState.raiseStall_positiveFlag (s : CoreState xlen) : s.raiseStall.positiveFlag = s.positiveFlag :=
    rfl
@[simp] theorem CoreState.raiseStall_pc (s : CoreState xlen) : s.raiseStall.pc = s.pc := rfl
@[simp] theorem CoreState.raiseStall_sb (s : CoreState xlen) : s.raiseStall.sb = s.sb := rfl
@[simp] theorem CoreState.raiseStall_bv (s : CoreState xlen) : s.raiseStall.bv = s.bv := rfl
@[simp] theorem CoreState.raiseStall_byp (s : CoreState xlen) : s.raiseStall.byp = s.byp := rfl
@[simp] theorem CoreState.raiseStall_fLatch (s : CoreState xlen) : s.raiseStall.fLatch = s.fLatch := rfl
@[simp] theorem CoreState.raiseStall_dLatch (s : CoreState xlen) : s.raiseStall.dLatch = s.dLatch := rfl
@[simp] theorem CoreState.raiseStall_eLatch (s : CoreState xlen) : s.raiseStall.eLatch = s.eLatch := rfl
@[simp] theorem CoreState.raiseStall_mLatch (s : CoreState xlen) : s.raiseStall.mLatch = s.mLatch := rfl
@[simp] theorem CoreState.raiseStall_wLatch (s : CoreState xlen) : s.raiseStall.wLatch = s.wLatch := rfl
@[simp] theorem CoreState.raiseStall_clock (s : CoreState xlen) : s.raiseStall.clock = s.clock := rfl
@[simp] theorem CoreState.raiseStall_retired (s : CoreState xlen) : s.raiseStall.retired = s.retired := rfl
@[simp] theorem CoreState.raiseStall_status (s : CoreState xlen) : s.raiseStall.status = s.status := rfl
@[simp] theorem CoreState.raiseStall_inputs (s : CoreState xlen) : s.raiseStall.inputs = s.inputs := rfl
@[simp] theorem CoreState.raiseStall_signals (s : CoreState xlen) : s.raiseStall.signals =
    { s.signals with stall := true } := rfl

/-! ## State.raiseFault -/

@[simp] theorem CoreState.raiseFault_regs (c : FaultCode) (st : FaultStage) (p : Word xlen) (s : CoreState xlen) :
    (s.raiseFault c st p).regs = s.regs := rfl
@[simp] theorem CoreState.raiseFault_dmem (c : FaultCode) (st : FaultStage) (p : Word xlen) (s : CoreState xlen) :
    (s.raiseFault c st p).dmem = s.dmem := rfl
@[simp] theorem CoreState.raiseFault_zeroFlag (c : FaultCode) (st : FaultStage) (p : Word xlen) (s : CoreState xlen) :
    (s.raiseFault c st p).zeroFlag = s.zeroFlag := rfl
@[simp] theorem CoreState.raiseFault_positiveFlag (c : FaultCode) (st : FaultStage) (p : Word xlen) (s :
    CoreState xlen) :
    (s.raiseFault c st p).positiveFlag = s.positiveFlag := rfl
@[simp] theorem CoreState.raiseFault_pc (c : FaultCode) (st : FaultStage) (p : Word xlen) (s : CoreState xlen) :
    (s.raiseFault c st p).pc = s.pc := rfl
@[simp] theorem CoreState.raiseFault_sb (c : FaultCode) (st : FaultStage) (p : Word xlen) (s : CoreState xlen) :
    (s.raiseFault c st p).sb = s.sb := rfl
@[simp] theorem CoreState.raiseFault_bv (c : FaultCode) (st : FaultStage) (p : Word xlen) (s : CoreState xlen) :
    (s.raiseFault c st p).bv = s.bv := rfl
@[simp] theorem CoreState.raiseFault_byp (c : FaultCode) (st : FaultStage) (p : Word xlen) (s : CoreState xlen) :
    (s.raiseFault c st p).byp = s.byp := rfl
@[simp] theorem CoreState.raiseFault_fLatch (c : FaultCode) (st : FaultStage) (p : Word xlen) (s : CoreState xlen) :
    (s.raiseFault c st p).fLatch = s.fLatch := rfl
@[simp] theorem CoreState.raiseFault_dLatch (c : FaultCode) (st : FaultStage) (p : Word xlen) (s : CoreState xlen) :
    (s.raiseFault c st p).dLatch = s.dLatch := rfl
@[simp] theorem CoreState.raiseFault_eLatch (c : FaultCode) (st : FaultStage) (p : Word xlen) (s : CoreState xlen) :
    (s.raiseFault c st p).eLatch = s.eLatch := rfl
@[simp] theorem CoreState.raiseFault_mLatch (c : FaultCode) (st : FaultStage) (p : Word xlen) (s : CoreState xlen) :
    (s.raiseFault c st p).mLatch = s.mLatch := rfl
@[simp] theorem CoreState.raiseFault_wLatch (c : FaultCode) (st : FaultStage) (p : Word xlen) (s : CoreState xlen) :
    (s.raiseFault c st p).wLatch = s.wLatch := rfl
@[simp] theorem CoreState.raiseFault_clock (c : FaultCode) (st : FaultStage) (p : Word xlen) (s : CoreState xlen) :
    (s.raiseFault c st p).clock = s.clock := rfl
@[simp] theorem CoreState.raiseFault_retired (c : FaultCode) (st : FaultStage) (p : Word xlen) (s : CoreState xlen) :
    (s.raiseFault c st p).retired = s.retired := rfl
@[simp] theorem CoreState.raiseFault_status (c : FaultCode) (st : FaultStage) (p : Word xlen) (s : CoreState xlen) :
    (s.raiseFault c st p).status = .faulted c st p := rfl
@[simp] theorem CoreState.raiseFault_inputs (c : FaultCode) (st : FaultStage) (p : Word xlen) (s : CoreState xlen) :
    (s.raiseFault c st p).inputs = s.inputs := rfl
@[simp] theorem CoreState.raiseFault_signals (c : FaultCode) (st : FaultStage) (p : Word xlen) (s : CoreState xlen) :
    (s.raiseFault c st p).signals = s.signals := rfl

/-! ## State.sendToExecute -/

@[simp] theorem CoreState.sendToExecute_regs (l : Latch xlen) (s : CoreState xlen) : (s.sendToExecute l).regs =
    s.regs := rfl
@[simp] theorem CoreState.sendToExecute_dmem (l : Latch xlen) (s : CoreState xlen) : (s.sendToExecute l).dmem =
    s.dmem := rfl
@[simp] theorem CoreState.sendToExecute_zeroFlag (l : Latch xlen) (s : CoreState xlen) :
    (s.sendToExecute l).zeroFlag = s.zeroFlag := rfl
@[simp] theorem CoreState.sendToExecute_positiveFlag (l : Latch xlen) (s : CoreState xlen) :
    (s.sendToExecute l).positiveFlag = s.positiveFlag := rfl
@[simp] theorem CoreState.sendToExecute_pc (l : Latch xlen) (s : CoreState xlen) : (s.sendToExecute l).pc = s.pc := rfl
@[simp] theorem CoreState.sendToExecute_sb (l : Latch xlen) (s : CoreState xlen) : (s.sendToExecute l).sb = s.sb := rfl
@[simp] theorem CoreState.sendToExecute_bv (l : Latch xlen) (s : CoreState xlen) : (s.sendToExecute l).bv = s.bv := rfl
@[simp] theorem CoreState.sendToExecute_byp (l : Latch xlen) (s : CoreState xlen) : (s.sendToExecute l).byp = s.byp :=
    rfl
@[simp] theorem CoreState.sendToExecute_fLatch (l : Latch xlen) (s : CoreState xlen) : (s.sendToExecute l).fLatch =
    s.fLatch := rfl
@[simp] theorem CoreState.sendToExecute_dLatch (l : Latch xlen) (s : CoreState xlen) : (s.sendToExecute l).dLatch =
    l.emptied := rfl
@[simp] theorem CoreState.sendToExecute_eLatch (l : Latch xlen) (s : CoreState xlen) : (s.sendToExecute l).eLatch =
    l.filled := rfl
@[simp] theorem CoreState.sendToExecute_mLatch (l : Latch xlen) (s : CoreState xlen) : (s.sendToExecute l).mLatch =
    s.mLatch := rfl
@[simp] theorem CoreState.sendToExecute_wLatch (l : Latch xlen) (s : CoreState xlen) : (s.sendToExecute l).wLatch =
    s.wLatch := rfl
@[simp] theorem CoreState.sendToExecute_clock (l : Latch xlen) (s : CoreState xlen) : (s.sendToExecute l).clock =
    s.clock := rfl
@[simp] theorem CoreState.sendToExecute_retired (l : Latch xlen) (s : CoreState xlen) : (s.sendToExecute l).retired =
    s.retired := rfl
@[simp] theorem CoreState.sendToExecute_status (l : Latch xlen) (s : CoreState xlen) : (s.sendToExecute l).status =
    s.status := rfl
@[simp] theorem CoreState.sendToExecute_inputs (l : Latch xlen) (s : CoreState xlen) : (s.sendToExecute l).inputs =
    s.inputs := rfl
@[simp] theorem CoreState.sendToExecute_signals (l : Latch xlen) (s : CoreState xlen) : (s.sendToExecute l).signals =
    s.signals := rfl

/-! ## State.sendToMemory -/

@[simp] theorem CoreState.sendToMemory_regs (l : Latch xlen) (s : CoreState xlen) : (s.sendToMemory l).regs =
    s.regs := rfl
@[simp] theorem CoreState.sendToMemory_dmem (l : Latch xlen) (s : CoreState xlen) : (s.sendToMemory l).dmem =
    s.dmem := rfl
@[simp] theorem CoreState.sendToMemory_zeroFlag (l : Latch xlen) (s : CoreState xlen) : (s.sendToMemory l).zeroFlag =
    s.zeroFlag := rfl
@[simp] theorem CoreState.sendToMemory_positiveFlag (l : Latch xlen) (s : CoreState xlen) :
    (s.sendToMemory l).positiveFlag = s.positiveFlag := rfl
@[simp] theorem CoreState.sendToMemory_pc (l : Latch xlen) (s : CoreState xlen) : (s.sendToMemory l).pc = s.pc := rfl
@[simp] theorem CoreState.sendToMemory_sb (l : Latch xlen) (s : CoreState xlen) : (s.sendToMemory l).sb = s.sb := rfl
@[simp] theorem CoreState.sendToMemory_bv (l : Latch xlen) (s : CoreState xlen) : (s.sendToMemory l).bv = s.bv := rfl
@[simp] theorem CoreState.sendToMemory_byp (l : Latch xlen) (s : CoreState xlen) : (s.sendToMemory l).byp = s.byp := rfl
@[simp] theorem CoreState.sendToMemory_fLatch (l : Latch xlen) (s : CoreState xlen) : (s.sendToMemory l).fLatch =
    s.fLatch := rfl
@[simp] theorem CoreState.sendToMemory_dLatch (l : Latch xlen) (s : CoreState xlen) : (s.sendToMemory l).dLatch =
    s.dLatch := rfl
@[simp] theorem CoreState.sendToMemory_eLatch (l : Latch xlen) (s : CoreState xlen) : (s.sendToMemory l).eLatch =
    l.emptied := rfl
@[simp] theorem CoreState.sendToMemory_mLatch (l : Latch xlen) (s : CoreState xlen) : (s.sendToMemory l).mLatch =
    l.filled := rfl
@[simp] theorem CoreState.sendToMemory_wLatch (l : Latch xlen) (s : CoreState xlen) : (s.sendToMemory l).wLatch =
    s.wLatch := rfl
@[simp] theorem CoreState.sendToMemory_clock (l : Latch xlen) (s : CoreState xlen) : (s.sendToMemory l).clock =
    s.clock := rfl
@[simp] theorem CoreState.sendToMemory_retired (l : Latch xlen) (s : CoreState xlen) : (s.sendToMemory l).retired =
    s.retired := rfl
@[simp] theorem CoreState.sendToMemory_status (l : Latch xlen) (s : CoreState xlen) : (s.sendToMemory l).status =
    s.status := rfl
@[simp] theorem CoreState.sendToMemory_inputs (l : Latch xlen) (s : CoreState xlen) : (s.sendToMemory l).inputs =
    s.inputs := rfl
@[simp] theorem CoreState.sendToMemory_signals (l : Latch xlen) (s : CoreState xlen) : (s.sendToMemory l).signals =
    s.signals := rfl

/-! ## State.sendToWriteback -/

@[simp] theorem CoreState.sendToWriteback_regs (l : Latch xlen) (s : CoreState xlen) : (s.sendToWriteback l).regs =
    s.regs := rfl
@[simp] theorem CoreState.sendToWriteback_dmem (l : Latch xlen) (s : CoreState xlen) : (s.sendToWriteback l).dmem =
    s.dmem := rfl
@[simp] theorem CoreState.sendToWriteback_zeroFlag (l : Latch xlen) (s : CoreState xlen) :
    (s.sendToWriteback l).zeroFlag = s.zeroFlag := rfl
@[simp] theorem CoreState.sendToWriteback_positiveFlag (l : Latch xlen) (s : CoreState xlen) :
    (s.sendToWriteback l).positiveFlag = s.positiveFlag := rfl
@[simp] theorem CoreState.sendToWriteback_pc (l : Latch xlen) (s : CoreState xlen) : (s.sendToWriteback l).pc =
    s.pc := rfl
@[simp] theorem CoreState.sendToWriteback_sb (l : Latch xlen) (s : CoreState xlen) : (s.sendToWriteback l).sb =
    s.sb := rfl
@[simp] theorem CoreState.sendToWriteback_bv (l : Latch xlen) (s : CoreState xlen) : (s.sendToWriteback l).bv =
    s.bv := rfl
@[simp] theorem CoreState.sendToWriteback_byp (l : Latch xlen) (s : CoreState xlen) : (s.sendToWriteback l).byp =
    s.byp := rfl
@[simp] theorem CoreState.sendToWriteback_fLatch (l : Latch xlen) (s : CoreState xlen) :
    (s.sendToWriteback l).fLatch = s.fLatch := rfl
@[simp] theorem CoreState.sendToWriteback_dLatch (l : Latch xlen) (s : CoreState xlen) :
    (s.sendToWriteback l).dLatch = s.dLatch := rfl
@[simp] theorem CoreState.sendToWriteback_eLatch (l : Latch xlen) (s : CoreState xlen) :
    (s.sendToWriteback l).eLatch = s.eLatch := rfl
@[simp] theorem CoreState.sendToWriteback_mLatch (l : Latch xlen) (s : CoreState xlen) :
    (s.sendToWriteback l).mLatch = l.emptied := rfl
@[simp] theorem CoreState.sendToWriteback_wLatch (l : Latch xlen) (s : CoreState xlen) :
    (s.sendToWriteback l).wLatch = l.filled := rfl
@[simp] theorem CoreState.sendToWriteback_clock (l : Latch xlen) (s : CoreState xlen) : (s.sendToWriteback l).clock =
    s.clock := rfl
@[simp] theorem CoreState.sendToWriteback_retired (l : Latch xlen) (s : CoreState xlen) :
    (s.sendToWriteback l).retired = s.retired := rfl
@[simp] theorem CoreState.sendToWriteback_status (l : Latch xlen) (s : CoreState xlen) :
    (s.sendToWriteback l).status = s.status := rfl
@[simp] theorem CoreState.sendToWriteback_inputs (l : Latch xlen) (s : CoreState xlen) :
    (s.sendToWriteback l).inputs = s.inputs := rfl
@[simp] theorem CoreState.sendToWriteback_signals (l : Latch xlen) (s : CoreState xlen) :
    (s.sendToWriteback l).signals = s.signals := rfl

/-! ## State.dropDecode -/

@[simp] theorem CoreState.dropDecode_regs (s : CoreState xlen) : s.dropDecode.regs = s.regs := rfl
@[simp] theorem CoreState.dropDecode_dmem (s : CoreState xlen) : s.dropDecode.dmem = s.dmem := rfl
@[simp] theorem CoreState.dropDecode_zeroFlag (s : CoreState xlen) : s.dropDecode.zeroFlag = s.zeroFlag := rfl
@[simp] theorem CoreState.dropDecode_positiveFlag (s : CoreState xlen) : s.dropDecode.positiveFlag = s.positiveFlag :=
    rfl
@[simp] theorem CoreState.dropDecode_pc (s : CoreState xlen) : s.dropDecode.pc = s.pc := rfl
@[simp] theorem CoreState.dropDecode_sb (s : CoreState xlen) : s.dropDecode.sb = s.sb := rfl
@[simp] theorem CoreState.dropDecode_bv (s : CoreState xlen) : s.dropDecode.bv = s.bv := rfl
@[simp] theorem CoreState.dropDecode_byp (s : CoreState xlen) : s.dropDecode.byp = s.byp := rfl
@[simp] theorem CoreState.dropDecode_fLatch (s : CoreState xlen) : s.dropDecode.fLatch = s.fLatch := rfl
@[simp] theorem CoreState.dropDecode_dLatch (s : CoreState xlen) : s.dropDecode.dLatch = s.dLatch.emptied := rfl
@[simp] theorem CoreState.dropDecode_eLatch (s : CoreState xlen) : s.dropDecode.eLatch = s.eLatch := rfl
@[simp] theorem CoreState.dropDecode_mLatch (s : CoreState xlen) : s.dropDecode.mLatch = s.mLatch := rfl
@[simp] theorem CoreState.dropDecode_wLatch (s : CoreState xlen) : s.dropDecode.wLatch = s.wLatch := rfl
@[simp] theorem CoreState.dropDecode_clock (s : CoreState xlen) : s.dropDecode.clock = s.clock := rfl
@[simp] theorem CoreState.dropDecode_retired (s : CoreState xlen) : s.dropDecode.retired = s.retired := rfl
@[simp] theorem CoreState.dropDecode_status (s : CoreState xlen) : s.dropDecode.status = s.status := rfl
@[simp] theorem CoreState.dropDecode_inputs (s : CoreState xlen) : s.dropDecode.inputs = s.inputs := rfl
@[simp] theorem CoreState.dropDecode_signals (s : CoreState xlen) : s.dropDecode.signals = s.signals := rfl

/-! ## State.markAll -/

@[simp] theorem CoreState.markAll_regs (rs : List RegIndex) (s : CoreState xlen) : (s.markAll rs).regs = s.regs := rfl
@[simp] theorem CoreState.markAll_dmem (rs : List RegIndex) (s : CoreState xlen) : (s.markAll rs).dmem = s.dmem := rfl
@[simp] theorem CoreState.markAll_zeroFlag (rs : List RegIndex) (s : CoreState xlen) : (s.markAll rs).zeroFlag =
    s.zeroFlag := rfl
@[simp] theorem CoreState.markAll_positiveFlag (rs : List RegIndex) (s : CoreState xlen) :
    (s.markAll rs).positiveFlag = s.positiveFlag := rfl
@[simp] theorem CoreState.markAll_pc (rs : List RegIndex) (s : CoreState xlen) : (s.markAll rs).pc = s.pc := rfl
@[simp] theorem CoreState.markAll_sb (rs : List RegIndex) (s : CoreState xlen) : (s.markAll rs).sb =
    Bank.setAll s.sb rs := rfl
@[simp] theorem CoreState.markAll_bv (rs : List RegIndex) (s : CoreState xlen) : (s.markAll rs).bv = s.bv := rfl
@[simp] theorem CoreState.markAll_byp (rs : List RegIndex) (s : CoreState xlen) : (s.markAll rs).byp = s.byp := rfl
@[simp] theorem CoreState.markAll_fLatch (rs : List RegIndex) (s : CoreState xlen) : (s.markAll rs).fLatch =
    s.fLatch := rfl
@[simp] theorem CoreState.markAll_dLatch (rs : List RegIndex) (s : CoreState xlen) : (s.markAll rs).dLatch =
    s.dLatch := rfl
@[simp] theorem CoreState.markAll_eLatch (rs : List RegIndex) (s : CoreState xlen) : (s.markAll rs).eLatch =
    s.eLatch := rfl
@[simp] theorem CoreState.markAll_mLatch (rs : List RegIndex) (s : CoreState xlen) : (s.markAll rs).mLatch =
    s.mLatch := rfl
@[simp] theorem CoreState.markAll_wLatch (rs : List RegIndex) (s : CoreState xlen) : (s.markAll rs).wLatch =
    s.wLatch := rfl
@[simp] theorem CoreState.markAll_clock (rs : List RegIndex) (s : CoreState xlen) : (s.markAll rs).clock = s.clock :=
    rfl
@[simp] theorem CoreState.markAll_retired (rs : List RegIndex) (s : CoreState xlen) : (s.markAll rs).retired =
    s.retired := rfl
@[simp] theorem CoreState.markAll_status (rs : List RegIndex) (s : CoreState xlen) : (s.markAll rs).status =
    s.status := rfl
@[simp] theorem CoreState.markAll_inputs (rs : List RegIndex) (s : CoreState xlen) : (s.markAll rs).inputs =
    s.inputs := rfl
@[simp] theorem CoreState.markAll_signals (rs : List RegIndex) (s : CoreState xlen) : (s.markAll rs).signals =
    s.signals := rfl

/-! ## State.writeBypass -/

@[simp] theorem CoreState.writeBypass_regs (r : RegIndex) (v : Word xlen) (s : CoreState xlen) :
    (s.writeBypass r v).regs = s.regs := rfl
@[simp] theorem CoreState.writeBypass_dmem (r : RegIndex) (v : Word xlen) (s : CoreState xlen) :
    (s.writeBypass r v).dmem = s.dmem := rfl
@[simp] theorem CoreState.writeBypass_zeroFlag (r : RegIndex) (v : Word xlen) (s : CoreState xlen) :
    (s.writeBypass r v).zeroFlag = s.zeroFlag := rfl
@[simp] theorem CoreState.writeBypass_positiveFlag (r : RegIndex) (v : Word xlen) (s : CoreState xlen) :
    (s.writeBypass r v).positiveFlag = s.positiveFlag := rfl
@[simp] theorem CoreState.writeBypass_pc (r : RegIndex) (v : Word xlen) (s : CoreState xlen) :
    (s.writeBypass r v).pc = s.pc := rfl
@[simp] theorem CoreState.writeBypass_sb (r : RegIndex) (v : Word xlen) (s : CoreState xlen) :
    (s.writeBypass r v).sb = s.sb := rfl
@[simp] theorem CoreState.writeBypass_bv (r : RegIndex) (v : Word xlen) (s : CoreState xlen) :
    (s.writeBypass r v).bv = Bank.put s.bv r true := rfl
@[simp] theorem CoreState.writeBypass_byp (r : RegIndex) (v : Word xlen) (s : CoreState xlen) :
    (s.writeBypass r v).byp = Bank.put s.byp r v := rfl
@[simp] theorem CoreState.writeBypass_fLatch (r : RegIndex) (v : Word xlen) (s : CoreState xlen) :
    (s.writeBypass r v).fLatch = s.fLatch := rfl
@[simp] theorem CoreState.writeBypass_dLatch (r : RegIndex) (v : Word xlen) (s : CoreState xlen) :
    (s.writeBypass r v).dLatch = s.dLatch := rfl
@[simp] theorem CoreState.writeBypass_eLatch (r : RegIndex) (v : Word xlen) (s : CoreState xlen) :
    (s.writeBypass r v).eLatch = s.eLatch := rfl
@[simp] theorem CoreState.writeBypass_mLatch (r : RegIndex) (v : Word xlen) (s : CoreState xlen) :
    (s.writeBypass r v).mLatch = s.mLatch := rfl
@[simp] theorem CoreState.writeBypass_wLatch (r : RegIndex) (v : Word xlen) (s : CoreState xlen) :
    (s.writeBypass r v).wLatch = s.wLatch := rfl
@[simp] theorem CoreState.writeBypass_clock (r : RegIndex) (v : Word xlen) (s : CoreState xlen) :
    (s.writeBypass r v).clock = s.clock := rfl
@[simp] theorem CoreState.writeBypass_retired (r : RegIndex) (v : Word xlen) (s : CoreState xlen) :
    (s.writeBypass r v).retired = s.retired := rfl
@[simp] theorem CoreState.writeBypass_status (r : RegIndex) (v : Word xlen) (s : CoreState xlen) :
    (s.writeBypass r v).status = s.status := rfl
@[simp] theorem CoreState.writeBypass_inputs (r : RegIndex) (v : Word xlen) (s : CoreState xlen) :
    (s.writeBypass r v).inputs = s.inputs := rfl
@[simp] theorem CoreState.writeBypass_signals (r : RegIndex) (v : Word xlen) (s : CoreState xlen) :
    (s.writeBypass r v).signals = s.signals := rfl

/-! ## State.commitTo -/

@[simp] theorem CoreState.commitTo_regs (r : RegIndex) (v : Word xlen) (s : CoreState xlen) :
    (s.commitTo r v).regs = Bank.put s.regs r v := rfl
@[simp] theorem CoreState.commitTo_dmem (r : RegIndex) (v : Word xlen) (s : CoreState xlen) : (s.commitTo r v).dmem =
    s.dmem := rfl
@[simp] theorem CoreState.commitTo_zeroFlag (r : RegIndex) (v : Word xlen) (s : CoreState xlen) :
    (s.commitTo r v).zeroFlag = s.zeroFlag := rfl
@[simp] theorem CoreState.commitTo_positiveFlag (r : RegIndex) (v : Word xlen) (s : CoreState xlen) :
    (s.commitTo r v).positiveFlag = s.positiveFlag := rfl
@[simp] theorem CoreState.commitTo_pc (r : RegIndex) (v : Word xlen) (s : CoreState xlen) : (s.commitTo r v).pc =
    s.pc := rfl
@[simp] theorem CoreState.commitTo_sb (r : RegIndex) (v : Word xlen) (s : CoreState xlen) :
    (s.commitTo r v).sb = Bank.put s.sb r false := rfl
@[simp] theorem CoreState.commitTo_bv (r : RegIndex) (v : Word xlen) (s : CoreState xlen) :
    (s.commitTo r v).bv = match s.inputs.cfg.bypassExpiry with
      | .persistent => s.bv
      | .clearAtCommit => Bank.put s.bv r false := rfl
@[simp] theorem CoreState.commitTo_byp (r : RegIndex) (v : Word xlen) (s : CoreState xlen) : (s.commitTo r v).byp =
    s.byp := rfl
@[simp] theorem CoreState.commitTo_fLatch (r : RegIndex) (v : Word xlen) (s : CoreState xlen) :
    (s.commitTo r v).fLatch = s.fLatch := rfl
@[simp] theorem CoreState.commitTo_dLatch (r : RegIndex) (v : Word xlen) (s : CoreState xlen) :
    (s.commitTo r v).dLatch = s.dLatch := rfl
@[simp] theorem CoreState.commitTo_eLatch (r : RegIndex) (v : Word xlen) (s : CoreState xlen) :
    (s.commitTo r v).eLatch = s.eLatch := rfl
@[simp] theorem CoreState.commitTo_mLatch (r : RegIndex) (v : Word xlen) (s : CoreState xlen) :
    (s.commitTo r v).mLatch = s.mLatch := rfl
@[simp] theorem CoreState.commitTo_wLatch (r : RegIndex) (v : Word xlen) (s : CoreState xlen) :
    (s.commitTo r v).wLatch = s.wLatch := rfl
@[simp] theorem CoreState.commitTo_clock (r : RegIndex) (v : Word xlen) (s : CoreState xlen) :
    (s.commitTo r v).clock = s.clock := rfl
@[simp] theorem CoreState.commitTo_retired (r : RegIndex) (v : Word xlen) (s : CoreState xlen) :
    (s.commitTo r v).retired = s.retired := rfl
@[simp] theorem CoreState.commitTo_status (r : RegIndex) (v : Word xlen) (s : CoreState xlen) :
    (s.commitTo r v).status = s.status := rfl
@[simp] theorem CoreState.commitTo_inputs (r : RegIndex) (v : Word xlen) (s : CoreState xlen) :
    (s.commitTo r v).inputs = s.inputs := rfl
@[simp] theorem CoreState.commitTo_signals (r : RegIndex) (v : Word xlen) (s : CoreState xlen) :
    (s.commitTo r v).signals = s.signals := rfl

/-! ## State.retire -/

@[simp] theorem CoreState.retire_regs (s : CoreState xlen) : s.retire.regs = s.regs := rfl
@[simp] theorem CoreState.retire_dmem (s : CoreState xlen) : s.retire.dmem = s.dmem := rfl
@[simp] theorem CoreState.retire_zeroFlag (s : CoreState xlen) : s.retire.zeroFlag = s.zeroFlag := rfl
@[simp] theorem CoreState.retire_positiveFlag (s : CoreState xlen) : s.retire.positiveFlag = s.positiveFlag := rfl
@[simp] theorem CoreState.retire_pc (s : CoreState xlen) : s.retire.pc = s.pc := rfl
@[simp] theorem CoreState.retire_sb (s : CoreState xlen) : s.retire.sb = s.sb := rfl
@[simp] theorem CoreState.retire_bv (s : CoreState xlen) : s.retire.bv = s.bv := rfl
@[simp] theorem CoreState.retire_byp (s : CoreState xlen) : s.retire.byp = s.byp := rfl
@[simp] theorem CoreState.retire_fLatch (s : CoreState xlen) : s.retire.fLatch = s.fLatch := rfl
@[simp] theorem CoreState.retire_dLatch (s : CoreState xlen) : s.retire.dLatch = s.dLatch := rfl
@[simp] theorem CoreState.retire_eLatch (s : CoreState xlen) : s.retire.eLatch = s.eLatch := rfl
@[simp] theorem CoreState.retire_mLatch (s : CoreState xlen) : s.retire.mLatch = s.mLatch := rfl
@[simp] theorem CoreState.retire_wLatch (s : CoreState xlen) : s.retire.wLatch = s.wLatch.emptied := rfl
@[simp] theorem CoreState.retire_clock (s : CoreState xlen) : s.retire.clock = s.clock := rfl
@[simp] theorem CoreState.retire_retired (s : CoreState xlen) : s.retire.retired = s.retired + 1 := rfl
@[simp] theorem CoreState.retire_status (s : CoreState xlen) : s.retire.status = s.status := rfl
@[simp] theorem CoreState.retire_inputs (s : CoreState xlen) : s.retire.inputs = s.inputs := rfl
@[simp] theorem CoreState.retire_signals (s : CoreState xlen) : s.retire.signals = s.signals := rfl

/-! ## State.countTick -/

@[simp] theorem CoreState.countTick_regs (s : CoreState xlen) : s.countTick.regs = s.regs := rfl
@[simp] theorem CoreState.countTick_dmem (s : CoreState xlen) : s.countTick.dmem = s.dmem := rfl
@[simp] theorem CoreState.countTick_zeroFlag (s : CoreState xlen) : s.countTick.zeroFlag = s.zeroFlag := rfl
@[simp] theorem CoreState.countTick_positiveFlag (s : CoreState xlen) : s.countTick.positiveFlag = s.positiveFlag := rfl
@[simp] theorem CoreState.countTick_pc (s : CoreState xlen) : s.countTick.pc = s.pc := rfl
@[simp] theorem CoreState.countTick_sb (s : CoreState xlen) : s.countTick.sb = s.sb := rfl
@[simp] theorem CoreState.countTick_bv (s : CoreState xlen) : s.countTick.bv = s.bv := rfl
@[simp] theorem CoreState.countTick_byp (s : CoreState xlen) : s.countTick.byp = s.byp := rfl
@[simp] theorem CoreState.countTick_fLatch (s : CoreState xlen) : s.countTick.fLatch = s.fLatch := rfl
@[simp] theorem CoreState.countTick_dLatch (s : CoreState xlen) : s.countTick.dLatch = s.dLatch := rfl
@[simp] theorem CoreState.countTick_eLatch (s : CoreState xlen) : s.countTick.eLatch = s.eLatch := rfl
@[simp] theorem CoreState.countTick_mLatch (s : CoreState xlen) : s.countTick.mLatch = s.mLatch := rfl
@[simp] theorem CoreState.countTick_wLatch (s : CoreState xlen) : s.countTick.wLatch = s.wLatch := rfl
@[simp] theorem CoreState.countTick_clock (s : CoreState xlen) : s.countTick.clock = s.clock + 1 := rfl
@[simp] theorem CoreState.countTick_retired (s : CoreState xlen) : s.countTick.retired = s.retired := rfl
@[simp] theorem CoreState.countTick_status (s : CoreState xlen) : s.countTick.status = s.status := rfl
@[simp] theorem CoreState.countTick_inputs (s : CoreState xlen) : s.countTick.inputs = s.inputs := rfl
@[simp] theorem CoreState.countTick_signals (s : CoreState xlen) : s.countTick.signals = s.signals := rfl

/-! ## State.halt -/

@[simp] theorem CoreState.halt_regs (s : CoreState xlen) : s.halt.regs = s.regs := rfl
@[simp] theorem CoreState.halt_dmem (s : CoreState xlen) : s.halt.dmem = s.dmem := rfl
@[simp] theorem CoreState.halt_zeroFlag (s : CoreState xlen) : s.halt.zeroFlag = s.zeroFlag := rfl
@[simp] theorem CoreState.halt_positiveFlag (s : CoreState xlen) : s.halt.positiveFlag = s.positiveFlag := rfl
@[simp] theorem CoreState.halt_pc (s : CoreState xlen) : s.halt.pc = s.pc := rfl
@[simp] theorem CoreState.halt_sb (s : CoreState xlen) : s.halt.sb = s.sb := rfl
@[simp] theorem CoreState.halt_bv (s : CoreState xlen) : s.halt.bv = s.bv := rfl
@[simp] theorem CoreState.halt_byp (s : CoreState xlen) : s.halt.byp = s.byp := rfl
@[simp] theorem CoreState.halt_fLatch (s : CoreState xlen) : s.halt.fLatch = s.fLatch := rfl
@[simp] theorem CoreState.halt_dLatch (s : CoreState xlen) : s.halt.dLatch = s.dLatch := rfl
@[simp] theorem CoreState.halt_eLatch (s : CoreState xlen) : s.halt.eLatch = s.eLatch := rfl
@[simp] theorem CoreState.halt_mLatch (s : CoreState xlen) : s.halt.mLatch = s.mLatch := rfl
@[simp] theorem CoreState.halt_wLatch (s : CoreState xlen) : s.halt.wLatch = s.wLatch := rfl
@[simp] theorem CoreState.halt_clock (s : CoreState xlen) : s.halt.clock = s.clock := rfl
@[simp] theorem CoreState.halt_retired (s : CoreState xlen) : s.halt.retired = s.retired := rfl
@[simp] theorem CoreState.halt_status (s : CoreState xlen) : s.halt.status = .halted := rfl
@[simp] theorem CoreState.halt_inputs (s : CoreState xlen) : s.halt.inputs = s.inputs := rfl
@[simp] theorem CoreState.halt_signals (s : CoreState xlen) : s.halt.signals = s.signals := rfl

/-! ## State.exhaust -/

@[simp] theorem CoreState.exhaust_regs (s : CoreState xlen) : s.exhaust.regs = s.regs := rfl
@[simp] theorem CoreState.exhaust_dmem (s : CoreState xlen) : s.exhaust.dmem = s.dmem := rfl
@[simp] theorem CoreState.exhaust_zeroFlag (s : CoreState xlen) : s.exhaust.zeroFlag = s.zeroFlag := rfl
@[simp] theorem CoreState.exhaust_positiveFlag (s : CoreState xlen) : s.exhaust.positiveFlag = s.positiveFlag := rfl
@[simp] theorem CoreState.exhaust_pc (s : CoreState xlen) : s.exhaust.pc = s.pc := rfl
@[simp] theorem CoreState.exhaust_sb (s : CoreState xlen) : s.exhaust.sb = s.sb := rfl
@[simp] theorem CoreState.exhaust_bv (s : CoreState xlen) : s.exhaust.bv = s.bv := rfl
@[simp] theorem CoreState.exhaust_byp (s : CoreState xlen) : s.exhaust.byp = s.byp := rfl
@[simp] theorem CoreState.exhaust_fLatch (s : CoreState xlen) : s.exhaust.fLatch = s.fLatch := rfl
@[simp] theorem CoreState.exhaust_dLatch (s : CoreState xlen) : s.exhaust.dLatch = s.dLatch := rfl
@[simp] theorem CoreState.exhaust_eLatch (s : CoreState xlen) : s.exhaust.eLatch = s.eLatch := rfl
@[simp] theorem CoreState.exhaust_mLatch (s : CoreState xlen) : s.exhaust.mLatch = s.mLatch := rfl
@[simp] theorem CoreState.exhaust_wLatch (s : CoreState xlen) : s.exhaust.wLatch = s.wLatch := rfl
@[simp] theorem CoreState.exhaust_clock (s : CoreState xlen) : s.exhaust.clock = s.clock := rfl
@[simp] theorem CoreState.exhaust_retired (s : CoreState xlen) : s.exhaust.retired = s.retired := rfl
@[simp] theorem CoreState.exhaust_status (s : CoreState xlen) : s.exhaust.status = .exhausted := rfl
@[simp] theorem CoreState.exhaust_inputs (s : CoreState xlen) : s.exhaust.inputs = s.inputs := rfl
@[simp] theorem CoreState.exhaust_signals (s : CoreState xlen) : s.exhaust.signals = s.signals := rfl

/-! ## State.redirect -/

@[simp] theorem CoreState.redirect_regs (a : Word xlen) (s : CoreState xlen) : (s.redirect a).regs = s.regs := rfl
@[simp] theorem CoreState.redirect_dmem (a : Word xlen) (s : CoreState xlen) : (s.redirect a).dmem = s.dmem := rfl
@[simp] theorem CoreState.redirect_zeroFlag (a : Word xlen) (s : CoreState xlen) : (s.redirect a).zeroFlag =
    s.zeroFlag := rfl
@[simp] theorem CoreState.redirect_positiveFlag (a : Word xlen) (s : CoreState xlen) :
    (s.redirect a).positiveFlag = s.positiveFlag := rfl
@[simp] theorem CoreState.redirect_pc (a : Word xlen) (s : CoreState xlen) : (s.redirect a).pc = a := rfl
@[simp] theorem CoreState.redirect_sb (a : Word xlen) (s : CoreState xlen) : (s.redirect a).sb = s.sb := rfl
@[simp] theorem CoreState.redirect_bv (a : Word xlen) (s : CoreState xlen) : (s.redirect a).bv = s.bv := rfl
@[simp] theorem CoreState.redirect_byp (a : Word xlen) (s : CoreState xlen) : (s.redirect a).byp = s.byp := rfl
@[simp] theorem CoreState.redirect_fLatch (a : Word xlen) (s : CoreState xlen) : (s.redirect a).fLatch =
    s.fLatch.filled := rfl
@[simp] theorem CoreState.redirect_dLatch (a : Word xlen) (s : CoreState xlen) : (s.redirect a).dLatch =
    s.dLatch.emptied := rfl
@[simp] theorem CoreState.redirect_eLatch (a : Word xlen) (s : CoreState xlen) : (s.redirect a).eLatch = s.eLatch := rfl
@[simp] theorem CoreState.redirect_mLatch (a : Word xlen) (s : CoreState xlen) : (s.redirect a).mLatch = s.mLatch := rfl
@[simp] theorem CoreState.redirect_wLatch (a : Word xlen) (s : CoreState xlen) : (s.redirect a).wLatch = s.wLatch := rfl
@[simp] theorem CoreState.redirect_clock (a : Word xlen) (s : CoreState xlen) : (s.redirect a).clock = s.clock := rfl
@[simp] theorem CoreState.redirect_retired (a : Word xlen) (s : CoreState xlen) : (s.redirect a).retired =
    s.retired := rfl
@[simp] theorem CoreState.redirect_status (a : Word xlen) (s : CoreState xlen) : (s.redirect a).status = s.status := rfl
@[simp] theorem CoreState.redirect_inputs (a : Word xlen) (s : CoreState xlen) : (s.redirect a).inputs = s.inputs := rfl
@[simp] theorem CoreState.redirect_signals (a : Word xlen) (s : CoreState xlen) :
    (s.redirect a).signals = { s.signals with redirect := true } := rfl

/-! ## State.holdRecord -/

@[simp] theorem CoreState.holdRecord_regs (w : RecordWord) (s : CoreState xlen) : (s.holdRecord w).regs = s.regs := rfl
@[simp] theorem CoreState.holdRecord_dmem (w : RecordWord) (s : CoreState xlen) : (s.holdRecord w).dmem = s.dmem := rfl
@[simp] theorem CoreState.holdRecord_zeroFlag (w : RecordWord) (s : CoreState xlen) : (s.holdRecord w).zeroFlag =
    s.zeroFlag := rfl
@[simp] theorem CoreState.holdRecord_positiveFlag (w : RecordWord) (s : CoreState xlen) :
    (s.holdRecord w).positiveFlag = s.positiveFlag := rfl
@[simp] theorem CoreState.holdRecord_pc (w : RecordWord) (s : CoreState xlen) : (s.holdRecord w).pc = s.pc := rfl
@[simp] theorem CoreState.holdRecord_sb (w : RecordWord) (s : CoreState xlen) : (s.holdRecord w).sb = s.sb := rfl
@[simp] theorem CoreState.holdRecord_bv (w : RecordWord) (s : CoreState xlen) : (s.holdRecord w).bv = s.bv := rfl
@[simp] theorem CoreState.holdRecord_byp (w : RecordWord) (s : CoreState xlen) : (s.holdRecord w).byp = s.byp := rfl
@[simp] theorem CoreState.holdRecord_fLatch (w : RecordWord) (s : CoreState xlen) :
    (s.holdRecord w).fLatch = s.fLatch.loadRecord w s.pc := rfl
@[simp] theorem CoreState.holdRecord_dLatch (w : RecordWord) (s : CoreState xlen) : (s.holdRecord w).dLatch =
    s.dLatch := rfl
@[simp] theorem CoreState.holdRecord_eLatch (w : RecordWord) (s : CoreState xlen) : (s.holdRecord w).eLatch =
    s.eLatch := rfl
@[simp] theorem CoreState.holdRecord_mLatch (w : RecordWord) (s : CoreState xlen) : (s.holdRecord w).mLatch =
    s.mLatch := rfl
@[simp] theorem CoreState.holdRecord_wLatch (w : RecordWord) (s : CoreState xlen) : (s.holdRecord w).wLatch =
    s.wLatch := rfl
@[simp] theorem CoreState.holdRecord_clock (w : RecordWord) (s : CoreState xlen) : (s.holdRecord w).clock = s.clock :=
    rfl
@[simp] theorem CoreState.holdRecord_retired (w : RecordWord) (s : CoreState xlen) : (s.holdRecord w).retired =
    s.retired := rfl
@[simp] theorem CoreState.holdRecord_status (w : RecordWord) (s : CoreState xlen) : (s.holdRecord w).status =
    s.status := rfl
@[simp] theorem CoreState.holdRecord_inputs (w : RecordWord) (s : CoreState xlen) : (s.holdRecord w).inputs =
    s.inputs := rfl
@[simp] theorem CoreState.holdRecord_signals (w : RecordWord) (s : CoreState xlen) : (s.holdRecord w).signals =
    s.signals := rfl

/-! ## State.fetchRecord -/

@[simp] theorem CoreState.fetchRecord_regs (w : RecordWord) (s : CoreState xlen) : (s.fetchRecord w).regs = s.regs :=
    rfl
@[simp] theorem CoreState.fetchRecord_dmem (w : RecordWord) (s : CoreState xlen) : (s.fetchRecord w).dmem = s.dmem :=
    rfl
@[simp] theorem CoreState.fetchRecord_zeroFlag (w : RecordWord) (s : CoreState xlen) :
    (s.fetchRecord w).zeroFlag = s.zeroFlag := rfl
@[simp] theorem CoreState.fetchRecord_positiveFlag (w : RecordWord) (s : CoreState xlen) :
    (s.fetchRecord w).positiveFlag = s.positiveFlag := rfl
@[simp] theorem CoreState.fetchRecord_pc (w : RecordWord) (s : CoreState xlen) : (s.fetchRecord w).pc = s.pc := rfl
@[simp] theorem CoreState.fetchRecord_sb (w : RecordWord) (s : CoreState xlen) : (s.fetchRecord w).sb = s.sb := rfl
@[simp] theorem CoreState.fetchRecord_bv (w : RecordWord) (s : CoreState xlen) : (s.fetchRecord w).bv = s.bv := rfl
@[simp] theorem CoreState.fetchRecord_byp (w : RecordWord) (s : CoreState xlen) : (s.fetchRecord w).byp = s.byp := rfl
@[simp] theorem CoreState.fetchRecord_fLatch (w : RecordWord) (s : CoreState xlen) :
    (s.fetchRecord w).fLatch = { s.fLatch.loadRecord w s.pc with
      rs1Value := 0, rs2Value := 0, resultBuffer := 0, newResultBuffer := 0, memoryAddress := 0 } := rfl
@[simp] theorem CoreState.fetchRecord_dLatch (w : RecordWord) (s : CoreState xlen) : (s.fetchRecord w).dLatch =
    s.dLatch := rfl
@[simp] theorem CoreState.fetchRecord_eLatch (w : RecordWord) (s : CoreState xlen) : (s.fetchRecord w).eLatch =
    s.eLatch := rfl
@[simp] theorem CoreState.fetchRecord_mLatch (w : RecordWord) (s : CoreState xlen) : (s.fetchRecord w).mLatch =
    s.mLatch := rfl
@[simp] theorem CoreState.fetchRecord_wLatch (w : RecordWord) (s : CoreState xlen) : (s.fetchRecord w).wLatch =
    s.wLatch := rfl
@[simp] theorem CoreState.fetchRecord_clock (w : RecordWord) (s : CoreState xlen) : (s.fetchRecord w).clock =
    s.clock := rfl
@[simp] theorem CoreState.fetchRecord_retired (w : RecordWord) (s : CoreState xlen) : (s.fetchRecord w).retired =
    s.retired := rfl
@[simp] theorem CoreState.fetchRecord_status (w : RecordWord) (s : CoreState xlen) : (s.fetchRecord w).status =
    s.status := rfl
@[simp] theorem CoreState.fetchRecord_inputs (w : RecordWord) (s : CoreState xlen) : (s.fetchRecord w).inputs =
    s.inputs := rfl
@[simp] theorem CoreState.fetchRecord_signals (w : RecordWord) (s : CoreState xlen) : (s.fetchRecord w).signals =
    s.signals := rfl

/-! ## State.deliver -/

@[simp] theorem CoreState.deliver_regs (s : CoreState xlen) : s.deliver.regs = s.regs := rfl
@[simp] theorem CoreState.deliver_dmem (s : CoreState xlen) : s.deliver.dmem = s.dmem := rfl
@[simp] theorem CoreState.deliver_zeroFlag (s : CoreState xlen) : s.deliver.zeroFlag = s.zeroFlag := rfl
@[simp] theorem CoreState.deliver_positiveFlag (s : CoreState xlen) : s.deliver.positiveFlag = s.positiveFlag := rfl
@[simp] theorem CoreState.deliver_pc (s : CoreState xlen) :
    s.deliver.pc = addw s.pc (BitVec.ofNat xlen s.inputs.cfg.insnWidth) := rfl
@[simp] theorem CoreState.deliver_sb (s : CoreState xlen) : s.deliver.sb = s.sb := rfl
@[simp] theorem CoreState.deliver_bv (s : CoreState xlen) : s.deliver.bv = s.bv := rfl
@[simp] theorem CoreState.deliver_byp (s : CoreState xlen) : s.deliver.byp = s.byp := rfl
@[simp] theorem CoreState.deliver_fLatch (s : CoreState xlen) : s.deliver.fLatch = s.fLatch := rfl
@[simp] theorem CoreState.deliver_dLatch (s : CoreState xlen) : s.deliver.dLatch = s.fLatch.filled := rfl
@[simp] theorem CoreState.deliver_eLatch (s : CoreState xlen) : s.deliver.eLatch = s.eLatch := rfl
@[simp] theorem CoreState.deliver_mLatch (s : CoreState xlen) : s.deliver.mLatch = s.mLatch := rfl
@[simp] theorem CoreState.deliver_wLatch (s : CoreState xlen) : s.deliver.wLatch = s.wLatch := rfl
@[simp] theorem CoreState.deliver_clock (s : CoreState xlen) : s.deliver.clock = s.clock := rfl
@[simp] theorem CoreState.deliver_retired (s : CoreState xlen) : s.deliver.retired = s.retired := rfl
@[simp] theorem CoreState.deliver_status (s : CoreState xlen) : s.deliver.status = s.status := rfl
@[simp] theorem CoreState.deliver_inputs (s : CoreState xlen) : s.deliver.inputs = s.inputs := rfl
@[simp] theorem CoreState.deliver_signals (s : CoreState xlen) : s.deliver.signals = s.signals := rfl

/-! ## State.stopFetch -/

@[simp] theorem CoreState.stopFetch_regs (s : CoreState xlen) : s.stopFetch.regs = s.regs := rfl
@[simp] theorem CoreState.stopFetch_dmem (s : CoreState xlen) : s.stopFetch.dmem = s.dmem := rfl
@[simp] theorem CoreState.stopFetch_zeroFlag (s : CoreState xlen) : s.stopFetch.zeroFlag = s.zeroFlag := rfl
@[simp] theorem CoreState.stopFetch_positiveFlag (s : CoreState xlen) : s.stopFetch.positiveFlag = s.positiveFlag := rfl
@[simp] theorem CoreState.stopFetch_pc (s : CoreState xlen) : s.stopFetch.pc = s.pc := rfl
@[simp] theorem CoreState.stopFetch_sb (s : CoreState xlen) : s.stopFetch.sb = s.sb := rfl
@[simp] theorem CoreState.stopFetch_bv (s : CoreState xlen) : s.stopFetch.bv = s.bv := rfl
@[simp] theorem CoreState.stopFetch_byp (s : CoreState xlen) : s.stopFetch.byp = s.byp := rfl
@[simp] theorem CoreState.stopFetch_fLatch (s : CoreState xlen) : s.stopFetch.fLatch = s.fLatch.emptied := rfl
@[simp] theorem CoreState.stopFetch_dLatch (s : CoreState xlen) : s.stopFetch.dLatch = s.dLatch := rfl
@[simp] theorem CoreState.stopFetch_eLatch (s : CoreState xlen) : s.stopFetch.eLatch = s.eLatch := rfl
@[simp] theorem CoreState.stopFetch_mLatch (s : CoreState xlen) : s.stopFetch.mLatch = s.mLatch := rfl
@[simp] theorem CoreState.stopFetch_wLatch (s : CoreState xlen) : s.stopFetch.wLatch = s.wLatch := rfl
@[simp] theorem CoreState.stopFetch_clock (s : CoreState xlen) : s.stopFetch.clock = s.clock := rfl
@[simp] theorem CoreState.stopFetch_retired (s : CoreState xlen) : s.stopFetch.retired = s.retired := rfl
@[simp] theorem CoreState.stopFetch_status (s : CoreState xlen) : s.stopFetch.status = s.status := rfl
@[simp] theorem CoreState.stopFetch_inputs (s : CoreState xlen) : s.stopFetch.inputs = s.inputs := rfl
@[simp] theorem CoreState.stopFetch_signals (s : CoreState xlen) : s.stopFetch.signals = s.signals := rfl

end Sys2Proof.Machine
end

