-- ==== Sys2Proof/Laws/Memory.lean ====
section
/-!
SUPPORT. The data memory: reading after writing, and the canonical form, which every memory operation keeps.
-/

namespace Sys2Proof.Machine

variable {xlen : Nat}

theorem Memory.allAbove_iff {a : Nat} {m : Memory xlen} : Memory.allAbove a m = true ↔ ∀ c ∈ m, a < c.1 := by
  simp [Memory.allAbove]

theorem Memory.wf_cons {a : Nat} {v : Word xlen} {rest : Memory xlen} :
    Memory.wf ((a, v) :: rest) = true ↔ v ≠ 0 ∧ (∀ c ∈ rest, a < c.1) ∧ Memory.wf rest = true := by
  simp [Memory.wf, Memory.allAbove_iff, and_assoc]

/-- An index below every listed one reads as 0. -/
theorem Memory.read_of_above {a : Nat} {m : Memory xlen} (h : ∀ c ∈ m, a < c.1) : Memory.read m a = 0 := by
  induction m with
  | nil => rfl
  | cons c rest ih =>
    have hc : a < c.1 := h c (by simp)
    have hne : a ≠ c.1 := by omega
    simp only [Memory.read, hne, if_false]
    exact ih fun d hd => h d (by simp [hd])

/-- A write keeps an upper bound that the written index meets too. -/
theorem Memory.write_below {n a : Nat} {v : Word xlen} {m : Memory xlen} (ha : a < n) (h : ∀ c ∈ m, c.1 < n) :
    ∀ c ∈ Memory.write m a v, c.1 < n := by
  induction m with
  | nil =>
    intro c hc
    simp only [Memory.write] at hc
    split_ifs at hc
    · simp at hc
    · rw [List.mem_singleton.mp hc]
      exact ha
  | cons d rest ih =>
    obtain ⟨hd, hr⟩ : d.1 < n ∧ ∀ c ∈ rest, c.1 < n := by simpa using h
    intro c hc
    simp only [Memory.write] at hc
    split_ifs at hc <;> try rw [List.mem_cons] at hc
    · rcases hc with rfl | hc
      exacts [hd, hr _ hc]
    · rcases hc with rfl | hc
      · exact ha
      · rcases List.mem_cons.mp hc with rfl | hc
        exacts [hd, hr _ hc]
    · exact hr _ hc
    · rcases hc with rfl | hc
      exacts [ha, hr _ hc]
    · rcases hc with rfl | hc
      exacts [hd, ih hr _ hc]

/-- A write keeps a lower bound that the written index meets too. -/
theorem Memory.write_above {n a : Nat} {v : Word xlen} {m : Memory xlen} (ha : n < a) (h : ∀ c ∈ m, n < c.1) :
    ∀ c ∈ Memory.write m a v, n < c.1 := by
  induction m with
  | nil =>
    intro c hc
    simp only [Memory.write] at hc
    split_ifs at hc
    · simp at hc
    · rw [List.mem_singleton.mp hc]
      exact ha
  | cons d rest ih =>
    obtain ⟨hd, hr⟩ : n < d.1 ∧ ∀ c ∈ rest, n < c.1 := by simpa using h
    intro c hc
    simp only [Memory.write] at hc
    split_ifs at hc <;> try rw [List.mem_cons] at hc
    · rcases hc with rfl | hc
      exacts [hd, hr _ hc]
    · rcases hc with rfl | hc
      · exact ha
      · rcases List.mem_cons.mp hc with rfl | hc
        exacts [hd, hr _ hc]
    · exact hr _ hc
    · rcases hc with rfl | hc
      exacts [ha, hr _ hc]
    · rcases hc with rfl | hc
      exacts [hd, ih hr _ hc]

/-- A write keeps the canonical form. -/
theorem Memory.write_wf {m : Memory xlen} (a : Nat) (v : Word xlen) (h : Memory.wf m = true) :
    Memory.wf (Memory.write m a v) = true := by
  induction m with
  | nil =>
    simp only [Memory.write]
    split_ifs with hv
    · rfl
    · exact Memory.wf_cons.mpr ⟨hv, by simp, rfl⟩
  | cons c rest ih =>
    obtain ⟨b, u⟩ := c
    obtain ⟨hu, hb, hr⟩ := Memory.wf_cons.mp h
    simp only [Memory.write]
    split_ifs with h1 h2 h3 h4
    · exact h
    · refine Memory.wf_cons.mpr ⟨h2, ?_, h⟩
      intro c hc
      rcases List.mem_cons.mp hc with rfl | hc
      exacts [h1, Nat.lt_trans h1 (hb c hc)]
    · exact hr
    · exact Memory.wf_cons.mpr ⟨h4, by simpa [h3] using hb, hr⟩
    · exact Memory.wf_cons.mpr ⟨hu, Memory.write_above (by omega) hb, ih hr⟩

/-- A read of the written index gives the written word. -/
theorem Memory.read_write_self {m : Memory xlen} (a : Nat) (v : Word xlen) (h : Memory.wf m = true) :
    Memory.read (Memory.write m a v) a = v := by
  induction m with
  | nil =>
    simp only [Memory.write]
    split_ifs with hv
    · exact hv.symm
    · simp [Memory.read]
  | cons c rest ih =>
    obtain ⟨b, u⟩ := c
    obtain ⟨_, hb, hr⟩ := Memory.wf_cons.mp h
    simp only [Memory.write]
    split_ifs with h1 h2 h3 h4
    · rw [h2]
      refine Memory.read_of_above fun c hc => ?_
      rcases List.mem_cons.mp hc with rfl | hc
      exacts [h1, Nat.lt_trans h1 (hb c hc)]
    · simp [Memory.read]
    · rw [h4]
      exact Memory.read_of_above (h3 ▸ hb)
    · simp [Memory.read]
    · simp [Memory.read, h3, ih hr]

/-- A read of any other index is what it was. -/
theorem Memory.read_write_ne (m : Memory xlen) {a b : Nat} (v : Word xlen) (h : b ≠ a) :
    Memory.read (Memory.write m a v) b = Memory.read m b := by
  induction m with
  | nil =>
    simp only [Memory.write]
    split_ifs <;> simp [Memory.read, h]
  | cons c rest ih =>
    obtain ⟨d, u⟩ := c
    simp only [Memory.write]
    split_ifs with h1 h2 h3 h4
    · rfl
    · simp [Memory.read, h]
    · have : b ≠ d := by omega
      simp [Memory.read, this]
    · have : b ≠ d := by omega
      simp [Memory.read, h, this]
    · simp [Memory.read, ih]

/-- The form is canonical: two memories in it with the same reads are the same data. -/
theorem Memory.eq_of_reads {m n : Memory xlen} (hm : Memory.wf m = true) (hn : Memory.wf n = true)
    (h : ∀ a, Memory.read m a = Memory.read n a) : m = n := by
  induction m generalizing n with
  | nil =>
    cases n with
    | nil => rfl
    | cons d rest =>
      have := h d.1
      simp [Memory.read] at this
      exact absurd this.symm (Memory.wf_cons.mp hn).1
  | cons c mrest ih =>
    obtain ⟨a, u⟩ := c
    obtain ⟨hu, ha, hmr⟩ := Memory.wf_cons.mp hm
    cases n with
    | nil =>
      have := h a
      simp [Memory.read] at this
      exact absurd this hu
    | cons d nrest =>
      obtain ⟨b, w⟩ := d
      obtain ⟨hw, hb, hnr⟩ := Memory.wf_cons.mp hn
      have hab : a = b := by
        rcases Nat.lt_trichotomy a b with hlt | heq | hgt
        · have h1 := h a
          rw [Memory.read_of_above (m := (b, w) :: nrest) (by
            intro c hc
            rcases List.mem_cons.mp hc with rfl | hc
            exacts [hlt, Nat.lt_trans hlt (hb c hc)])] at h1
          simp [Memory.read] at h1
          exact absurd h1 hu
        · exact heq
        · have h1 := h b
          rw [Memory.read_of_above (m := (a, u) :: mrest) (by
            intro c hc
            rcases List.mem_cons.mp hc with rfl | hc
            exacts [hgt, Nat.lt_trans hgt (ha c hc)])] at h1
          simp [Memory.read] at h1
          exact absurd h1.symm hw
      subst hab
      have huw : u = w := by simpa [Memory.read] using h a
      subst huw
      congr 1
      refine ih hmr hnr fun x => ?_
      by_cases hx : x = a
      · subst hx
        rw [Memory.read_of_above ha, Memory.read_of_above hb]
      · simpa [Memory.read, hx] using h x

/-! ## The accesses of the memory_stage -/

/-- All `MemRead` can do: at a valid address it answers the word, and at any other none (20_memory.md R44). -/
theorem CoreState.memRead_eq_some {s : CoreState xlen} {a v : Word xlen} :
    s.memRead a = some v ↔ s.validAddress a = true ∧ v = Memory.read s.dmem (signed a).toNat := by
  unfold CoreState.memRead
  split <;> rename_i h
  · simp only [Option.some.injEq, h, true_and]
    exact eq_comm
  · simp [h]

/-- All `MemWrite` can do: at a valid address it changes the data memory there, and at any other it answers none
(20_memory.md R45). -/
theorem CoreState.memWrite_eq_some {s t : CoreState xlen} {a v : Word xlen} :
    s.memWrite a v = some t ↔
      s.validAddress a = true ∧ t = { s with dmem := Memory.write s.dmem (signed a).toNat v } := by
  unfold CoreState.memWrite
  split <;> rename_i h
  · simp only [Option.some.injEq, h, true_and]
    exact eq_comm
  · simp [h]

/-- A valid address names an index below `DMEM_SIZE` (20_memory.md R43). -/
theorem CoreState.validAddress_toNat_lt {s : CoreState xlen} {a : Word xlen} (h : s.validAddress a = true) :
    (signed a).toNat < s.inputs.cfg.dmemSize := by
  simp only [CoreState.validAddress, decide_eq_true_eq] at h
  omega

/-- `MemWrite` keeps the canonical form. -/
theorem CoreState.memWrite_wf {s t : CoreState xlen} {a v : Word xlen} (h : s.memWrite a v = some t) (hs :
    Memory.wf s.dmem = true) :
    Memory.wf t.dmem = true := by
  obtain ⟨_, rfl⟩ := CoreState.memWrite_eq_some.mp h
  exact Memory.write_wf _ _ hs

/-- The reset memory is in canonical form. -/
theorem State.reset_memory_wf : Memory.wf State.reset.core.dmem = true := rfl

end Sys2Proof.Machine
end

