-- ==== Sys2Proof/Laws/Ops.lean ====
section
/-!
SUPPORT. For each shared operation, one lemma that says all it can do.
-/

namespace Sys2Proof.Machine

variable {xlen : Nat}

/-! ## Word arithmetic: the operators of 00_scope.md R13 are those of bit vectors -/

theorem addw_eq (a b : Word xlen) : addw a b = a + b := by
  apply BitVec.eq_of_toInt_eq
  simp [addw, wrap, signed, BitVec.toInt_add, BitVec.toInt_ofInt]

theorem subw_eq (a b : Word xlen) : subw a b = a - b := by
  apply BitVec.eq_of_toInt_eq
  simp [subw, wrap, signed, BitVec.toInt_sub, BitVec.toInt_ofInt]

theorem mulw_eq (a b : Word xlen) : mulw a b = a * b := by
  apply BitVec.eq_of_toInt_eq
  simp [mulw, wrap, signed, BitVec.toInt_mul, BitVec.toInt_ofInt]

/-- With words of 32 bits an immediate is "used as it stands" (30_encoding.md R61). -/
@[simp] theorem immWord_thirtyTwo (imm : Imm) : (immWord imm : Word 32) = imm := by simp [immWord, wrap]

/-- A word that is positive is not 0 (41_alu.md R127). -/
theorem zeroOf_of_positiveOf {v : Word xlen} (h : positiveOf v = true) : zeroOf v = false := by
  by_contra hz
  have hv : v = 0 := by simpa [zeroOf] using hz
  subst hv
  simp [positiveOf, signed] at h

/-! ## Scoreboard -/

theorem Bank.get_setAll (b : Bank Bool) (rs : List RegIndex) (r : RegIndex) :
    Bank.get (Bank.setAll b rs) r = (decide (r ∈ rs) || Bank.get b r) := by
  induction rs generalizing b with
  | nil => simp [Bank.setAll]
  | cons q rest ih =>
    have := ih (Bank.put b q true)
    rw [Bank.setAll] at this ⊢
    rw [List.foldl_cons, this, Bank.get_put]
    by_cases h : r = q <;> simp [h]

/-! ## decode_stage -/

/-- All the Decode step of an instruction can do (40_pipeline.md R100): fault, stall, or dispatch. -/
theorem CoreState.decodeWith_cases (n : DecodeNeeds) (s : CoreState xlen) :
    (n.used.all s.inputs.cfg.hasReg = false ∧
      s.decodeWith n = s.raiseFault .registerIndexOutOfRange .dec s.dLatch.pc) ∨
    (n.used.all s.inputs.cfg.hasReg = true ∧ n.sources.all s.ready = false ∧ s.decodeWith n = s.raiseStall) ∨
    (n.used.all s.inputs.cfg.hasReg = true ∧ n.sources.all s.ready = true ∧
      s.decodeWith n = (s.markAll n.dests).sendToExecute (s.withOperands n)) := by
  unfold CoreState.decodeWith
  split
  · split
    · exact .inr (.inr ⟨‹_›, ‹_›, rfl⟩)
    · exact .inr (.inl ⟨‹_›, Bool.eq_false_iff.mpr ‹¬_›, rfl⟩)
  · exact .inl ⟨Bool.eq_false_iff.mpr ‹¬_›, rfl⟩

/-! ## memory_stage -/

/-- All a load can do in Memory (40_pipeline.md R88): pass the word on, or raise `DataAddressOutOfRange`. -/
theorem CoreState.loadWord_cases (s : CoreState xlen) :
    (s.validAddress s.mLatch.memoryAddress = true ∧
      s.loadWord = s.sendToWriteback
        { s.mLatch with resultBuffer := Memory.read s.dmem (signed s.mLatch.memoryAddress).toNat }) ∨
    (s.validAddress s.mLatch.memoryAddress = false ∧
      s.loadWord = s.raiseFault .dataAddressOutOfRange .mem s.mLatch.pc) := by
  cases h : s.validAddress s.mLatch.memoryAddress <;> simp [CoreState.loadWord, CoreState.memRead, h]

/-- All a store can do in Memory (40_pipeline.md R88): write the word and pass on, or raise `DataAddressOutOfRange`,
writing nothing. -/
theorem CoreState.storeWord_cases (s : CoreState xlen) :
    (s.validAddress s.mLatch.memoryAddress = true ∧
      s.storeWord = CoreState.sendToWriteback s.mLatch
        { s with dmem := Memory.write s.dmem (signed s.mLatch.memoryAddress).toNat s.mLatch.rs1Value }) ∨
    (s.validAddress s.mLatch.memoryAddress = false ∧
      s.storeWord = s.raiseFault .dataAddressOutOfRange .mem s.mLatch.pc) := by
  cases h : s.validAddress s.mLatch.memoryAddress <;> simp [CoreState.storeWord, CoreState.memWrite, h]

/-! ## execute_stage -/

/-- A branch that is not taken only passes on (43_control.md R145). -/
@[simp] theorem CoreState.branch_false (target : Word xlen) (s : CoreState xlen) : s.branch false target =
    s.sendToMemory s.eLatch := rfl

/-- A taken branch redirects and passes on (40_pipeline.md R94). -/
@[simp] theorem CoreState.branch_true (target : Word xlen) (s : CoreState xlen) :
    s.branch true target = (s.redirect target).sendToMemory s.eLatch := rfl

/-! ## fetch_unit -/

/-- The fetch class is INDEX k exactly for the address of record `k < N` (40_pipeline.md R108; 20_memory.md R51). -/
theorem fetchClassOf_index_iff {cfg : Config} {n : Nat} {pc : Word xlen} {k : Nat} (hw : 1 ≤ cfg.insnWidth) :
    fetchClassOf cfg n pc = .index k ↔ signed pc = cfg.codeBase + cfg.insnWidth * k ∧ k < n := by
  have hw' : (0 : Int) < cfg.insnWidth := by exact_mod_cast hw
  unfold fetchClassOf
  simp only
  split
  · rename_i h
    simp only [reduceCtorEq, false_iff, not_and]
    intro he
    rcases h with h | h
    · have : (0 : Int) ≤ cfg.insnWidth * k := by positivity
      omega
    · exact absurd (by rw [he]; simp) h
  · rename_i h
    obtain ⟨h1, h2⟩ := not_or.mp h
    have h2' := not_not.mp h2
    obtain ⟨q, hq⟩ := Int.dvd_of_emod_eq_zero h2'
    have hq0 : 0 ≤ q := by
      by_contra hneg
      have : (cfg.insnWidth : Int) * q < 0 := Int.mul_neg_of_pos_of_neg hw' (by omega)
      omega
    have hdiv : (signed pc - (cfg.codeBase : Int)) / cfg.insnWidth = q := by
      rw [hq]
      exact Int.mul_ediv_cancel_left _ (by omega)
    rw [hdiv]
    split
    · simp only [reduceCtorEq, false_iff, not_and, not_lt]
      intro he
      have : (cfg.insnWidth : Int) * q = cfg.insnWidth * k := by omega
      have := Int.eq_of_mul_eq_mul_left (by omega) this
      omega
    · simp only [FetchClass.index.injEq]
      constructor
      · rintro rfl
        refine ⟨?_, by omega⟩
        rw [Int.toNat_of_nonneg hq0]
        omega
      · rintro ⟨he, _⟩
        have : (cfg.insnWidth : Int) * q = cfg.insnWidth * k := by omega
        have := Int.eq_of_mul_eq_mul_left (by omega) this
        omega

end Sys2Proof.Machine
end

