-- ==== Sys2Proof/Laws/Exec.lean ====
section
/-!
SUPPORT. The meanings as stage steps: `exec` runs the steps of the instruction in the stage whose turn it is, and always
answers a next state.
-/

namespace Sys2Proof.Machine

variable {xlen : Nat}

/-- The stage steps an instruction's meaning is made of. -/
def stepsOf {xlen : Nat} : Instr → StageSteps xlen
  | .add rd rs1 rs2 => arithR3 addw rd rs1 rs2
  | .sub rd rs1 rs2 => arithR3 subw rd rs1 rs2
  | .mul rd rs1 rs2 => arithR3 mulw rd rs1 rs2
  | .div rd rs1 rs2 =>
    { arithR3 divw rd rs1 rs2 with
      ex := fun t =>
        if t.eLatch.rs2Value = 0 then t.raiseFault .divideByZero .ex t.eLatch.pc
        else t.produceFlags rd (divw t.eLatch.rs1Value t.eLatch.rs2Value) }
  | .and rd rs1 rs2 => logicR3 andw rd rs1 rs2
  | .or rd rs1 rs2 => logicR3 orw rd rs1 rs2
  | .xor rd rs1 rs2 => logicR3 xorw rd rs1 rs2
  | .movc rd imm =>
    { dec := CoreState.decodeWith { used := [rd], sources := [], fill1 := none, fill2 := none, dests := [rd] }
      ex := CoreState.produce rd (immWord imm)
      wb := CoreState.commitResult rd }
  | .load rd rs1 imm =>
    { dec := CoreState.decodeWith { used := [rd, rs1], sources := [rs1], fill1 := some rs1, fill2 := none, dests :=
        [rd] }
      ex := fun t => t.formAddress (addw t.eLatch.rs1Value (immWord imm))
      mem := CoreState.loadWord
      wb := CoreState.commitResult rd }
  | .store rs1 rs2 imm =>
    { dec := CoreState.decodeWith
        { used := [rs1, rs2], sources := [rs1, rs2], fill1 := some rs1, fill2 := some rs2, dests := [] }
      ex := fun t => t.formAddress (addw t.eLatch.rs2Value (immWord imm))
      mem := CoreState.storeWord }
  | .bz imm => condBranch (fun t => t.zeroFlag) imm
  | .bnz imm => condBranch (fun t => !t.zeroFlag) imm
  | .halt =>
    { fetch := fun t => t.deliver.stopFetch
      dec := CoreState.decodeWith { used := [], sources := [], fill1 := none, fill2 := none, dests := [] }
      wb := fun t => t.retire.halt.countTick }
  | .addl rd rs1 imm => arithRI addw rd rs1 imm
  | .subl rd rs1 imm => arithRI subw rd rs1 imm
  | .cmp rs1 rs2 =>
    { dec := CoreState.decodeWith
        { used := [rs1, rs2], sources := [rs1, rs2], fill1 := some rs1, fill2 := some rs2, dests := [] }
      ex := fun t => (t.sendToMemory t.eLatch).setFlags (subw t.eLatch.rs1Value t.eLatch.rs2Value) }
  | .bp imm => condBranch (fun t => t.positiveFlag) imm
  | .bnp imm => condBranch (fun t => !t.positiveFlag) imm
  | .jump rs1 imm =>
    { dec := CoreState.decodeWith { used := [rs1], sources := [], fill1 := some rs1, fill2 := none, dests := [] }
      ex := fun t => t.branch true (addw t.eLatch.rs1Value (immWord imm)) }
  | .ldi rd rs1 imm =>
    { dec := CoreState.decodeWith
        { used := [rd, rs1], sources := [rs1], fill1 := some rs1, fill2 := none, dests := [rd, rs1] }
      ex := fun t => t.formAddressInc rs1 (addw t.eLatch.rs1Value (immWord imm)) t.eLatch.rs1Value
      mem := CoreState.loadWord
      wb := fun t => (t.commitTo rs1 t.wLatch.newResultBuffer).commitResult rd }
  | .sti rs1 rs2 imm =>
    { dec := CoreState.decodeWith
        { used := [rs1, rs2], sources := [rs1, rs2], fill1 := some rs1, fill2 := some rs2, dests := [rs2] }
      ex := fun t => t.formAddressInc rs2 (addw t.eLatch.rs2Value (immWord imm)) t.eLatch.rs2Value
      mem := CoreState.storeWord
      wb := fun t => (t.commitTo rs2 t.wLatch.newResultBuffer).retire }
  | .nop => { dec := CoreState.dropDecode }

theorem exec_eq_runSteps (i : Instr) (s : State) : exec i s = runSteps (stepsOf i) s := by cases i <;> rfl

/-- All `runSteps` can do: the step of the stage whose turn it is. -/
theorem runSteps_cases (p : ∀ {xlen : Nat}, StageSteps xlen) (s : CoreState xlen) :
    (s.signals.stage = .fetch ∧ runSteps p ⟨_, s⟩ = .next ⟨_, p.fetch s⟩) ∨
    (s.signals.stage = .dec ∧ runSteps p ⟨_, s⟩ = .next ⟨_, p.dec s⟩) ∨
    (s.signals.stage = .ex ∧ runSteps p ⟨_, s⟩ = .next ⟨_, p.ex s⟩) ∨
    (s.signals.stage = .mem ∧ runSteps p ⟨_, s⟩ = .next ⟨_, p.mem s⟩) ∨
    (s.signals.stage = .wb ∧ runSteps p ⟨_, s⟩ = .next ⟨_, p.wb s⟩) := by
  cases h : s.signals.stage <;> simp [runSteps, h]

/-- Every meaning answers a next state, in every stage. -/
theorem exec_answers_next (i : Instr) (s : CoreState xlen) : ∃ t : CoreState xlen, exec i ⟨_, s⟩ = .next ⟨_, t⟩ := by
  rw [exec_eq_runSteps]
  rcases runSteps_cases (stepsOf i) s with h | h | h | h | h <;> exact ⟨_, h.2⟩

theorem exec_fetch (i : Instr) {s : CoreState xlen} (h : s.signals.stage = .fetch) : exec i ⟨_, s⟩ =
    .next ⟨_, (stepsOf i).fetch s⟩ := by
  simp [exec_eq_runSteps, runSteps, h]

theorem exec_dec (i : Instr) {s : CoreState xlen} (h : s.signals.stage = .dec) : exec i ⟨_, s⟩ =
    .next ⟨_, (stepsOf i).dec s⟩ := by
  simp [exec_eq_runSteps, runSteps, h]

theorem exec_ex (i : Instr) {s : CoreState xlen} (h : s.signals.stage = .ex) : exec i ⟨_, s⟩ =
    .next ⟨_, (stepsOf i).ex s⟩ := by
  simp [exec_eq_runSteps, runSteps, h]

theorem exec_mem (i : Instr) {s : CoreState xlen} (h : s.signals.stage = .mem) : exec i ⟨_, s⟩ =
    .next ⟨_, (stepsOf i).mem s⟩ := by
  simp [exec_eq_runSteps, runSteps, h]

theorem exec_wb (i : Instr) {s : CoreState xlen} (h : s.signals.stage = .wb) : exec i ⟨_, s⟩ =
    .next ⟨_, (stepsOf i).wb s⟩ := by
  simp [exec_eq_runSteps, runSteps, h]

/-- The needs of each instruction's Decode are its row of 40_pipeline.md R118. -/
theorem dec_eq_decodeWith {i : Instr} (h : i ≠ .nop) :
    ∃ n : DecodeNeeds, (stepsOf (xlen := xlen) i).dec = CoreState.decodeWith n ∧ n.used = i.usedRegs ∧
        n.sources = sourcesOf i ∧
      n.dests = destsOf i := by
  cases i <;>
    first
    | exact absurd rfl h
    | exact ⟨_, rfl, rfl, rfl, rfl⟩
    | exact ⟨⟨[], [], none, none, []⟩, rfl, rfl, rfl, rfl⟩

end Sys2Proof.Machine
end

