-- ==== Sys2Proof/Laws/PerInstr.lean ====
section
/-!
SUPPORT. What holds of every instruction as syntax, one lemma per constructor.
-/

namespace Sys2Proof.Laws

/-- The record word of an instruction carries its opcode number, which is one of the 22 (30_encoding.md R65), has its
reserved bits 0 (R59), and with `NUM_REGS = 32` every register it uses exists (60_exceptions.md R159). -/
def EncodedFields.Statement (i : Instr) : Prop :=
  opcodeField (encode i) = opcodeOf i ∧ (opcodeOf i).toNat < 0x16 ∧ (encode i).extractLsb' 32 11 = 0 ∧
    ∀ cfg : Config, cfg.numRegs = 32 → i.wellFormed cfg = true

/-- The opcode numbers are 0x00 to 0x15 (30_encoding.md R65). -/
theorem opcodeOf_lt (i : Instr) : (opcodeOf i).toNat < 0x16 := by cases i <;> simp [opcodeOf]

theorem EncodedFields.of_pack {i : Instr} {rd rs1 rs2 : RegIndex} {imm : Imm}
    (h : encode i = packRecord (opcodeOf i) rd rs1 rs2 imm) :
    EncodedFields.Statement i := by
  refine ⟨by rw [h, opcodeField_packRecord], opcodeOf_lt i, by rw [h, reserved_packRecord], fun cfg hc => ?_⟩
  have hreg : ∀ r : RegIndex, cfg.hasReg r = true := fun r => by
    simpa [Config.hasReg, hc] using r.isLt
  simp [Instr.wellFormed, hreg]

theorem EncodedFields.add (rd rs1 rs2 : RegIndex) : EncodedFields.Statement (.add rd rs1 rs2) :=
  EncodedFields.of_pack rfl
theorem EncodedFields.sub (rd rs1 rs2 : RegIndex) : EncodedFields.Statement (.sub rd rs1 rs2) :=
  EncodedFields.of_pack rfl
theorem EncodedFields.mul (rd rs1 rs2 : RegIndex) : EncodedFields.Statement (.mul rd rs1 rs2) :=
  EncodedFields.of_pack rfl
theorem EncodedFields.div (rd rs1 rs2 : RegIndex) : EncodedFields.Statement (.div rd rs1 rs2) :=
  EncodedFields.of_pack rfl
theorem EncodedFields.and (rd rs1 rs2 : RegIndex) : EncodedFields.Statement (.and rd rs1 rs2) :=
  EncodedFields.of_pack rfl
theorem EncodedFields.or (rd rs1 rs2 : RegIndex) : EncodedFields.Statement (.or rd rs1 rs2) :=
  EncodedFields.of_pack rfl
theorem EncodedFields.xor (rd rs1 rs2 : RegIndex) : EncodedFields.Statement (.xor rd rs1 rs2) :=
  EncodedFields.of_pack rfl
theorem EncodedFields.movc (rd : RegIndex) (imm : Imm) : EncodedFields.Statement (.movc rd imm) :=
  EncodedFields.of_pack rfl
theorem EncodedFields.load (rd rs1 : RegIndex) (imm : Imm) : EncodedFields.Statement (.load rd rs1 imm) :=
  EncodedFields.of_pack rfl
theorem EncodedFields.store (rs1 rs2 : RegIndex) (imm : Imm) : EncodedFields.Statement (.store rs1 rs2 imm) :=
  EncodedFields.of_pack rfl
theorem EncodedFields.bz (imm : Imm) : EncodedFields.Statement (.bz imm) := EncodedFields.of_pack rfl
theorem EncodedFields.bnz (imm : Imm) : EncodedFields.Statement (.bnz imm) := EncodedFields.of_pack rfl
theorem EncodedFields.halt : EncodedFields.Statement .halt := EncodedFields.of_pack rfl
theorem EncodedFields.addl (rd rs1 : RegIndex) (imm : Imm) : EncodedFields.Statement (.addl rd rs1 imm) :=
  EncodedFields.of_pack rfl
theorem EncodedFields.subl (rd rs1 : RegIndex) (imm : Imm) : EncodedFields.Statement (.subl rd rs1 imm) :=
  EncodedFields.of_pack rfl
theorem EncodedFields.cmp (rs1 rs2 : RegIndex) : EncodedFields.Statement (.cmp rs1 rs2) :=
  EncodedFields.of_pack rfl
theorem EncodedFields.bp (imm : Imm) : EncodedFields.Statement (.bp imm) := EncodedFields.of_pack rfl
theorem EncodedFields.bnp (imm : Imm) : EncodedFields.Statement (.bnp imm) := EncodedFields.of_pack rfl
theorem EncodedFields.jump (rs1 : RegIndex) (imm : Imm) : EncodedFields.Statement (.jump rs1 imm) :=
  EncodedFields.of_pack rfl
theorem EncodedFields.ldi (rd rs1 : RegIndex) (imm : Imm) : EncodedFields.Statement (.ldi rd rs1 imm) :=
  EncodedFields.of_pack rfl
theorem EncodedFields.sti (rs1 rs2 : RegIndex) (imm : Imm) : EncodedFields.Statement (.sti rs1 rs2 imm) :=
  EncodedFields.of_pack rfl
theorem EncodedFields.nop : EncodedFields.Statement .nop := EncodedFields.of_pack rfl

end Sys2Proof.Laws
end

