-- ==== Sys2Proof/Laws/Pipeline.lean ====
section
/-!
SUPPORT. Once per stage, all it can do; and all a tick and a step can do.
-/

namespace Sys2Proof.Machine

variable {xlen : Nat}

/-- All a stage can do with its latch: nothing if it is empty, else the instruction's meaning, else `pass`. -/
theorem stageWork_cases (l : Latch xlen) (pass : CoreState xlen → CoreState xlen) (s : CoreState xlen) :
    (l.hasInsn = false ∧ stageWork l pass s = .next ⟨_, s⟩) ∨
    (l.hasInsn = true ∧ ∃ i, l.instr = some i ∧ stageWork l pass s = exec i ⟨_, s⟩) ∨
    (l.hasInsn = true ∧ l.instr = none ∧ stageWork l pass s = .next ⟨_, pass s⟩) := by
  unfold stageWork
  cases h : l.hasInsn
  · exact .inl ⟨rfl, rfl⟩
  · cases hi : l.instr with
    | none => exact .inr (.inr ⟨rfl, rfl, rfl⟩)
    | some i => exact .inr (.inl ⟨rfl, i, rfl, rfl⟩)

/-- A stage always answers a next state. -/
theorem stageWork_answers_next (l : Latch xlen) (pass : CoreState xlen → CoreState xlen) (s : CoreState xlen) :
    ∃ t : CoreState xlen, stageWork l pass s = .next ⟨_, t⟩ := by
  rcases stageWork_cases l pass s with h | ⟨_, i, _, h⟩ | ⟨_, _, h⟩
  · exact ⟨_, h.2⟩
  · obtain ⟨t, ht⟩ := exec_answers_next i s
    exact ⟨t, h.trans ht⟩
  · exact ⟨_, h⟩

/-- All Fetch can do (40_pipeline.md R109). -/
theorem fetchUnit_cases (s : CoreState xlen) :
    ((s.fLatch.hasInsn = false ∨ s.signals.redirect = true) ∧ fetchUnit s = .next ⟨_, s⟩) ∨
    (s.fLatch.hasInsn = true ∧ s.signals.redirect = false ∧ s.signals.stall = true ∧
      ((∃ k, s.fetchClass = .index k ∧ fetchUnit s = .next ⟨_, s.holdRecord (s.codeRecord k)⟩) ∨
        ((∀ k, s.fetchClass ≠ .index k) ∧ fetchUnit s = .next ⟨_, s⟩))) ∨
    (s.fLatch.hasInsn = true ∧ s.signals.redirect = false ∧ s.signals.stall = false ∧
      ((s.fetchClass = .fault ∧ fetchUnit s = .next ⟨_, s.raiseFault .fetchAddressFault .fetch s.pc⟩) ∨
        (s.fetchClass = .exhausted ∧ fetchUnit s = .next ⟨_, s⟩) ∨
        (∃ k, s.fetchClass = .index k ∧ fetchUnit s = deliverStage (s.fetchRecord (s.codeRecord k))))) := by
  unfold fetchUnit
  cases hf : s.fLatch.hasInsn <;> cases hr : s.signals.redirect <;> cases hs : s.signals.stall <;>
    cases hc : s.fetchClass <;> simp

/-- Delivery always answers a next state. -/
theorem deliverStage_answers_next (s : CoreState xlen) : ∃ t : CoreState xlen, deliverStage s = .next ⟨_, t⟩ := by
  unfold deliverStage
  cases s.fLatch.instr with
  | none => exact ⟨_, rfl⟩
  | some i => exact exec_answers_next i s

theorem fetchUnit_answers_next (s : CoreState xlen) : ∃ t : CoreState xlen, fetchUnit s = .next ⟨_, t⟩ := by
  rcases fetchUnit_cases s with h | ⟨_, _, _, ⟨k, _, h⟩ | h⟩ | ⟨_, _, _, h | h | ⟨k, _, h⟩⟩
  · exact ⟨_, h.2⟩
  · exact ⟨_, h⟩
  · exact ⟨_, h.2⟩
  · exact ⟨_, h.2⟩
  · exact ⟨_, h.2⟩
  · obtain ⟨t, ht⟩ := deliverStage_answers_next (s.fetchRecord (s.codeRecord k))
    exact ⟨t, h.trans ht⟩

/-- All the end of the tick can do (40_pipeline.md R116, R117). -/
theorem endOfTick_cases (s : CoreState xlen) :
    ((s.drained && s.cannotFetch) = true ∧ endOfTick s = .next ⟨_, s.countTick.exhaust⟩) ∨
    ((s.drained && s.cannotFetch) = false ∧ endOfTick s = .next ⟨_, s.countTick⟩) := by
  unfold endOfTick
  cases s.drained && s.cannotFetch <;> simp

/-- All `andThen` can do after a stage that answers a core of the same words: go on from a running state, or stop there. -/
theorem andThen_eq_next {r : Result} {k : ∀ {xlen : Nat}, CoreState xlen → Result} {t : CoreState xlen}
    (hr : ∃ s : CoreState xlen, r = .next ⟨_, s⟩) :
    andThen r k = .next ⟨_, t⟩ ↔
      ∃ s : CoreState xlen, r = .next ⟨_, s⟩ ∧
        ((s.status = .running ∧ k s = .next ⟨_, t⟩) ∨ (s.status ≠ .running ∧ t = s)) := by
  obtain ⟨s, rfl⟩ := hr
  by_cases h : s.status = .running
  · simp [andThen, h]
  · simp [andThen, h]
    exact eq_comm

/-- If both answer a core of the same words, so does the sequence. -/
theorem andThen_answers_next {r : Result} {k : ∀ {xlen : Nat}, CoreState xlen → Result}
    (hr : ∃ s : CoreState xlen, r = .next ⟨_, s⟩) (hk : ∀ s : CoreState xlen, ∃ t : CoreState xlen, k s =
      .next ⟨_, t⟩) :
    ∃ t : CoreState xlen, andThen r k = .next ⟨_, t⟩ := by
  obtain ⟨s, rfl⟩ := hr
  by_cases h : s.status = .running
  · simpa [andThen, h] using hk s
  · exact ⟨s, by simp [andThen, h]⟩

theorem afterWriteback_answers_next (s : CoreState xlen) : ∃ t : CoreState xlen, afterWriteback s = .next ⟨_, t⟩ :=
    stageWork_answers_next _ _ _
theorem afterMemory_answers_next (s : CoreState xlen) : ∃ t : CoreState xlen, afterMemory s = .next ⟨_, t⟩ :=
  andThen_answers_next (afterWriteback_answers_next s) fun _ => stageWork_answers_next _ _ _
theorem afterExecute_answers_next (s : CoreState xlen) : ∃ t : CoreState xlen, afterExecute s = .next ⟨_, t⟩ :=
  andThen_answers_next (afterMemory_answers_next s) fun _ => stageWork_answers_next _ _ _
theorem afterDecode_answers_next (s : CoreState xlen) : ∃ t : CoreState xlen, afterDecode s = .next ⟨_, t⟩ :=
  andThen_answers_next (afterExecute_answers_next s) fun _ => stageWork_answers_next _ _ _
theorem afterFetch_answers_next (s : CoreState xlen) : ∃ t : CoreState xlen, afterFetch s = .next ⟨_, t⟩ :=
  andThen_answers_next (afterDecode_answers_next s) fun _ => fetchUnit_answers_next _

theorem endOfTick_answers_next (s : CoreState xlen) : ∃ t : CoreState xlen, endOfTick s = .next ⟨_, t⟩ := by
  rcases endOfTick_cases s with h | h <;> exact ⟨_, h.2⟩
theorem tick_answers_next (s : CoreState xlen) : ∃ t : CoreState xlen, andThen (afterFetch s) endOfTick =
    .next ⟨_, t⟩ :=
  andThen_answers_next (afterFetch_answers_next s) endOfTick_answers_next

/-- All a step can do: refuse an invalid core; reset; hold; or tick. -/
theorem step_cases (s : CoreState xlen) :
    (¬s.validCore ∧ step ⟨_, s⟩ = .refused .invalidConfiguration) ∨
    (s.validCore ∧ s.inputs.rst = true ∧ step ⟨_, s⟩ = .next ⟨_, CoreState.resetWith s.inputs⟩) ∨
    (s.validCore ∧ s.inputs.rst = false ∧ (s.inputs.tickEn = false ∨ s.status ≠ .running) ∧
      step ⟨_, s⟩ = .next ⟨_, s⟩) ∨
    (s.ticking ∧ step ⟨_, s⟩ = restAfter (andThen (afterFetch s) endOfTick)) := by
  by_cases hv : s.validCore
  · have hv' : s.inputs.cfg.valid s.inputs.code.length = true := hv
    cases hr : s.inputs.rst
    · cases ht : s.inputs.tickEn
      · exact .inr (.inr (.inl ⟨hv, rfl, .inl rfl, by simp [step, validEdge, clockEdge, hv', hr, ht]⟩))
      · by_cases hs : s.status = .running
        · exact .inr (.inr (.inr ⟨⟨hv, hr, ht, hs⟩, by simp [step, validEdge, clockEdge, tick, hv', hr, ht, hs]⟩))
        · exact .inr (.inr (.inl ⟨hv, rfl, .inr hs, by simp [step, validEdge, clockEdge, tick, hv', hr, ht, hs]⟩))
    · exact .inr (.inl ⟨hv, rfl, by simp [step, validEdge, clockEdge, hv', hr]⟩)
  · exact .inl ⟨hv, by simp [step, validEdge, Bool.eq_false_iff.mpr hv]⟩

/-- A step never changes the width of the words. -/
theorem step_same_width {s : CoreState xlen} {t : State} (h : step ⟨_, s⟩ = .next t) : ∃ u : CoreState xlen, t =
    ⟨_, u⟩ := by
  rcases step_cases s with ⟨_, h'⟩ | ⟨_, _, h'⟩ | ⟨_, _, _, h'⟩ | ⟨_, h'⟩
  · rw [h'] at h; nomatch h
  · rw [h'] at h; cases h; exact ⟨_, rfl⟩
  · rw [h'] at h; cases h; exact ⟨_, rfl⟩
  · obtain ⟨u, hu⟩ := tick_answers_next s
    rw [h', hu] at h
    cases h
    exact ⟨_, rfl⟩

/-- A property that every step of the tick keeps holds after a tick. -/
theorem tick_induction {P : CoreState xlen → Prop} {s t : CoreState xlen} (hs : P s) (h : step ⟨_, s⟩ = .next ⟨_, t⟩)
    (reset : P (CoreState.resetWith s.inputs)) (rest : ∀ u, P u → P u.restSignals) (at_ : ∀ u st, P u →
      P (u.atStage st))
    (wb : ∀ u v, P u → u.signals.stage = .wb → writebackStage u = .next ⟨_, v⟩ → P v)
    (mem : ∀ u v, P u → u.signals.stage = .mem → memoryStage u = .next ⟨_, v⟩ → P v)
    (ex : ∀ u v, P u → u.signals.stage = .ex → executeStage u = .next ⟨_, v⟩ → P v)
    (dec : ∀ u v, P u → u.signals.stage = .dec → decodeStage u = .next ⟨_, v⟩ → P v)
    (fetch : ∀ u v, P u → u.signals.stage = .fetch → fetchUnit u = .next ⟨_, v⟩ → P v)
    (fin : ∀ u v, P u → endOfTick u = .next ⟨_, v⟩ → P v) : P t := by
  rcases step_cases s with ⟨_, h'⟩ | ⟨_, _, h'⟩ | ⟨_, _, _, h'⟩ | ⟨_, h'⟩
  · rw [h'] at h; nomatch h
  · rw [h'] at h; cases h; exact reset
  · rw [h'] at h; cases h; exact hs
  · rw [h'] at h
    have chain : ∀ {r : Result} {k : ∀ {xlen : Nat}, CoreState xlen → Result} {x : CoreState xlen},
        (∃ u : CoreState xlen, r = .next ⟨_, u⟩) → (∀ u : CoreState xlen, r = .next ⟨_, u⟩ → P u) →
        (∀ u v : CoreState xlen, P u → k u = .next ⟨_, v⟩ → P v) → andThen r k = .next ⟨_, x⟩ → P x := by
      intro r k x ha hr hk hx
      obtain ⟨u, hu, ⟨_, hv⟩ | ⟨_, rfl⟩⟩ := (andThen_eq_next ha).mp hx
      · exact hk u x (hr u hu) hv
      · exact hr x hu
    have h1 : ∀ u, afterWriteback s = .next ⟨_, u⟩ → P u := fun u hu => wb _ u (at_ _ _ (rest _ hs)) rfl hu
    have h2 : ∀ u, afterMemory s = .next ⟨_, u⟩ → P u :=
      fun u => chain (afterWriteback_answers_next s) h1 fun a v ha => mem _ v (at_ a _ ha) rfl
    have h3 : ∀ u, afterExecute s = .next ⟨_, u⟩ → P u :=
      fun u => chain (afterMemory_answers_next s) h2 fun a v ha => ex _ v (at_ a _ ha) rfl
    have h4 : ∀ u, afterDecode s = .next ⟨_, u⟩ → P u :=
      fun u => chain (afterExecute_answers_next s) h3 fun a v ha => dec _ v (at_ a _ ha) rfl
    have h5 : ∀ u, afterFetch s = .next ⟨_, u⟩ → P u :=
      fun u => chain (afterDecode_answers_next s) h4 fun a v ha => fetch _ v (at_ a _ ha) rfl
    obtain ⟨u, hu⟩ := tick_answers_next s
    rw [hu] at h
    cases h
    exact rest _ (chain (afterFetch_answers_next s) h5 fin hu)

end Sys2Proof.Machine
end

