-- ==== Sys2Proof/Laws/Stages.lean ====
section
/-!
SUPPORT. For each stage of the tick, one lemma that says all it can do to the state; and the tick as its stages.
-/

namespace Sys2Proof.Machine

variable {xlen : Nat}

/-- Two latches hold the same record from the same address. -/
structure Latch.SameRecord (l m : Latch xlen) : Prop where
  opcode : l.opcode = m.opcode
  rd : l.rd = m.rd
  rs1 : l.rs1 = m.rs1
  rs2 : l.rs2 = m.rs2
  imm : l.imm = m.imm
  pc : l.pc = m.pc

theorem Latch.SameRecord.instr {l m : Latch xlen} (h : l.SameRecord m) : l.instr = m.instr := by
  simp [Latch.instr, h.opcode, h.rd, h.rs1, h.rs2, h.imm]

/-- All a commit to one register can do to the banks. -/
theorem CoreState.commitTo_other {s : CoreState xlen} {r q : RegIndex} (v : Word xlen) (h : q ≠ r) :
    Bank.get (s.commitTo r v).sb q = Bank.get s.sb q ∧ Bank.get (s.commitTo r v).regs q = Bank.get s.regs q ∧
      Bank.get (s.commitTo r v).bv q = Bank.get s.bv q := by
  refine ⟨by simp [h], by simp [h], ?_⟩
  rw [CoreState.commitTo_bv]
  cases s.inputs.cfg.bypassExpiry <;> simp [h]

/-- Writeback commits its instruction, from `u` to `v`: it writes the registers and clears the scoreboard bits of the
instruction's destinations, may clear their bypass valid bits, counts the instruction in `retired` and leaves `W` empty;
nothing else changes (40_pipeline.md R84, R85). -/
def WritebackCommit (u v : CoreState xlen) : Prop :=
  ∃ regs sb bv, v = { u with regs := regs, sb := sb, bv := bv }.retire ∧
    ∀ r, ((∃ i, u.wLatch.instr = some i ∧ r ∈ destsOf i) → Bank.get sb r = false) ∧
      ((∀ i, u.wLatch.instr = some i → r ∉ destsOf i) →
        Bank.get sb r = Bank.get u.sb r ∧ Bank.get regs r = Bank.get u.regs r ∧ Bank.get bv r = Bank.get u.bv r)

theorem writebackCommit_none (u : CoreState xlen) (h : ∀ i, u.wLatch.instr = some i → destsOf i = []) :
    WritebackCommit u u.retire := by
  refine ⟨_, _, _, rfl, fun r => ⟨?_, fun _ => ⟨rfl, rfl, rfl⟩⟩⟩
  rintro ⟨i, hi, hr⟩
  simp [h i hi] at hr

theorem writebackCommit_one {u : CoreState xlen} {i : Instr} {rd : RegIndex} (x : Word xlen) (hi : u.wLatch.instr =
    some i)
    (hd : destsOf i = [rd]) : WritebackCommit u (u.commitTo rd x).retire := by
  refine ⟨_, _, _, rfl, fun r => ⟨?_, fun hr => ?_⟩⟩
  · rintro ⟨j, hj, hr⟩
    obtain rfl := Option.some.inj (hi.symm.trans hj)
    simp only [hd, List.mem_singleton] at hr
    simp [hr]
  · have hne : r ≠ rd := fun e => hr i hi (by simp [hd, e])
    exact CoreState.commitTo_other x hne

theorem writebackCommit_two {u : CoreState xlen} {i : Instr} {rd rs1 : RegIndex} (x y : Word xlen) (hi :
    u.wLatch.instr = some i)
    (hd : destsOf i = [rd, rs1]) : WritebackCommit u ((u.commitTo rs1 x).commitTo rd y).retire := by
  refine ⟨_, _, _, rfl, fun r => ⟨?_, fun hr => ?_⟩⟩
  · rintro ⟨j, hj, hr⟩
    obtain rfl := Option.some.inj (hi.symm.trans hj)
    simp only [hd, List.mem_cons, List.not_mem_nil, or_false] at hr
    simp only [CoreState.commitTo_sb, Bank.get_put]
    rcases hr with rfl | rfl <;> simp
  · have h1 : r ≠ rd := fun e => hr i hi (by simp [hd, e])
    have h2 : r ≠ rs1 := fun e => hr i hi (by simp [hd, e])
    obtain ⟨a1, a2, a3⟩ := CoreState.commitTo_other (s := u) x h2
    obtain ⟨b1, b2, b3⟩ := CoreState.commitTo_other (s := u.commitTo rs1 x) y h1
    exact ⟨b1.trans a1, b2.trans a2, b3.trans a3⟩

/-- All Writeback can do: nothing if `W` is empty; for HALT, `retired` and the end of the run; else the commit of its
instruction (40_pipeline.md R84 to R87). -/
theorem writebackStage_cases {u v : CoreState xlen} (hst : u.signals.stage = .wb) (h : writebackStage u =
    .next ⟨_, v⟩) :
    (u.wLatch.hasInsn = false ∧ v = u) ∨
    (u.wLatch.HoldsHalt ∧ v = u.retire.halt.countTick) ∨
    (u.wLatch.hasInsn = true ∧ u.wLatch.instr ≠ some .halt ∧ WritebackCommit u v) := by
  rcases stageWork_cases u.wLatch CoreState.retire u with ⟨hw, hh⟩ | ⟨hw, i, hi, hh⟩ | ⟨hw, hi, hh⟩
  · rw [writebackStage, hh] at h
    cases h
    exact .inl ⟨hw, rfl⟩
  · rw [writebackStage, hh, exec_wb i hst] at h
    cases h
    refine .inr ?_
    cases i with
    | halt => exact .inl ⟨⟨hw, hi⟩, rfl⟩
    | ldi rd rs1 imm => exact .inr ⟨hw, by simp [hi], writebackCommit_two _ _ hi rfl⟩
    | store => exact .inr ⟨hw, by simp [hi], writebackCommit_none u (by simp [hi, destsOf])⟩
    | bz => exact .inr ⟨hw, by simp [hi], writebackCommit_none u (by simp [hi, destsOf])⟩
    | bnz => exact .inr ⟨hw, by simp [hi], writebackCommit_none u (by simp [hi, destsOf])⟩
    | bp => exact .inr ⟨hw, by simp [hi], writebackCommit_none u (by simp [hi, destsOf])⟩
    | bnp => exact .inr ⟨hw, by simp [hi], writebackCommit_none u (by simp [hi, destsOf])⟩
    | cmp => exact .inr ⟨hw, by simp [hi], writebackCommit_none u (by simp [hi, destsOf])⟩
    | jump => exact .inr ⟨hw, by simp [hi], writebackCommit_none u (by simp [hi, destsOf])⟩
    | nop => exact .inr ⟨hw, by simp [hi], writebackCommit_none u (by simp [hi, destsOf])⟩
    | _ => exact .inr ⟨hw, by simp [hi], writebackCommit_one _ hi rfl⟩
  · rw [writebackStage, hh] at h
    cases h
    exact .inr (.inr ⟨hw, by simp [hi], writebackCommit_none u (by simp [hi])⟩)

/-- Memory passes its instruction on, from `u` to `v`: with a word in `result_buffer`, or, for a STORE or STI, having written
the one word at its address; nothing else changes (40_pipeline.md R88). -/
def MemoryPass (u v : CoreState xlen) : Prop :=
  (∃ w, v = u.sendToWriteback { u.mLatch with resultBuffer := w }) ∨
  ((∃ rs1 rs2 imm, u.mLatch.instr = some (.store rs1 rs2 imm) ∨ u.mLatch.instr = some (.sti rs1 rs2 imm)) ∧
    v = CoreState.sendToWriteback u.mLatch
      { u with dmem := Memory.write u.dmem (signed u.mLatch.memoryAddress).toNat u.mLatch.rs1Value })

/-- All Memory can do: nothing if `M` is empty; a fault, for an access at an address that is not valid; else it passes the
instruction on (40_pipeline.md R88). -/
theorem memoryStage_cases {u v : CoreState xlen} (hst : u.signals.stage = .mem) (h : memoryStage u = .next ⟨_, v⟩) :
    (u.mLatch.hasInsn = false ∧ v = u) ∨
    (u.mLatch.hasInsn = true ∧ (∃ i, u.mLatch.instr = some i ∧ isMemoryInstr i = true) ∧
      u.validAddress u.mLatch.memoryAddress = false ∧ v = u.raiseFault .dataAddressOutOfRange .mem u.mLatch.pc) ∨
    (u.mLatch.hasInsn = true ∧
      (∀ i, u.mLatch.instr = some i → isMemoryInstr i = true → u.validAddress u.mLatch.memoryAddress = true) ∧
      MemoryPass u v) := by
  rcases stageWork_cases u.mLatch (fun t => t.sendToWriteback t.mLatch) u with
    ⟨hw, hh⟩ | ⟨hw, i, hi, hh⟩ | ⟨hw, hi, hh⟩
  · rw [memoryStage, hh] at h
    cases h
    exact .inl ⟨hw, rfl⟩
  · rw [memoryStage, hh, exec_mem i hst] at h
    cases h
    refine .inr ?_
    simp only [hi, Option.some.injEq, exists_eq_left', forall_eq', hw, true_and]
    have pass : MemoryPass u (u.sendToWriteback u.mLatch) := .inl ⟨u.mLatch.resultBuffer, rfl⟩
    cases i with
    | load rd rs1 imm =>
      rcases u.loadWord_cases with ⟨ha, hl⟩ | ⟨ha, hl⟩
      exacts [.inr ⟨fun _ => ha, .inl ⟨_, hl⟩⟩, .inl ⟨rfl, ha, hl⟩]
    | ldi rd rs1 imm =>
      rcases u.loadWord_cases with ⟨ha, hl⟩ | ⟨ha, hl⟩
      exacts [.inr ⟨fun _ => ha, .inl ⟨_, hl⟩⟩, .inl ⟨rfl, ha, hl⟩]
    | store rs1 rs2 imm =>
      rcases u.storeWord_cases with ⟨ha, hl⟩ | ⟨ha, hl⟩
      exacts [.inr ⟨fun _ => ha, .inr ⟨⟨_, _, _, .inl hi⟩, hl⟩⟩, .inl ⟨rfl, ha, hl⟩]
    | sti rs1 rs2 imm =>
      rcases u.storeWord_cases with ⟨ha, hl⟩ | ⟨ha, hl⟩
      exacts [.inr ⟨fun _ => ha, .inr ⟨⟨_, _, _, .inr hi⟩, hl⟩⟩, .inl ⟨rfl, ha, hl⟩]
    | _ => exact .inr ⟨by simp [isMemoryInstr], pass⟩
  · rw [memoryStage, hh] at h
    cases h
    exact .inr (.inr ⟨hw, by simp [hi], .inl ⟨u.mLatch.resultBuffer, rfl⟩⟩)

/-- Execute passes its instruction on, from `u` to `v`, without a redirect: it may write result fields, the flags if the
instruction is one that writes them, and the bypass entries of its destinations; nothing else changes (40_pipeline.md R89,
R90). -/
def ExecutePass (u v : CoreState xlen) : Prop :=
  ∃ byp bv z p l,
    v = { u with byp := byp, bv := bv, zeroFlag := z, positiveFlag := p, eLatch := l.emptied, mLatch := l } ∧
    l.SameRecord u.eLatch ∧ l.hasInsn = true ∧
    ((z = u.zeroFlag ∧ p = u.positiveFlag) ∨
      ∃ i, ∃ x : Word xlen, u.eLatch.instr = some i ∧ writesFlags i = true ∧ z = zeroOf x ∧ p = positiveOf x) ∧
    (∀ r, Bank.get u.bv r = true → Bank.get bv r = true) ∧
    ∀ r, (∀ i, u.eLatch.instr = some i → r ∉ destsOf i) →
      Bank.get byp r = Bank.get u.byp r ∧ Bank.get bv r = Bank.get u.bv r

theorem executePass_plain (u : CoreState xlen) : ExecutePass u (u.sendToMemory u.eLatch) :=
  ⟨_, _, _, _, u.eLatch.filled, rfl, ⟨rfl, rfl, rfl, rfl, rfl, rfl⟩, rfl, .inl ⟨rfl, rfl⟩, fun _ h => h,
      fun _ _ => ⟨rfl, rfl⟩⟩

theorem executePass_formAddress (u : CoreState xlen) (a : Word xlen) : ExecutePass u (u.formAddress a) :=
  ⟨_, _, _, _, { u.eLatch with memoryAddress := a }.filled, rfl, ⟨rfl, rfl, rfl, rfl, rfl, rfl⟩, rfl, .inl ⟨rfl, rfl⟩,
      fun _ h => h, fun _ _ => ⟨rfl, rfl⟩⟩

theorem Bank.put_true_mono {b : Bank Bool} {q r : RegIndex} (h : Bank.get b r = true) :
    Bank.get (Bank.put b q true) r = true := by
  rw [Bank.get_put]
  split <;> simp [h]

theorem CoreState.writeBypass_other {u : CoreState xlen} {i : Instr} {q : RegIndex} (x : Word xlen) (hi :
    u.eLatch.instr = some i)
    (hq : q ∈ destsOf i) (r : RegIndex) (h : ∀ i, u.eLatch.instr = some i → r ∉ destsOf i) :
    Bank.get (Bank.put u.byp q x) r = Bank.get u.byp r ∧ Bank.get (Bank.put u.bv q true) r = Bank.get u.bv r := by
  have hne : r ≠ q := fun e => h i hi (e ▸ hq)
  simp [hne]

theorem executePass_produce {u : CoreState xlen} {i : Instr} {rd : RegIndex} (x : Word xlen) (hi : u.eLatch.instr =
    some i)
    (hd : rd ∈ destsOf i) : ExecutePass u (u.produce rd x) :=
  ⟨_, _, _, _, { u.eLatch with resultBuffer := x }.filled, rfl, ⟨rfl, rfl, rfl, rfl, rfl, rfl⟩, rfl, .inl ⟨rfl, rfl⟩,
      fun _ => Bank.put_true_mono,
    CoreState.writeBypass_other x hi hd⟩

theorem executePass_produceFlags {u : CoreState xlen} {i : Instr} {rd : RegIndex} (x : Word xlen) (hi :
    u.eLatch.instr = some i)
    (hd : rd ∈ destsOf i) (hf : writesFlags i = true) : ExecutePass u (u.produceFlags rd x) :=
  ⟨_, _, _, _, { u.eLatch with resultBuffer := x }.filled, rfl, ⟨rfl, rfl, rfl, rfl, rfl, rfl⟩, rfl,
      .inr ⟨i, x, hi, hf, rfl, rfl⟩, fun _ => Bank.put_true_mono,
    CoreState.writeBypass_other x hi hd⟩

theorem executePass_formAddressInc {u : CoreState xlen} {i : Instr} {base : RegIndex} (a old : Word xlen)
    (hi : u.eLatch.instr = some i) (hd : base ∈ destsOf i) : ExecutePass u (u.formAddressInc base a old) :=
  ⟨_, _, _, _, { u.eLatch with memoryAddress := a, newResultBuffer := addw old (wrap u.inputs.cfg.inc) }.filled, rfl,
      ⟨rfl, rfl, rfl, rfl, rfl, rfl⟩, rfl, .inl ⟨rfl, rfl⟩, fun _ => Bank.put_true_mono,
    CoreState.writeBypass_other _ hi hd⟩

/-- All Execute can do: nothing if `E` is empty; a fault, for a DIV by 0; the redirect of a taken branch or jump, which
passes on; else it passes the instruction on (40_pipeline.md R89 to R94). -/
theorem executeStage_cases {u v : CoreState xlen} (hst : u.signals.stage = .ex) (h : executeStage u = .next ⟨_, v⟩) :
    (u.eLatch.hasInsn = false ∧ v = u) ∨
    (u.eLatch.hasInsn = true ∧ (∃ rd rs1 rs2, u.eLatch.instr = some (.div rd rs1 rs2)) ∧ u.eLatch.rs2Value = 0 ∧
      v = u.raiseFault .divideByZero .ex u.eLatch.pc) ∨
    (u.eLatch.hasInsn = true ∧ ∃ i target, u.eLatch.instr = some i ∧ takenTarget u i u.eLatch = some target ∧
      v = (u.redirect target).sendToMemory u.eLatch) ∨
    (u.eLatch.hasInsn = true ∧ (∀ i, u.eLatch.instr = some i → takenTarget u i u.eLatch = none) ∧ ExecutePass u v) := by
  rcases stageWork_cases u.eLatch (fun t => t.sendToMemory t.eLatch) u with
    ⟨hw, hh⟩ | ⟨hw, i, hi, hh⟩ | ⟨hw, hi, hh⟩
  · rw [executeStage, hh] at h
    cases h
    exact .inl ⟨hw, rfl⟩
  · rw [executeStage, hh, exec_ex i hst] at h
    cases h
    refine .inr ?_
    simp only [hi, Option.some.injEq, forall_eq', hw, true_and]
    have plain := executePass_plain u
    cases i with
    | div rd rs1 rs2 =>
      by_cases h0 : u.eLatch.rs2Value = 0
      · exact .inl ⟨⟨_, _, _, rfl⟩, h0, if_pos h0⟩
      · refine .inr (.inr ⟨rfl, ?_⟩)
        simp only [stepsOf, if_neg h0]
        exact executePass_produceFlags _ hi (by simp [destsOf]) rfl
    | add => exact .inr (.inr ⟨rfl, executePass_produceFlags _ hi (by simp [destsOf]) rfl⟩)
    | sub => exact .inr (.inr ⟨rfl, executePass_produceFlags _ hi (by simp [destsOf]) rfl⟩)
    | mul => exact .inr (.inr ⟨rfl, executePass_produceFlags _ hi (by simp [destsOf]) rfl⟩)
    | addl => exact .inr (.inr ⟨rfl, executePass_produceFlags _ hi (by simp [destsOf]) rfl⟩)
    | subl => exact .inr (.inr ⟨rfl, executePass_produceFlags _ hi (by simp [destsOf]) rfl⟩)
    | and => exact .inr (.inr ⟨rfl, executePass_produce _ hi (by simp [destsOf])⟩)
    | or => exact .inr (.inr ⟨rfl, executePass_produce _ hi (by simp [destsOf])⟩)
    | xor => exact .inr (.inr ⟨rfl, executePass_produce _ hi (by simp [destsOf])⟩)
    | movc => exact .inr (.inr ⟨rfl, executePass_produce _ hi (by simp [destsOf])⟩)
    | cmp rs1 rs2 =>
      exact .inr (.inr ⟨rfl, _, _, _, _, u.eLatch.filled, rfl, ⟨rfl, rfl, rfl, rfl, rfl, rfl⟩, rfl,
          .inr ⟨_, _, hi, rfl, rfl, rfl⟩,
        fun _ h => h, fun _ _ => ⟨rfl, rfl⟩⟩)
    | load => exact .inr (.inr ⟨rfl, executePass_formAddress u _⟩)
    | store => exact .inr (.inr ⟨rfl, executePass_formAddress u _⟩)
    | ldi => exact .inr (.inr ⟨rfl, executePass_formAddressInc _ _ hi (by simp [destsOf])⟩)
    | sti => exact .inr (.inr ⟨rfl, executePass_formAddressInc _ _ hi (by simp [destsOf])⟩)
    | jump => exact .inr (.inl ⟨_, _, rfl, rfl, rfl⟩)
    | bz imm => cases hz : u.zeroFlag <;> simp [takenTarget, stepsOf, condBranch, hz, plain]
    | bnz imm => cases hz : u.zeroFlag <;> simp [takenTarget, stepsOf, condBranch, hz, plain]
    | bp imm => cases hz : u.positiveFlag <;> simp [takenTarget, stepsOf, condBranch, hz, plain]
    | bnp imm => cases hz : u.positiveFlag <;> simp [takenTarget, stepsOf, condBranch, hz, plain]
    | halt => exact .inr (.inr ⟨rfl, plain⟩)
    | nop => exact .inr (.inr ⟨rfl, plain⟩)
  · rw [executeStage, hh] at h
    cases h
    exact .inr (.inr (.inr ⟨hw, by simp [hi], executePass_plain u⟩))

/-- All Decode can do: nothing if `D` is empty; a fault, for an illegal opcode or a register that does not exist; drop a
NOP; stall; or dispatch (40_pipeline.md R100, R106). -/
theorem decodeStage_cases {u v : CoreState xlen} (hst : u.signals.stage = .dec) (h : decodeStage u = .next ⟨_, v⟩) :
    (u.dLatch.hasInsn = false ∧ v = u) ∨
    (u.dLatch.hasInsn = true ∧ u.dLatch.instr = none ∧ v = u.raiseFault .illegalInstruction .dec u.dLatch.pc) ∨
    (u.dLatch.hasInsn = true ∧ u.dLatch.instr = some .nop ∧ v = u.dropDecode) ∨
    (u.dLatch.hasInsn = true ∧ ∃ i, u.dLatch.instr = some i ∧ i ≠ .nop ∧
      ((i.wellFormed u.inputs.cfg = false ∧ v = u.raiseFault .registerIndexOutOfRange .dec u.dLatch.pc) ∨
       (i.wellFormed u.inputs.cfg = true ∧ (sourcesOf i).all u.ready = false ∧ v = u.raiseStall) ∨
       (u.canDispatch i ∧ ∃ l, l.SameRecord u.dLatch ∧ v = (u.markAll (destsOf i)).sendToExecute l))) := by
  rcases stageWork_cases u.dLatch (fun t => t.raiseFault .illegalInstruction .dec t.dLatch.pc) u with
    ⟨hw, hh⟩ | ⟨hw, i, hi, hh⟩ | ⟨hw, hi, hh⟩
  · rw [decodeStage, hh] at h
    cases h
    exact .inl ⟨hw, rfl⟩
  · rw [decodeStage, hh, exec_dec i hst] at h
    cases h
    by_cases hn : i = .nop
    · subst hn
      exact .inr (.inr (.inl ⟨hw, hi, rfl⟩))
    · obtain ⟨n, hd, h1, h2, h3⟩ := dec_eq_decodeWith hn
      refine .inr (.inr (.inr ⟨hw, i, hi, hn, ?_⟩))
      rw [hd, ← h2, ← h3]
      unfold CoreState.canDispatch Instr.wellFormed
      rw [← h1, ← h2]
      rcases CoreState.decodeWith_cases n u with ⟨a, b⟩ | ⟨a, b, c⟩ | ⟨a, b, c⟩
      · exact .inl ⟨a, b⟩
      · exact .inr (.inl ⟨a, b, c⟩)
      · exact .inr (.inr ⟨⟨a, b⟩, u.withOperands n, ⟨rfl, rfl, rfl, rfl, rfl, rfl⟩, c⟩)
  · rw [decodeStage, hh] at h
    cases h
    exact .inr (.inl ⟨hw, hi, rfl⟩)

/-- All delivery can do: the record in `F` goes to `D`, and a HALT stops Fetch (40_pipeline.md R110, R113). -/
theorem deliverStage_cases {u v : CoreState xlen} (hst : u.signals.stage = .fetch) (h : deliverStage u = .next ⟨_, v⟩) :
    (u.fLatch.instr = some .halt ∧ v = u.deliver.stopFetch) ∨ (u.fLatch.instr ≠ some .halt ∧ v = u.deliver) := by
  unfold deliverStage at h
  cases hi : u.fLatch.instr with
  | none =>
    rw [hi] at h
    cases h
    exact .inr ⟨by simp, rfl⟩
  | some i =>
    rw [hi] at h
    simp only [exec_fetch i hst] at h
    cases h
    cases i with
    | halt => exact .inl ⟨rfl, rfl⟩
    | _ => exact .inr ⟨by simp, rfl⟩

/-- A stage that answers `next`, and then either the tick stops there or the rest of it runs. -/
theorem andThen_cases {r : Result} {k : ∀ {xlen : Nat}, CoreState xlen → Result} {t : CoreState xlen}
    (hr : ∃ s : CoreState xlen, r = .next ⟨_, s⟩) (h : andThen r k = .next ⟨_, t⟩) :
    ∃ a : CoreState xlen, r = .next ⟨_, a⟩ ∧
      ((a.status ≠ .running ∧ t = a) ∨ (a.status = .running ∧ k a = .next ⟨_, t⟩)) := by
  obtain ⟨a, ha, h | h⟩ := (andThen_eq_next hr).mp h
  exacts [⟨a, ha, .inr h⟩, ⟨a, ha, .inl h⟩]

theorem restAfter_eq_next {r : Result} {t : CoreState xlen} (h : restAfter r = .next ⟨_, t⟩) :
    ∃ a : CoreState xlen, r = .next ⟨_, a⟩ ∧ t = a.restSignals := by
  cases r with
  | next a =>
    obtain ⟨x, a⟩ := a
    cases h
    exact ⟨a, rfl, rfl⟩
  | fault f => exact nomatch f
  | refused f => nomatch h

/-- The step of a state whose next edge is a tick. -/
theorem step_of_ticking {s : CoreState xlen} (hs : s.ticking) : step ⟨_, s⟩ =
    restAfter (andThen (afterFetch s) endOfTick) := by
  rcases step_cases s with ⟨hv, _⟩ | ⟨_, hr, _⟩ | ⟨_, _, hr, _⟩ | ⟨_, hh⟩
  · exact absurd hs.1 hv
  · simp [hs.2.1] at hr
  · simp [hs.2.2.1, hs.2.2.2] at hr
  · exact hh

/-- The tick as its stages: the states `a` to `f` the steps leave, and where it can stop (40_pipeline.md R75). -/
theorem step_tick {s t : CoreState xlen} (hs : s.ticking) (h : step ⟨_, s⟩ = .next ⟨_, t⟩) :
    ∃ a : CoreState xlen, writebackStage (s.restSignals.atStage .wb) = .next ⟨_, a⟩ ∧
      ((a.status ≠ .running ∧ t = a.restSignals) ∨ (a.status = .running ∧
    ∃ b : CoreState xlen, memoryStage (a.atStage .mem) = .next ⟨_, b⟩ ∧
      ((b.status ≠ .running ∧ t = b.restSignals) ∨ (b.status = .running ∧
    ∃ c : CoreState xlen, executeStage (b.atStage .ex) = .next ⟨_, c⟩ ∧
      ((c.status ≠ .running ∧ t = c.restSignals) ∨ (c.status = .running ∧
    ∃ d : CoreState xlen, decodeStage (c.atStage .dec) = .next ⟨_, d⟩ ∧
      ((d.status ≠ .running ∧ t = d.restSignals) ∨ (d.status = .running ∧
    ∃ e : CoreState xlen, fetchUnit (d.atStage .fetch) = .next ⟨_, e⟩ ∧
      ((e.status ≠ .running ∧ t = e.restSignals) ∨ (e.status = .running ∧
    ∃ f : CoreState xlen, endOfTick e = .next ⟨_, f⟩ ∧ t = f.restSignals)))))))))) := by
  rw [step_of_ticking hs] at h
  obtain ⟨f, hf, rfl⟩ := restAfter_eq_next h
  obtain ⟨e, he, h5⟩ := andThen_cases (afterFetch_answers_next s) hf
  obtain ⟨d, hd, h4⟩ := andThen_cases (afterDecode_answers_next s) he
  obtain ⟨c, hc, h3⟩ := andThen_cases (afterExecute_answers_next s) hd
  obtain ⟨b, hb, h2⟩ := andThen_cases (afterMemory_answers_next s) hc
  obtain ⟨a, ha, h1⟩ := andThen_cases (afterWriteback_answers_next s) hb
  have stop : ∀ {x y : CoreState xlen} {p : Prop}, x.status ≠ .running →
      ((x.status ≠ .running ∧ y = x) ∨ (x.status = .running ∧ p)) → y = x :=
    fun hx h => h.elim And.right fun h => absurd h.1 hx
  refine ⟨a, ha, ?_⟩
  rcases h1 with ⟨n, rfl⟩ | ⟨n, h1⟩
  · obtain rfl := stop n h2
    obtain rfl := stop n h3
    obtain rfl := stop n h4
    obtain rfl := stop n h5
    exact .inl ⟨n, rfl⟩
  refine .inr ⟨n, b, h1, ?_⟩
  rcases h2 with ⟨n, rfl⟩ | ⟨n, h2⟩
  · obtain rfl := stop n h3
    obtain rfl := stop n h4
    obtain rfl := stop n h5
    exact .inl ⟨n, rfl⟩
  refine .inr ⟨n, c, h2, ?_⟩
  rcases h3 with ⟨n, rfl⟩ | ⟨n, h3⟩
  · obtain rfl := stop n h4
    obtain rfl := stop n h5
    exact .inl ⟨n, rfl⟩
  refine .inr ⟨n, d, h3, ?_⟩
  rcases h4 with ⟨n, rfl⟩ | ⟨n, h4⟩
  · obtain rfl := stop n h5
    exact .inl ⟨n, rfl⟩
  refine .inr ⟨n, e, h4, ?_⟩
  rcases h5 with ⟨n, rfl⟩ | ⟨n, h5⟩
  exacts [.inl ⟨n, rfl⟩, .inr ⟨n, f, h5, rfl⟩]

/-! ## Frames: what each stage leaves unchanged -/

/-- Writeback changes only the register file, the scoreboard, the bypass valid bits, `W`, `retired`, and for HALT the status
and `clock` (40_pipeline.md R84 to R87). -/
theorem writebackStage_frame {u v : CoreState xlen} (hst : u.signals.stage = .wb) (h : writebackStage u =
    .next ⟨_, v⟩) :
    v.dmem = u.dmem ∧ v.zeroFlag = u.zeroFlag ∧ v.positiveFlag = u.positiveFlag ∧ v.pc = u.pc ∧ v.byp = u.byp ∧
    v.fLatch = u.fLatch ∧ v.dLatch = u.dLatch ∧ v.eLatch = u.eLatch ∧ v.mLatch = u.mLatch ∧ v.inputs = u.inputs ∧
    v.signals = u.signals ∧ v.retired = u.retired + u.wLatch.hasInsn.toNat ∧ v.wLatch.hasInsn = false ∧
    ((v.status = u.status ∧ v.clock = u.clock ∧ ¬u.wLatch.HoldsHalt) ∨
      (v.status = .halted ∧ v.clock = u.clock + 1 ∧ u.wLatch.HoldsHalt)) := by
  rcases writebackStage_cases hst h with ⟨hw, rfl⟩ | ⟨hw, rfl⟩ | ⟨hw, hn, regs, sb, bv, rfl, _⟩
  · simp [hw, Latch.HoldsHalt]
  · simp [hw, hw.1]
  · simp [hw, Latch.HoldsHalt, hn]

/-- Memory changes only the data memory, `M`, `W` and, for a fault, the status (40_pipeline.md R88). -/
theorem memoryStage_frame {u v : CoreState xlen} (hst : u.signals.stage = .mem) (h : memoryStage u = .next ⟨_, v⟩) :
    v.regs = u.regs ∧ v.sb = u.sb ∧ v.bv = u.bv ∧ v.byp = u.byp ∧ v.zeroFlag = u.zeroFlag ∧
    v.positiveFlag = u.positiveFlag ∧ v.pc = u.pc ∧ v.fLatch = u.fLatch ∧ v.dLatch = u.dLatch ∧ v.eLatch = u.eLatch ∧
    v.inputs = u.inputs ∧ v.signals = u.signals ∧ v.clock = u.clock ∧ v.retired = u.retired ∧
    ((v.status = u.status ∧ v.mLatch.hasInsn = false) ∨
      v.status = .faulted .dataAddressOutOfRange .mem u.mLatch.pc) := by
  rcases memoryStage_cases hst h with ⟨hw, rfl⟩ | ⟨_, _, _, rfl⟩ | ⟨hw, _, ⟨w, rfl⟩ | ⟨_, rfl⟩⟩ <;> simp_all

/-- Execute does not change the register file, the scoreboard, the data memory, `W` or a counter (40_pipeline.md R89). -/
theorem executeStage_frame {u v : CoreState xlen} (hst : u.signals.stage = .ex) (h : executeStage u = .next ⟨_, v⟩) :
    v.regs = u.regs ∧ v.sb = u.sb ∧ v.dmem = u.dmem ∧ v.wLatch = u.wLatch ∧ v.inputs = u.inputs ∧ v.clock = u.clock ∧
    v.retired = u.retired ∧ v.signals.stall = u.signals.stall ∧ v.signals.stage = u.signals.stage ∧
    ((v.status = u.status ∧ v.eLatch.hasInsn = false) ∨ v.status = .faulted .divideByZero .ex u.eLatch.pc) := by
  rcases executeStage_cases hst h with
    ⟨hw, rfl⟩ | ⟨_, _, _, rfl⟩ | ⟨_, i, tg, _, _, rfl⟩ | ⟨_, _, byp, bv, z, p, l, rfl, _⟩ <;> simp_all

/-- Decode changes only the scoreboard, `D`, `E`, the stall signal and, for a fault, the status (40_pipeline.md R100). -/
theorem decodeStage_frame {u v : CoreState xlen} (hst : u.signals.stage = .dec) (h : decodeStage u = .next ⟨_, v⟩) :
    v.regs = u.regs ∧ v.dmem = u.dmem ∧ v.bv = u.bv ∧ v.byp = u.byp ∧ v.zeroFlag = u.zeroFlag ∧
    v.positiveFlag = u.positiveFlag ∧ v.pc = u.pc ∧ v.fLatch = u.fLatch ∧ v.wLatch = u.wLatch ∧ v.mLatch = u.mLatch ∧
    v.inputs = u.inputs ∧ v.clock = u.clock ∧ v.retired = u.retired ∧ v.signals.redirect = u.signals.redirect ∧
    (v.status = u.status ∨ ∃ c, v.status = .faulted c .dec u.dLatch.pc) := by
  rcases decodeStage_cases hst h with
    ⟨_, rfl⟩ | ⟨_, _, rfl⟩ | ⟨_, _, rfl⟩ | ⟨_, i, _, _, ⟨_, rfl⟩ | ⟨_, _, rfl⟩ | ⟨_, l, _, rfl⟩⟩ <;> simp

/-- Fetch changes only `PC`, `F`, `D` and, for a fault, the status; `PC` and `D` change together (40_pipeline.md R109,
R110). -/
theorem fetchUnit_frame {u v : CoreState xlen} (hst : u.signals.stage = .fetch) (h : fetchUnit u = .next ⟨_, v⟩) :
    v.regs = u.regs ∧ v.sb = u.sb ∧ v.dmem = u.dmem ∧ v.bv = u.bv ∧ v.byp = u.byp ∧ v.zeroFlag = u.zeroFlag ∧
    v.positiveFlag = u.positiveFlag ∧ v.wLatch = u.wLatch ∧ v.mLatch = u.mLatch ∧ v.eLatch = u.eLatch ∧
    v.inputs = u.inputs ∧ v.clock = u.clock ∧ v.retired = u.retired ∧ v.signals = u.signals ∧
    (v.status = u.status ∨ v.status = .faulted .fetchAddressFault .fetch u.pc) ∧
    ((v.pc = u.pc ∧ v.dLatch = u.dLatch) ∨
      (v.pc = addw u.pc (BitVec.ofNat xlen u.inputs.cfg.insnWidth) ∧ v.dLatch.hasInsn = true ∧ v.dLatch.pc = u.pc ∧
        u.signals.redirect = false)) := by
  rcases fetchUnit_cases u with
    ⟨_, h'⟩ | ⟨_, _, _, ⟨k, _, h'⟩ | ⟨_, h'⟩⟩ | ⟨_, hr, _, ⟨_, h'⟩ | ⟨_, h'⟩ | ⟨k, _, h'⟩⟩ <;> rw [h'] at h
  all_goals
    first
    | (cases h; simp)
    | (rcases deliverStage_cases (by simpa using hst) h with ⟨_, rfl⟩ | ⟨_, rfl⟩ <;> simp [hr])

/-- All the end of the tick leaves. -/
theorem endOfTick_frame {u v : CoreState xlen} (h : endOfTick u = .next ⟨_, v⟩) : v = u.countTick.exhaust ∨
    v = u.countTick := by
  rcases endOfTick_cases u with ⟨_, h'⟩ | ⟨_, h'⟩ <;> rw [h'] at h <;> cases h <;> simp

/-! ## Composing a tick from its stages -/

theorem andThen_running {r : Result} {k : ∀ {xlen : Nat}, CoreState xlen → Result} {u : CoreState xlen} (h :
    r = .next ⟨_, u⟩) (hr : u.status = .running) :
    andThen r k = k u := by
  subst h
  simp [andThen, hr]

theorem andThen_stopped {r : Result} {k : ∀ {xlen : Nat}, CoreState xlen → Result} {u : CoreState xlen} (h :
    r = .next ⟨_, u⟩) (hr : u.status ≠ .running) :
    andThen r k = .next ⟨_, u⟩ := by
  subst h
  simp [andThen, hr]

/-- With nothing in flight the tick is Fetch and its end. -/
theorem afterFetch_of_drained {s : CoreState xlen} (hd : s.drained = true) (hr : s.status = .running) :
    afterFetch s = fetchUnit (s.restSignals.atStage .fetch) := by
  obtain ⟨h1, h2, h3, h4⟩ : s.dLatch.hasInsn = false ∧ s.eLatch.hasInsn = false ∧ s.mLatch.hasInsn = false ∧
      s.wLatch.hasInsn = false := by simpa [CoreState.drained, and_assoc] using hd
  have e1 : afterWriteback s = .next ⟨_, s.restSignals.atStage .wb⟩ := by
    simp [afterWriteback, writebackStage, stageWork, h4]
  have e2 : afterMemory s = .next ⟨_, s.restSignals.atStage .mem⟩ :=
    (andThen_running e1 hr).trans (by simp [memoryStage, stageWork, h3])
  have e3 : afterExecute s = .next ⟨_, s.restSignals.atStage .ex⟩ :=
    (andThen_running e2 hr).trans (by simp [executeStage, stageWork, h2])
  have e4 : afterDecode s = .next ⟨_, s.restSignals.atStage .dec⟩ :=
    (andThen_running e3 hr).trans (by simp [decodeStage, stageWork, h1])
  exact (andThen_running e4 hr).trans (by simp)

/-- In a valid core, words of 32 bits or more hold the code's addresses (00_scope.md R9). -/
theorem CoreState.addressesFit {s : CoreState xlen} (hv : s.validCore) (hx : 32 ≤ xlen ∨ s.inputs.AddressesFit) :
    s.inputs.AddressesFit := by
  rcases hx with hx | hx
  · have h : 2 ^ 31 ≤ 2 ^ (xlen - 1) := Nat.pow_le_pow_right (by decide) (by omega)
    simp only [CoreState.validCore, Config.valid, decide_eq_true_eq] at hv
    unfold Inputs.AddressesFit
    omega
  · exact hx

/-! ## An instruction's passage -/

/-- The four steps of an instruction that can dispatch in `s`, as its stage steps. -/
theorem passage_of_dispatch (i : Instr) (s : CoreState xlen) (n : DecodeNeeds) 
    (hd : (stepsOf (xlen := xlen) i).dec = CoreState.decodeWith n)
    (hu : n.used.all s.inputs.cfg.hasReg = true) (hs : n.sources.all s.ready = true) :
    ∃ s1, s1 = ((s.atStage .dec).markAll n.dests).sendToExecute ((s.atStage .dec).withOperands n) ∧
      Passage i s s1 ((stepsOf i).ex (s1.atStage .ex))
        ((stepsOf i).mem (((stepsOf i).ex (s1.atStage .ex)).atStage .mem))
        ((stepsOf i).wb (((stepsOf i).mem (((stepsOf i).ex (s1.atStage .ex)).atStage .mem)).atStage .wb)) := by
  refine ⟨_, rfl, ?_, exec_ex i rfl, exec_mem i rfl, exec_wb i rfl⟩
  rw [exec_dec i rfl, hd]
  have hu' : n.used.all (s.atStage .dec).inputs.cfg.hasReg = true := hu
  have hs' : n.sources.all (s.atStage .dec).ready = true := hs
  unfold CoreState.decodeWith
  rw [if_pos hu', if_pos hs']

/-- A latch holds a HALT exactly when its opcode is 0x0C (30_encoding.md R65). -/
theorem Latch.instr_eq_halt_iff (l : Latch xlen) : l.instr = some .halt ↔ l.opcode = 0x0C := by
  constructor
  · intro h
    unfold Latch.instr decodeFields at h
    split at h
    · rename_i i hd
      cases h
      split at hd <;> first | assumption | simp at hd
    · simp at h
  · intro h
    simp [Latch.instr, decodeFields, h]

end Sys2Proof.Machine
end

