-- ==== Sys2Proof/Tests/Slice0.lean ====
section
/-!
SUPPORT. Tests on fixed values, each expected value from the spec (95_test_vectors.md, or the encoding formula of its
section 2), and for every obligation with hypotheses a theorem that shows concrete values that meet them.
-/

namespace Sys2Proof.Tests

open Sys2Proof Sys2Proof.Machine

/-! ## WellFormed: an ill-formed term for each check (30_encoding.md R69; NUM_REGS = 16) -/

/-- The parameters of 00_scope.md R9 at their defaults. -/
def cfg : Config := {}

theorem test_wellFormed_refuses_rd : (Instr.add 16 1 2).wellFormed cfg = false := by decide
theorem test_wellFormed_refuses_rs1 : (Instr.add 1 16 2).wellFormed cfg = false := by decide
theorem test_wellFormed_refuses_rs2 : (Instr.add 1 2 31).wellFormed cfg = false := by decide
theorem test_wellFormed_refuses_movc_rd : (Instr.movc 20 5).wellFormed cfg = false := by decide
theorem test_wellFormed_refuses_jump_rs1 : (Instr.jump 16 0).wellFormed cfg = false := by decide
theorem test_wellFormed_refuses_sti_rs2 : (Instr.sti 1 16 0).wellFormed cfg = false := by decide
theorem test_wellFormed_accepts_15 : (Instr.add 15 15 15).wellFormed cfg = true := by decide
theorem test_wellFormed_nop_checks_nothing : Instr.nop.wellFormed cfg = true := by decide
theorem test_config_refuses_num_regs_33 : ({ cfg with numRegs := 33 } : Config).valid 0 = false := by decide
theorem test_config_refuses_dmem_size_0 : ({ cfg with dmemSize := 0 } : Config).valid 0 = false := by decide
theorem test_config_refuses_insn_width_0 : ({ cfg with insnWidth := 0 } : Config).valid 0 = false := by decide
theorem test_config_accepts_defaults : cfg.valid 6 = true := by decide

/-! ## Decode: one word for every constructor. The words of ADD, SUBL, DIV, MOVC, CMP, BZ, BNZ, LOAD, STORE, LDI, STI, JUMP,
NOP and HALT are those of 95_test_vectors.md section 2; the others follow its formula
`(op << 58) | (rd << 53) | (rs1 << 48) | (rs2 << 43) | imm`, written out bit by bit. -/

theorem test_decode_add : decode 0x0041080000000000 = .instr (.add 2 1 1) := by decide
theorem test_decode_sub :
    decode 0b000001_00011_00001_00010_00000000000_00000000000000000000000000000000 = .instr (.sub 3 1 2) := by decide
theorem test_decode_mul :
    decode 0b000010_00100_00010_00011_00000000000_00000000000000000000000000000000 = .instr (.mul 4 2 3) := by decide
theorem test_decode_div : decode 0x0C41000000000000 = .instr (.div 2 1 0) := by decide
theorem test_decode_and :
    decode 0b000100_00101_00001_00110_00000000000_00000000000000000000000000000000 = .instr (.and 5 1 6) := by decide
theorem test_decode_or :
    decode 0b000101_00110_00101_00001_00000000000_00000000000000000000000000000000 = .instr (.or 6 5 1) := by decide
theorem test_decode_xor :
    decode 0b000110_00111_00001_00010_00000000000_00000000000000000000000000000000 = .instr (.xor 7 1 2) := by decide
theorem test_decode_movc : decode 0x1C20000000000005 = .instr (.movc 1 5) := by decide
theorem test_decode_load : decode 0x2040000000000000 = .instr (.load 2 0 0) := by decide
theorem test_decode_store : decode 0x2401000000000000 = .instr (.store 1 0 0) := by decide
theorem test_decode_bz : decode 0x2800000000000008 = .instr (.bz 8) := by decide
theorem test_decode_bnz : decode 0x2C000000FFFFFFF8 = .instr (.bnz 0xFFFFFFF8) := by decide
theorem test_decode_halt : decode 0x3000000000000000 = .instr .halt := by decide
theorem test_decode_addl :
    decode 0b001101_00010_00001_00000_00000000000_00000000000000000000000000000101 = .instr (.addl 2 1 5) := by decide
theorem test_decode_subl : decode 0x3821000000000001 = .instr (.subl 1 1 1) := by decide
theorem test_decode_cmp : decode 0x3C01100000000000 = .instr (.cmp 1 2) := by decide
theorem test_decode_bp :
    decode 0b010000_00000_00000_00000_00000000000_11111111111111111111111111111100 = .instr (.bp 0xFFFFFFFC) := by
        decide
theorem test_decode_bnp :
    decode 0b010001_00000_00000_00000_00000000000_00000000000000000000000000000100 = .instr (.bnp 4) := by decide
theorem test_decode_jump : decode 0x480400000000000C = .instr (.jump 4 12) := by decide
theorem test_decode_ldi : decode 0x4C64000000000000 = .instr (.ldi 3 4 0) := by decide
theorem test_decode_sti : decode 0x5003200000000000 = .instr (.sti 3 4 0) := by decide
theorem test_decode_nop : decode 0x5400000000000000 = .instr .nop := by decide
theorem test_decode_ignores_reserved_bits : decode 0x1C2007FF00000005 = .instr (.movc 1 5) := by decide
theorem test_decode_ignores_unused_rs1 : decode 0x1C3F000000000005 = .instr (.movc 1 5) := by decide
theorem test_decode_ignores_fields_of_halt : decode 0x33FFF800FFFFFFFF = .instr .halt := by decide
theorem test_decode_refuses_0x16 : decode 0x5800000000000000 = .illegalInstruction 0x16 := by decide
theorem test_decode_refuses_0x3F : decode 0xFC00000000000000 = .illegalInstruction 0x3F := by decide
theorem test_encode_sti : encode (.sti 3 4 0) = 0x5003200000000000 := by decide
theorem test_encode_bnz : encode (.bnz 0xFFFFFFF8) = 0x2C000000FFFFFFF8 := by decide
theorem test_decodeTableWord_add : decodeTableWord 64 0x0041080000000000 = some (.add 2 1 1) := by decide

/-! ## One step of each instruction -/

/-- The reset state with a code memory. -/
def launched (code : List RecordWord) : CoreState 32 := CoreState.resetWith { Inputs.standard with code := code }

/-- A live latch that holds an instruction at an address, with its operand values. -/
def latch (i : Instr) (pc a b : Word 32) : Latch 32 :=
  { Latch.reset.loadRecord (encode i) pc with hasInsn := true, rs1Value := a, rs2Value := b }

/-- A state at the step of Execute, with `i` at 4012 in `E`, operand values `a` and `b`, and flags `z`, `p`. -/
def inExecute (i : Instr) (a b : Word 32) (z p : Bool) : CoreState 32 :=
  { (launched []).atStage .ex with eLatch := latch i 4012 a b, zeroFlag := z, positiveFlag := p }

/-- A state at the step of Memory, with `i` at 4000 in `M`, its data address and store value, and one word in memory. -/
def inMemory (i : Instr) (address value : Word 32) (dmem : Memory 32) : CoreState 32 :=
  { (launched []).atStage .mem with mLatch := { latch i 4000 value 0 with memoryAddress := address }, dmem := dmem }

/-- A state at the step of Writeback, with `i` in `W` and its two results. -/
def inWriteback (i : Instr) (result second : Word 32) : CoreState 32 :=
  { (launched []).atStage .wb with
    wLatch := { latch i 4000 0 0 with resultBuffer := result, newResultBuffer := second } }

/-- The state at the step of Decode with `i` at 4000 in `D` and `R1 = a`, `R2 = b`. -/
def inDecode (i : Instr) (a b : Word 32) : CoreState 32 :=
  { (launched []).atStage .dec with
    dLatch := latch i 4000 0 0, regs := Bank.put (Bank.put (launched []).regs 1 a) 2 b }

/-- The core a result answers; of a result that answers none, or one of other words, a core with a status no test
expects. -/
def after (r : Result) : CoreState 32 :=
  match r with
  | .next ⟨n, t⟩ => if h : n = 32 then h ▸ t else (launched []).exhaust
  | .fault _ => (launched []).exhaust
  | .refused _ => (launched []).exhaust

/-- What Execute leaves: the result in `M`, `Z` and `P`. -/
def executed (i : Instr) (a b : Word 32) : Word 32 × Bool × Bool :=
  let t := after (exec i ⟨_, inExecute i a b true false⟩)
  (t.mLatch.resultBuffer, t.zeroFlag, t.positiveFlag)

theorem test_add_wraps : executed (.add 3 1 2) 0x7FFFFFFF 1 = (0x80000000, false, false) := by decide
theorem test_add_positive : executed (.add 3 1 2) 5 5 = (10, false, true) := by decide
theorem test_sub_negative : executed (.sub 3 1 2) 3 5 = (0xFFFFFFFE, false, false) := by decide
theorem test_sub_wraps : executed (.sub 3 1 2) 0x80000000 1 = (0x7FFFFFFF, false, true) := by decide
theorem test_mul_keeps_low_word : executed (.mul 3 1 2) 0x00010000 0x00010000 = (0, true, false) := by decide
theorem test_mul_signed : executed (.mul 3 1 2) 0xFFFFFFFD 4 = (0xFFFFFFF4, false, false) := by decide
theorem test_div_truncates : executed (.div 3 1 2) 0xFFFFFFF9 2 = (0xFFFFFFFD, false, false) := by decide
theorem test_div_overflow : executed (.div 3 1 2) 0x80000000 0xFFFFFFFF = (0x80000000, false, false) := by decide
theorem test_and_keeps_flags : executed (.and 3 1 2) 0xF0F0 0xFF00 = (0xF000, true, false) := by decide
theorem test_or_keeps_flags : executed (.or 3 1 2) 0xF0F0 0x0F0F = (0xFFFF, true, false) := by decide
theorem test_xor_keeps_flags : executed (.xor 3 1 2) 0xFFFFFFFF 0x0F0F0F0F = (0xF0F0F0F0, true, false) := by decide
theorem test_addl_zero : executed (.addl 3 1 0xFFFFFFFD) 3 0 = (0, true, false) := by decide
theorem test_subl_negative : executed (.subl 3 1 1) 0 0 = (0xFFFFFFFF, false, false) := by decide
theorem test_movc_keeps_flags : executed (.movc 3 0xFFFFFFFF) 7 7 = (0xFFFFFFFF, true, false) := by decide
theorem test_cmp_wraps : executed (.cmp 1 2) 0x7FFFFFFF 0xFFFFFFFF = (0, false, false) := by decide
theorem test_cmp_wraps_positive : executed (.cmp 1 2) 0x80000000 1 = (0, false, true) := by decide
theorem test_add_reads_source_before_writing :
    (after (exec (.add 1 1 1) ⟨_, inDecode (.add 1 1 1) 3 0⟩)).eLatch.rs1Value = 3 := by decide

theorem test_load_reads_word :
    (after (exec (.load 2 1 0xFFFFFFFC) ⟨_, inMemory (.load 2 1 0xFFFFFFFC) 6 0 [(6, 9)]⟩)).wLatch.resultBuffer = 9 :=
      by
  decide
theorem test_load_faults_at_4096 :
    (after (exec (.load 2 1 0) ⟨_, inMemory (.load 2 1 0) 4096 0 []⟩)).status =
      .faulted .dataAddressOutOfRange .mem 4000 := by decide
theorem test_store_writes_word :
    (after (exec (.store 1 2 3) ⟨_, inMemory (.store 1 2 3) 103 0xFFFFFFF9 []⟩)).dmem = [(103, 0xFFFFFFF9)] := by decide
theorem test_store_address_is_base_plus_imm :
    (after (exec (.store 1 2 3) ⟨_, inExecute (.store 1 2 3) 0xFFFFFFF9 100 false false⟩)).mLatch.memoryAddress =
      103 := by
  decide
theorem test_ldi_increments_base_not_address :
    let t := after (exec (.ldi 3 4 2) ⟨_, inExecute (.ldi 3 4 2) 8 0 false false⟩)
    (t.mLatch.memoryAddress, t.mLatch.newResultBuffer, Bank.get t.byp 4) = (10, 12, 12) := by decide
theorem test_ldi_same_register_keeps_loaded_word :
    Bank.get (after (exec (.ldi 4 4 0) ⟨_, inWriteback (.ldi 4 4 0) 77 12⟩)).regs 4 = 77 := by decide
theorem test_sti_stores_old_base :
    (after (exec (.sti 4 4 0) ⟨_, inMemory (.sti 4 4 0) 8 8 []⟩)).dmem = [(8, 8)] := by decide
theorem test_sti_commits_new_base :
    Bank.get (after (exec (.sti 3 4 0) ⟨_, inWriteback (.sti 3 4 0) 0 12⟩)).regs 4 = 12 := by decide

theorem test_bz_taken : (after (exec (.bz 8) ⟨_, inExecute (.bz 8) 0 0 true false⟩)).pc = 4020 := by decide
theorem test_bz_not_taken :
    (after (exec (.bz 8) ⟨_, inExecute (.bz 8) 0 0 false true⟩)).signals.redirect = false := by decide
theorem test_bnz_taken_backward :
    (after (exec (.bnz 0xFFFFFFF8) ⟨_, inExecute (.bnz 0xFFFFFFF8) 0 0 false false⟩)).pc = 4004 := by decide
theorem test_bp_taken : (after (exec (.bp 0) ⟨_, inExecute (.bp 0) 0 0 false true⟩)).pc = 4012 := by decide
theorem test_bnp_taken : (after (exec (.bnp 4) ⟨_, inExecute (.bnp 4) 0 0 true false⟩)).pc = 4016 := by decide
theorem test_bnp_not_taken :
    (after (exec (.bnp 4) ⟨_, inExecute (.bnp 4) 0 0 false true⟩)).signals.redirect = false := by decide
theorem test_jump_target : (after (exec (.jump 4 12) ⟨_, inExecute (.jump 4 12) 4000 0 false false⟩)).pc = 4012 := by
    decide
theorem test_halt_ends_the_run :
    let t := after (exec .halt ⟨_, inWriteback .halt 0 0⟩)
    (t.status, t.clock, t.retired) = (.halted, 1, 1) := by decide
theorem test_nop_is_dropped :
    let t := after (exec .nop ⟨_, inDecode .nop 0 0⟩)
    (t.dLatch.hasInsn, t.eLatch.hasInsn, t.retired) = (false, false, 0) := by decide

/-- With words of 16 bits every wrap point moves (92_eei_decisions.md D1). -/
theorem test_xlen_16_wraps :
    (addw 0x7FFF 1, mulw 0x100 0x100, divw 0x8000 0xFFFF, immWord 0xFFFFFFFF) =
      ((0x8000, 0, 0x8000, 0xFFFF) : Word 16 × Word 16 × Word 16 × Word 16) := by decide

/-- With words of 64 bits a negative immediate keeps its value (log 1). -/
theorem test_xlen_64_addl :
    addw (0x80000000 : Word 64) (immWord 0xFFFFFFFF) = 0x7FFFFFFF ∧ addw (0x7FFFFFFF : Word 64) 1 = 0x80000000 := by
        decide

/-- A core with words of 64 bits steps like any other. -/
theorem test_xlen_64_steps :
    (match step ⟨64, CoreState.resetWith { Inputs.standard with code := [encode (.movc 1 5)] }⟩ with
      | .next t => decide (t.xlen = 64 ∧ t.core.dLatch.instr = some (.movc 1 5) ∧ t.core.clock = 1)
      | .fault _ => false
      | .refused _ => false) = true := by decide

/-- The first step after reset fetches the record placed by `withFetchWord`. -/
theorem test_withFetchWord_is_fetched :
    let t := after (step (State.reset.withFetchWord 64 0x1C20000000000005))
    (t.dLatch.instr, t.pc, t.clock) = (some (.movc 1 5), 4004, 1) := by decide
/-- A register index at NUM_REGS faults before it stalls (95_test_vectors.md section 2, decode check order). -/
theorem test_missing_register_faults_first :
    (after (exec (.add 20 1 1) ⟨_, { inDecode (.add 20 1 1) 0 0 with
      sb := Bank.put (launched []).sb 1 true }⟩)).status =
      .faulted .registerIndexOutOfRange .dec 4000 := by decide

/-! ## The hypotheses of the obligations are met -/

/-- A result that answers a core of 32-bit words answers the one `after` gives. -/
theorem eq_next_after {r : Result}
    (h : (match r with | .next s => decide (s.xlen = 32) | .fault _ => false | .refused _ => false) = true) :
    r = .next ⟨_, after r⟩ := by
  cases r with
  | next s =>
    obtain ⟨n, t⟩ := s
    obtain rfl : n = 32 := of_decide_eq_true h
    rfl
  | fault f => exact nomatch f
  | refused f => simp at h

/-- A sum at the top of the range of 32-bit words, and a difference at the bottom. -/
theorem test_met_WordArithmeticWrapsAtXlen :
    (-(2 ^ 31) ≤ signed (0x7FFFFFFE : Word 32) + signed (1 : Word 32) ∧
      signed (0x7FFFFFFE : Word 32) + signed (1 : Word 32) ≤ 2 ^ 31 - 1) ∧
    (-(2 ^ 31) ≤ signed (0x80000001 : Word 32) - signed (1 : Word 32) ∧
      signed (0x80000001 : Word 32) - signed (1 : Word 32) ≤ 2 ^ 31 - 1) := by decide

theorem test_met_ImmediateIsTheWordOfItsValue : 32 ≤ 64 ∧ 15 < 16 ∧ 16 ≤ 32 := by decide

theorem test_met_IgnoredBitsChangeNothing :
    decode 0x1C3F07FF00000005 = .instr (.movc 1 5) ∧
    (0x1C20000000000005 : RecordWord) &&& usedBits (.movc 1 5) = 0x1C3F07FF00000005 &&& usedBits (.movc 1 5) := by
      decide

theorem test_met_DivisionTruncatesTowardZero :
    (2 : Word 32) ≠ 0 ∧ (inExecute (.div 3 1 2) 5 0 false false).signals.stage = .ex ∧
    (inExecute (.div 3 1 2) 5 0 false false).eLatch.rs2Value = 0 := by decide

theorem test_met_FlagsComeFromOneWord :
    (inExecute (.div 3 1 2) 0x80000000 0xFFFFFFFF false false).signals.stage = .ex ∧
    (inExecute (.div 3 1 2) 0x80000000 0xFFFFFFFF false false).eLatch.rs2Value ≠ 0 := by decide

theorem test_met_ArithmeticInstructionsComplete :
    (inDecode (.add 3 1 2) 5 7).canDispatch (.add 3 1 2) ∧ (inDecode (.sub 15 1 2) 5 7).canDispatch (.sub 15 1 2) ∧
    (inDecode (.mul 1 1 1) 5 7).canDispatch (.mul 1 1 1) := by decide

theorem test_met_DivisionCompletes :
    (inDecode (.div 3 1 2) 0x80000000 0xFFFFFFFF).canDispatch (.div 3 1 2) ∧
    (inDecode (.div 3 1 2) 0x80000000 0xFFFFFFFF).operand 2 ≠ 0 := by decide

theorem test_met_LogicalInstructionsComplete :
    (inDecode (.and 3 1 2) 5 7).canDispatch (.and 3 1 2) ∧ (inDecode (.or 3 1 2) 5 7).canDispatch (.or 3 1 2) ∧
    (inDecode (.xor 2 1 2) 5 7).canDispatch (.xor 2 1 2) := by decide

theorem test_met_ImmediateInstructionsComplete :
    (inDecode (.addl 3 1 9) 5 7).canDispatch (.addl 3 1 9) ∧ (inDecode (.subl 1 1 1) 5 7).canDispatch (.subl 1 1 1) :=
      by
  decide

theorem test_met_MoveImmediateCompletes : (inDecode (.movc 15 5) 0 0).inputs.cfg.hasReg 15 = true := by decide

theorem test_met_CompareCompletes : (inDecode (.cmp 1 2) 3 3).canDispatch (.cmp 1 2) := by decide

theorem test_met_LoadCompletes :
    (inDecode (.load 3 1 0) 4095 0).canDispatch (.load 3 1 0) ∧
    (inDecode (.load 3 1 0) 4095 0).validAddress ((inDecode (.load 3 1 0) 4095 0).operand 1 + immWord 0) = true := by
      decide

theorem test_met_LoadIncrementCompletes :
    (inDecode (.ldi 1 1 0) 0 0).canDispatch (.ldi 1 1 0) ∧
    (inDecode (.ldi 1 1 0) 0 0).validAddress ((inDecode (.ldi 1 1 0) 0 0).operand 1 + immWord 0) = true := by decide

theorem test_met_StoreCompletes :
    (inDecode (.store 1 2 3) 9 4092).canDispatch (.store 1 2 3) ∧
    Memory.wf (inDecode (.store 1 2 3) 9 4092).dmem = true ∧
    (inDecode (.store 1 2 3) 9 4092).validAddress ((inDecode (.store 1 2 3) 9 4092).operand 2 + immWord 3) = true :=
      by decide

theorem test_met_StoreIncrementCompletes :
    (inDecode (.sti 1 2 0) 9 8).canDispatch (.sti 1 2 0) ∧ Memory.wf (inDecode (.sti 1 2 0) 9 8).dmem = true ∧
    (inDecode (.sti 1 2 0) 9 8).validAddress ((inDecode (.sti 1 2 0) 9 8).operand 2 + immWord 0) = true := by decide

theorem test_met_JumpCompletes : (inDecode (.jump 1 12) 4000 0).inputs.cfg.hasReg 1 = true := by decide

theorem test_met_NopIsDroppedInDecode : (inDecode .nop 0 0).signals.stage = .dec := by decide

theorem test_met_DispatchMarksDestinations :
    Instr.ldi 3 1 0 ≠ .nop ∧ (inDecode (.ldi 3 1 0) 8 0).signals.stage = .dec ∧
    (inDecode (.ldi 3 1 0) 8 0).canDispatch (.ldi 3 1 0) ∧
    Instr.ldi 3 1 0 ∈ [Instr.addl 3 1 0, .subl 3 1 0, .load 3 1 0, .ldi 3 1 0, .jump 1 0] ∧
    (inDecode (.sub 3 1 2) 8 0).canDispatch (.sub 3 1 2) := by decide

theorem test_met_HazardFreeInstructionsAlwaysDispatch :
    (inDecode (.jump 1 12) 4000 0).signals.stage = .dec ∧
    (Instr.jump 1 12).wellFormed (inDecode (.jump 1 12) 4000 0).inputs.cfg = true := by decide

/-- A state that holds ADD R2,R1,R1 in Decode with a write of R1 pending. -/
def pending : CoreState 32 :=
  { inDecode (.add 2 1 1) 0 0 with sb := Bank.put (launched []).sb 1 true }

theorem test_met_UnreadySourceStalls :
    pending.signals.stage = .dec ∧ (Instr.add 2 1 1).wellFormed pending.inputs.cfg = true ∧
    (1 : RegIndex) ∈ sourcesOf (.add 2 1 1) ∧ Bank.get pending.bv 1 = false ∧ Bank.get pending.sb 1 = true := by decide

/-- The boundary: index 16 is missing, index 15 exists; and the core with all 32 registers. -/
theorem test_met_MissingRegisterFaults :
    (inDecode (.add 16 1 2) 0 0).signals.stage = .dec ∧ (16 : RegIndex) ∈ (Instr.add 16 1 2).usedRegs ∧
    (inDecode (.add 16 1 2) 0 0).inputs.cfg.numRegs ≤ (16 : RegIndex).toNat ∧
    (inDecode (.add 15 1 2) 0 0).status = .running ∧
    (∀ r ∈ (Instr.add 15 1 2).usedRegs, r.toNat < (inDecode (.add 15 1 2) 0 0).inputs.cfg.numRegs) ∧
    ({ inDecode (.add 31 1 2) 0 0 with
      inputs := { Inputs.standard with cfg := { cfg with numRegs := 32 } } } : CoreState 32).inputs.cfg.numRegs =
          32 := by decide

/-- A state with the record of opcode 0x16 and `rd = 31` in Decode. -/
def illegal : CoreState 32 :=
  { (launched []).atStage .dec with
    dLatch := { Latch.reset.loadRecord 0x5BE0000000000000 4000 with hasInsn := true } }

theorem test_met_IllegalInstructionFaults : illegal.dLatch.hasInsn = true ∧ 0x16 ≤ illegal.dLatch.opcode.toNat := by
  decide

theorem test_met_DivideByZeroFaults :
    (inExecute (.div 3 1 2) 5 0 false false).signals.stage = .ex ∧
    (inExecute (.div 3 1 2) 5 0 false false).eLatch.rs2Value = 0 ∧
    (inExecute (.div 3 1 2) 5 1 false false).signals.stage = .ex ∧
    (inExecute (.div 3 1 2) 5 1 false false).status = .running ∧
    (inExecute (.div 3 1 2) 5 1 false false).eLatch.rs2Value ≠ 0 := by decide

/-- The boundaries of the valid addresses: -1 and 4096 are outside. -/
theorem test_met_DataAddressOutOfRangeFaults :
    (inMemory (.load 2 1 0) 0xFFFFFFFF 0 []).signals.stage = .mem ∧
    signed (inMemory (.load 2 1 0) 0xFFFFFFFF 0 []).mLatch.memoryAddress < 0 ∧
    ((inMemory (.sti 2 1 0) 4096 0 []).inputs.cfg.dmemSize : Int) ≤
      signed (inMemory (.sti 2 1 0) 4096 0 []).mLatch.memoryAddress := by decide

/-- The three classes with 6 records (95_test_vectors.md section 5.3). -/
theorem test_met_FetchClassFollowsAddress :
    1 ≤ cfg.insnWidth ∧ fetchClassOf cfg 6 (4020 : Word 32) = .index 5 ∧
    fetchClassOf cfg 6 (4024 : Word 32) = .exhausted ∧
    fetchClassOf cfg 6 (4001 : Word 32) = .fault ∧ fetchClassOf cfg 6 (3996 : Word 32) = .fault ∧
    fetchClassOf cfg 6 (0x80000000 : Word 32) = .fault ∧
    fetchClassOf cfg 6 (0x7FFFFFFC : Word 32) = .exhausted := by decide

/-- The reset state with two records, MOVC R1,#5 and HALT. -/
def twoRecords : CoreState 32 := launched [0x1C20000000000005, 0x3000000000000000]

theorem test_met_FetchDeliversRecord :
    (twoRecords.atStage .fetch).signals.stage = .fetch ∧ twoRecords.fLatch.hasInsn = true ∧
    twoRecords.signals.redirect = false ∧ twoRecords.signals.stall = false ∧ twoRecords.fetchClass = .index 0 := by
        decide

theorem test_met_FetchModesThatDeliverNothing :
    twoRecords.stopFetch.fLatch.hasInsn = false ∧ (twoRecords.redirect 4004).signals.redirect = true ∧
    (twoRecords.raiseStall.fLatch.hasInsn = true ∧ twoRecords.raiseStall.signals.redirect = false ∧
      twoRecords.raiseStall.signals.stall = true ∧ twoRecords.raiseStall.fetchClass = .index 0) ∧
    ({ twoRecords.raiseStall with pc := 4001 } : CoreState 32).fetchClass = .fault ∧
      (launched []).fetchClass = .exhausted ∧
    ({ twoRecords with pc := 4001 } : CoreState 32).fetchClass = .fault := by decide

theorem test_met_StepRunsDecodedInstruction :
    twoRecords.ticking ∧ twoRecords.drained = true ∧ twoRecords.fLatch.hasInsn = true ∧
    twoRecords.fetchClass = .index 0 ∧ decode (twoRecords.codeRecord 0) = .instr (.movc 1 5) := by decide

/-- A state between ticks with an instruction in each latch: MOVC R1,#1 in `W`, STORE R1,R0,#0 in `M` at address 3, ADD in
`E` for R2, ADDL R3,R2,#1 in `D`. -/
def full : CoreState 32 :=
  { twoRecords with
    wLatch := { latch (.movc 1 1) 3984 0 0 with resultBuffer := 1 }
    mLatch := { latch (.store 1 0 0) 3988 7 0 with memoryAddress := 3 }
    eLatch := latch (.add 2 1 1) 3992 4 5
    dLatch := latch (.addl 3 2 1) 3996 0 0 }

theorem test_met_EveryStageRunsItsInstruction :
    full.ticking ∧ (full.wLatch.hasInsn = true ∧ full.wLatch.instr = some (.movc 1 1)) ∧
    (full.mLatch.hasInsn = true ∧ full.mLatch.instr = some (.store 1 0 0)) ∧
    (full.eLatch.hasInsn = true ∧ full.eLatch.instr = some (.add 2 1 1)) ∧
    (full.dLatch.hasInsn = true ∧ full.dLatch.instr = some (.addl 3 2 1)) := by decide

theorem test_met_TerminalStatusHoldsEverything :
    (launched []).halt.validCore ∧ (launched []).halt.inputs.rst = false ∧ (launched []).halt.status ≠ .running := by
  decide

/-- A state with the pins `rst` and `tick_en` as given. -/
def pinned (rst tickEn : Bool) : CoreState 32 :=
  { full with inputs := { full.inputs with rst := rst, tickEn := tickEn } }

theorem test_met_PausedEdgeHoldsEverything :
    (pinned false false).validCore ∧ (pinned false false).inputs.rst = false ∧
    (pinned false false).inputs.tickEn = false := by decide

theorem test_met_ResetEdgeResetsEverything :
    (pinned true false).validCore ∧ (pinned true false).inputs.rst = true := by decide

/-- A state whose parameters are those given. -/
def configured (c : Config) : CoreState 32 := { launched [] with inputs := { Inputs.standard with cfg := c } }

/-- Each constraint broken at its boundary, and an `XLEN` that is not 32. -/
theorem test_met_InvalidConfigurationIsRefused :
    (configured { cfg with numRegs := 0 }).inputs.cfg.numRegs = 0 ∧
    32 < (configured { cfg with numRegs := 33 }).inputs.cfg.numRegs ∧
    (configured { cfg with dmemSize := 0 }).inputs.cfg.dmemSize = 0 ∧
    2 ^ 31 - 1 < (configured { cfg with dmemSize := 2 ^ 31 }).inputs.cfg.dmemSize ∧
    (configured { cfg with insnWidth := 0 }).inputs.cfg.insnWidth = 0 ∧
    2 ^ 31 - 1 < (configured { cfg with codeBase := 2 ^ 31 }).inputs.cfg.codeBase +
      (configured { cfg with codeBase := 2 ^ 31 }).inputs.cfg.insnWidth *
      (configured { cfg with codeBase := 2 ^ 31 }).inputs.code.length := by decide

theorem test_met_FirstTickAfterReset :
    (launched []).ticking ∧ (32 ≤ 32 ∨ (launched []).inputs.AddressesFit) ∧ (launched []).inputs.code = [] ∧
    (launched [0x3000000000000000]).ticking := by decide

/-- The same with words of 16 bits, which hold the code's addresses. -/
theorem test_met_FirstTickAfterReset_narrow :
    (CoreState.resetWith ({ Inputs.standard with code := [0x3000000000000000] } : Inputs 16)).ticking ∧
    ({ Inputs.standard with code := [0x3000000000000000] } : Inputs 16).AddressesFit := by decide

/-- A tick answers a next state: the hypotheses of the obligations about a tick from a given state are met by `full`. -/
theorem full_steps : step ⟨_, full⟩ = .next ⟨_, after (step ⟨_, full⟩)⟩ := eq_next_after (by decide)

theorem test_met_StepNeverChangesInputs : step ⟨_, full⟩ = .next ⟨_, after (step ⟨_, full⟩)⟩ := full_steps

theorem test_met_CountersCountTicksAndRetirements :
    full.ticking ∧ step ⟨_, full⟩ = .next ⟨_, after (step ⟨_, full⟩)⟩ ∧ (after (step ⟨_, full⟩)).status = .running := by
  exact ⟨by decide, full_steps, by decide⟩

theorem test_met_OnlyWritebackWritesRegisters :
    full.ticking ∧ step ⟨_, full⟩ = .next ⟨_, after (step ⟨_, full⟩)⟩ ∧ ¬full.wLatch.Writes 2 := by
  refine ⟨by decide, full_steps, ?_⟩
  rintro ⟨_, i, hi, hr⟩
  obtain rfl : i = .movc 1 1 := by
    have h : full.wLatch.instr = some (.movc 1 1) := by decide
    exact Option.some.inj (hi.symm.trans h)
  exact absurd hr (by decide)

theorem test_met_TickCommitsWritebackLatch :
    full.ticking ∧ step ⟨_, full⟩ = .next ⟨_, after (step ⟨_, full⟩)⟩ ∧ full.wLatch.hasInsn = true ∧
    full.wLatch.instr = some (.movc 1 1) ∧ executeResult (.movc 1 1) full.wLatch = some (1, 1) := by
  exact ⟨by decide, full_steps, by decide, by decide, by decide⟩

/-- A state with the LDI or STI of the other clauses in `W`. -/
def fullWith (i : Instr) : CoreState 32 :=
    { full with wLatch := { latch i 3984 0 0 with resultBuffer := 77, newResultBuffer := 12 } }

theorem test_met_TickCommitsWritebackLatch_ldi_sti :
    (fullWith (.ldi 3 4 0)).ticking ∧
      step ⟨_, fullWith (.ldi 3 4 0)⟩ = .next ⟨_, after (step ⟨_, fullWith (.ldi 3 4 0)⟩)⟩ ∧
    (fullWith (.ldi 3 4 0)).wLatch.instr = some (.ldi 3 4 0) ∧ (4 : RegIndex) ≠ 3 ∧
    (fullWith (.sti 3 4 0)).ticking ∧
      step ⟨_, fullWith (.sti 3 4 0)⟩ = .next ⟨_, after (step ⟨_, fullWith (.sti 3 4 0)⟩)⟩ ∧
    (fullWith (.sti 3 4 0)).wLatch.instr = some (.sti 3 4 0) := by
  exact ⟨by decide, eq_next_after (by decide), by decide, by decide, by decide, eq_next_after (by decide), by decide⟩

/-- The STORE in `M` writes address 3; address 4 is outside it. -/
theorem test_met_OnlyStoresWriteMemory :
    full.ticking ∧ step ⟨_, full⟩ = .next ⟨_, after (step ⟨_, full⟩)⟩ ∧
    (signed full.mLatch.memoryAddress).toNat ≠ 4 := by
  exact ⟨by decide, full_steps, by decide⟩

/-- A state with an AND, which writes no flag, in `E`. -/
def fullAnd : CoreState 32 := { full with eLatch := latch (.and 2 1 1) 3992 4 5, zeroFlag := true }

theorem test_met_OnlyArithmeticAndCompareWriteFlags :
    fullAnd.ticking ∧ step ⟨_, fullAnd⟩ = .next ⟨_, after (step ⟨_, fullAnd⟩)⟩ ∧
    (fullAnd.eLatch.hasInsn = true → ∀ i, fullAnd.eLatch.instr = some i → writesFlags i = false) := by
  refine ⟨by decide, eq_next_after (by decide), fun _ i hi => ?_⟩
  obtain rfl : i = .and 2 1 1 := by
    have h : fullAnd.eLatch.instr = some (.and 2 1 1) := by decide
    exact Option.some.inj (hi.symm.trans h)
  rfl

theorem test_met_PcChangesInTwoWays : full.ticking ∧ step ⟨_, full⟩ = .next ⟨_, after (step ⟨_, full⟩)⟩ :=
    ⟨by decide, full_steps⟩

/-- A state with a taken branch at 4000 in `E` and its fall-through in `D`. -/
def branching : CoreState 32 :=
  { twoRecords with eLatch := latch (.bz 8) 4000 0 0, dLatch := latch (.movc 3 99) 4004 0 0, zeroFlag := true }

/-- Nothing is in `W` or `M` of a state whose latches there are empty. -/
theorem noHaltCommit_of_empty {s : CoreState 32} (h : s.wLatch.hasInsn = false) : s.NoHaltCommit := fun x => by
    simp [x.1] at h
theorem noMemoryFault_of_empty {s : CoreState 32} (h : s.mLatch.hasInsn = false) : s.NoMemoryFault := fun x => by
    simp [x] at h

theorem test_met_TakenBranchFlushesDecode :
    branching.ticking ∧ branching.NoHaltCommit ∧ branching.NoMemoryFault ∧ branching.eLatch.hasInsn = true ∧
    branching.eLatch.instr = some (.bz 8) ∧ takenTarget branching (.bz 8) branching.eLatch = some 4008 :=
  ⟨by decide, noHaltCommit_of_empty (by decide), noMemoryFault_of_empty (by decide), by decide, by decide, by decide⟩

/-- MOVC R1,#5 in `E`, ADDL R2,R1,#1 in `D`, and the write of R1 pending. -/
def forwarding : CoreState 32 :=
  { twoRecords with
    eLatch := latch (.movc 1 5) 4000 0 0
    dLatch := latch (.addl 2 1 1) 4004 0 0
    sb := Bank.put twoRecords.sb 1 true }

theorem test_met_ExecutedValueIsForwardedInTheSameTick :
    forwarding.ticking ∧ forwarding.NoHaltCommit ∧ forwarding.NoMemoryFault ∧ forwarding.eLatch.hasInsn = true ∧
    forwarding.eLatch.instr = some (.movc 1 5) ∧
    executeProduces forwarding.inputs.cfg (.movc 1 5) forwarding.eLatch = some (1, 5) ∧
    forwarding.dLatch.hasInsn = true ∧ forwarding.dLatch.instr = some (.addl 2 1 1) ∧
    (Instr.addl 2 1 1).wellFormed forwarding.inputs.cfg = true ∧ (1 : RegIndex) ∈ sourcesOf (.addl 2 1 1) ∧
    (∀ q ∈ sourcesOf (.addl 2 1 1), q = 1 ∨ forwarding.ready q = true) :=
  ⟨by decide, noHaltCommit_of_empty (by decide), noMemoryFault_of_empty (by decide), by decide, by decide, by decide,
    by decide, by decide, by decide, by decide, by decide⟩

/-- LDI R3,R4,#2 in `E` with base 8, STORE R1,R4,#0 in `D`, and the writes of R3 and R4 pending. -/
def forwardingBase : CoreState 32 :=
  { twoRecords with
    eLatch := latch (.ldi 3 4 2) 4000 8 0
    dLatch := latch (.store 1 4 0) 4004 0 0
    sb := Bank.put (Bank.put twoRecords.sb 3 true) 4 true }

/-- The incremented base, read as the second checked source. -/
theorem test_met_ExecutedValueIsForwardedInTheSameTick_base :
    forwardingBase.ticking ∧ forwardingBase.NoHaltCommit ∧ forwardingBase.NoMemoryFault ∧
    forwardingBase.eLatch.hasInsn = true ∧ forwardingBase.eLatch.instr = some (.ldi 3 4 2) ∧
    executeProduces forwardingBase.inputs.cfg (.ldi 3 4 2) forwardingBase.eLatch = some (4, 12) ∧
    forwardingBase.dLatch.hasInsn = true ∧ forwardingBase.dLatch.instr = some (.store 1 4 0) ∧
    (Instr.store 1 4 0).wellFormed forwardingBase.inputs.cfg = true ∧ (sourcesOf (.store 1 4 0))[1]? = some 4 ∧
    (∀ q ∈ sourcesOf (.store 1 4 0), q = 4 ∨ forwardingBase.ready q = true) :=
  ⟨by decide, noHaltCommit_of_empty (by decide), noMemoryFault_of_empty (by decide), by decide, by decide, by decide,
    by decide, by decide, by decide, by decide, by decide⟩

/-- HALT in `W`. -/
def halting : CoreState 32 :=
  { twoRecords with wLatch := latch .halt 4004 0 0, fLatch := twoRecords.fLatch.emptied, pc := 4008 }

theorem halting_inv : halting.Inv where
  signals_rest := rfl
  memory := ⟨by decide, by decide⟩
  flags := fun h => absurd h (by decide)
  absent := by unfold CoreState.AbsentUntouched; decide
  past_decode_e := fun h => absurd h (by decide)
  past_decode_m := fun h => absurd h (by decide)
  past_decode_w := fun _ => ⟨.halt, by decide, by decide, by decide⟩
  from_code_d := fun h => absurd h (by decide)
  from_code_e := fun h => absurd h (by decide)
  from_code_m := fun h => absurd h (by decide)
  from_code_w := fun _ => ⟨1, by decide, by decide, by decide, by decide, by decide, by decide⟩
  halt_youngest := by unfold CoreState.HaltYoungest Latch.HoldsHalt; decide
  scoreboard := by
    intro r hr
    have h : ∀ q : RegIndex, Bank.get halting.sb q = false := by decide
    simp [h r] at hr
  status_true := trivial

theorem test_met_CommittedHaltEndsTheTick : halting.ticking ∧ halting.wLatch.HoldsHalt ∧ halting.Inv :=
  ⟨by decide, ⟨by decide, by decide⟩, halting_inv⟩

/-- A DIV by 0 in `E` and an illegal record in `D` (95_test_vectors.md, program P24). -/
def twoFaults : CoreState 32 := { twoRecords with eLatch := latch (.div 2 1 0) 4004 5 0, dLatch := illegal.dLatch }

/-- The same with a STORE at address 4096 in `M`. -/
def threeFaults : CoreState 32 :=
    { twoFaults with mLatch := { latch (.store 1 0 0) 4000 7 0 with memoryAddress := 4096 } }

/-- The record of the latch in `D`, nothing else in flight, and a PC that Fetch cannot map. -/
def decodeFault (l : Latch 32) : CoreState 32 := { twoRecords with dLatch := l, pc := 4001 }

theorem executeGoesOn_of_empty {s : CoreState 32} (h : s.eLatch.hasInsn = false) : s.ExecuteGoesOn := fun x => by
    simp [x] at h

theorem test_met_OldestFaultIsReported :
    (threeFaults.ticking ∧ threeFaults.NoHaltCommit ∧ threeFaults.mLatch.hasInsn = true ∧
      threeFaults.mLatch.instr = some (.store 1 0 0) ∧ isMemoryInstr (.store 1 0 0) = true ∧
      threeFaults.validAddress threeFaults.mLatch.memoryAddress = false) ∧
    (twoFaults.ticking ∧ twoFaults.NoHaltCommit ∧ twoFaults.NoMemoryFault ∧ twoFaults.eLatch.hasInsn = true ∧
      twoFaults.eLatch.instr = some (.div 2 1 0) ∧ twoFaults.eLatch.rs2Value = 0) ∧
    ((decodeFault illegal.dLatch).ticking ∧ (decodeFault illegal.dLatch).NoHaltCommit ∧
      (decodeFault illegal.dLatch).NoMemoryFault ∧ (decodeFault illegal.dLatch).ExecuteGoesOn ∧
      (decodeFault illegal.dLatch).dLatch.hasInsn = true ∧ (decodeFault illegal.dLatch).dLatch.instr = none) ∧
    ((decodeFault (latch (.movc 16 1) 4004 0 0)).dLatch.hasInsn = true ∧
      (decodeFault (latch (.movc 16 1) 4004 0 0)).dLatch.instr = some (.movc 16 1) ∧
      (Instr.movc 16 1).wellFormed (decodeFault (latch (.movc 16 1) 4004 0 0)).inputs.cfg = false) :=
  ⟨⟨by decide, noHaltCommit_of_empty (by decide), by decide, by decide, by decide, by decide⟩,
    ⟨by decide, noHaltCommit_of_empty (by decide), noMemoryFault_of_empty (by decide), by decide, by decide, by decide⟩,
    ⟨by decide, noHaltCommit_of_empty (by decide), noMemoryFault_of_empty (by decide),
      executeGoesOn_of_empty (by decide), by decide, by decide⟩,
    by decide, by decide, by decide⟩

theorem test_met_EmptyPipelineExhausts :
    ((launched []).ticking ∧ (launched []).drained = true ∧ (launched []).cannotFetch = true) ∧
    (({ launched [] with pc := 3996 } : CoreState 32).ticking ∧
      ({ launched [] with pc := 3996 } : CoreState 32).drained = true ∧
      ({ launched [] with pc := 3996 } : CoreState 32).fLatch.hasInsn = true ∧
      ({ launched [] with pc := 3996 } : CoreState 32).fetchClass = .fault) := by decide

/-- A store in `M` of the word 42 and a load in `E`, both at address 0. -/
def storeThenLoad (st ld : Instr) : CoreState 32 :=
  { twoRecords with mLatch := { latch st 4000 42 0 with memoryAddress := 0 }, eLatch := latch ld 4004 0 0 }

theorem test_met_LoadReadsTheStoreBeforeIt :
    ∀ c ∈ [(Instr.store 1 0 0, Instr.load 2 0 0), (.sti 1 3 0, .ldi 2 0 0)],
      (storeThenLoad c.1 c.2).ticking ∧ (storeThenLoad c.1 c.2).NoHaltCommit ∧
      Memory.wf (storeThenLoad c.1 c.2).dmem = true ∧ (storeThenLoad c.1 c.2).mLatch.hasInsn = true ∧
      (storeThenLoad c.1 c.2).mLatch.instr = some c.1 ∧
      (storeThenLoad c.1 c.2).validAddress (storeThenLoad c.1 c.2).mLatch.memoryAddress = true ∧
      (storeThenLoad c.1 c.2).eLatch.hasInsn = true ∧ (storeThenLoad c.1 c.2).eLatch.instr = some c.2 ∧
      (storeThenLoad c.1 c.2).eLatch.rs1Value + immWord 0 = (storeThenLoad c.1 c.2).mLatch.memoryAddress ∧
      step ⟨_, storeThenLoad c.1 c.2⟩ = .next ⟨_, after (step ⟨_, storeThenLoad c.1 c.2⟩)⟩ ∧
      (after (step ⟨_, storeThenLoad c.1 c.2⟩)).status = .running ∧
      step ⟨_, after (step ⟨_, storeThenLoad c.1 c.2⟩)⟩ =
          .next ⟨_, after (step ⟨_, after (step ⟨_, storeThenLoad c.1 c.2⟩)⟩)⟩ := by
  intro c hc
  simp only [List.mem_cons, List.not_mem_nil, or_false] at hc
  rcases hc with rfl | rfl <;>
    exact ⟨by decide, noHaltCommit_of_empty (by decide), by decide, by decide, by decide, by decide, by decide,
      by decide, by decide, eq_next_after (by decide), by decide, eq_next_after (by decide)⟩

theorem test_met_StepKeepsMemoryOk : full.MemoryOk ∧ step ⟨_, full⟩ = .next ⟨_, after (step ⟨_, full⟩)⟩ :=
  ⟨⟨by decide, by decide⟩, full_steps⟩

theorem test_met_StepKeepsFlagsExclusive : full.FlagsExclusive ∧ step ⟨_, full⟩ = .next ⟨_, after (step ⟨_, full⟩)⟩ :=
  ⟨fun h => absurd h (by decide), full_steps⟩

/-- LOAD R1,R0,#0 in `E` and ADD R2,R1,R1 behind it in `D`: the load-use case, which stalls for two ticks
(70_reset_and_hazards.md R186). -/
def loadUse : CoreState 32 :=
  { launched [encode (.load 1 0 0), encode (.add 2 1 1)] with
    eLatch := latch (.load 1 0 0) 4000 0 0
    dLatch := latch (.add 2 1 1) 4004 0 0
    sb := Bank.put (launched []).sb 1 true
    pc := 4008 }

theorem loadUse_inv : loadUse.Inv where
  signals_rest := rfl
  memory := ⟨by decide, by decide⟩
  flags := fun h => absurd h (by decide)
  absent := by unfold CoreState.AbsentUntouched; decide
  past_decode_e := fun _ => ⟨.load 1 0 0, by decide, by decide, by decide⟩
  past_decode_m := fun h => absurd h (by decide)
  past_decode_w := fun h => absurd h (by decide)
  from_code_d := fun _ => ⟨1, by decide, by decide, by decide, by decide, by decide, by decide⟩
  from_code_e := fun _ => ⟨0, by decide, by decide, by decide, by decide, by decide, by decide⟩
  from_code_m := fun h => absurd h (by decide)
  from_code_w := fun h => absurd h (by decide)
  halt_youngest := by unfold CoreState.HaltYoungest Latch.HoldsHalt; decide
  scoreboard := fun r hr => .inl ⟨rfl, .load 1 0 0, by decide, by
    revert r
    decide⟩
  status_true := trivial

theorem test_met_StepKeepsInvariant : loadUse.Inv ∧ step ⟨_, loadUse⟩ = .next ⟨_, after (step ⟨_, loadUse⟩)⟩ :=
  ⟨loadUse_inv, eq_next_after (by decide)⟩

theorem test_met_StallLastsAtMostTwoTicks :
    loadUse.Inv ∧ loadUse.ticking ∧ stallSignal loadUse = true ∧
    step ⟨_, loadUse⟩ = .next ⟨_, after (step ⟨_, loadUse⟩)⟩ ∧
    stallSignal (after (step ⟨_, loadUse⟩)) = true ∧
    step ⟨_, after (step ⟨_, loadUse⟩)⟩ = .next ⟨_, after (step ⟨_, after (step ⟨_, loadUse⟩)⟩)⟩ :=
  ⟨loadUse_inv, by decide, by decide, eq_next_after (by decide), by decide, eq_next_after (by decide)⟩

/-- The reset state with one record, LDI R3,R4,#2. -/
def alone : CoreState 32 := launched [encode (.ldi 3 4 2)]

theorem test_met_RunAloneMatchesPassage :
    alone.ticking ∧ alone.drained = true ∧ alone.fLatch.hasInsn = true ∧
    (32 ≤ 32 ∨ alone.inputs.AddressesFit) ∧ alone.fetchClass = .index 0 ∧ alone.inputs.code.length = 0 + 1 ∧ decode (alone.codeRecord 0) = .instr (.ldi 3 4 2) ∧
    (∀ l, takenTarget alone (.ldi 3 4 2) l = none) ∧ alone.canDispatch (.ldi 3 4 2) ∧
    ∃ s1 s2 s3 s4, Passage (.ldi 3 4 2) (alone.delivered 0) s1 s2 s3 s4 ∧ s4.status = .running := by
  refine ⟨by decide, by decide, by decide, by decide, by decide, by decide, by decide, fun _ => rfl, by decide, ?_⟩
  exact ⟨_, _, _, _, ⟨exec_dec _ rfl, exec_ex _ rfl, exec_mem _ rfl, exec_wb _ rfl⟩, by decide⟩

end Sys2Proof.Tests
end

