-- ==== Sys2Proof/Proofs/Scope.lean ====
section
/-!
PROOFS. The statements of 00_scope.md: the words and their wrap, the values at reset, the configurations that are refused.
-/

namespace Sys2Proof

/-- A configuration is invalid exactly when it breaks one of the constraints of 00_scope.md R9. -/
theorem Config.valid_eq_false_iff (cfg : Config) (n : Nat) :
    cfg.valid n = false ↔ cfg.numRegs = 0 ∨ 32 < cfg.numRegs ∨ cfg.dmemSize = 0 ∨ 2 ^ 31 - 1 < cfg.dmemSize ∨
      cfg.insnWidth = 0 ∨ 2 ^ 31 - 1 < cfg.codeBase + cfg.insnWidth * n := by
  simp only [Config.valid, decide_eq_false_iff_not]
  omega

end Sys2Proof

namespace Sys2Proof.Machine

open Sys2Proof.Claims

variable {xlen : Nat}

/-! ## Words: `wrap` and `signed` (00_scope.md R12) -/

/-- The unsigned value of `wrap n` is the remainder of `n` modulo `2^XLEN`. -/
theorem toNat_wrap (n : Int) : ((wrap n : Word xlen).toNat : Int) = n % 2 ^ xlen := by
  have hnonneg : 0 ≤ n % 2 ^ xlen := Int.emod_nonneg n (pow_ne_zero xlen two_ne_zero)
  simpa [wrap, BitVec.toNat_ofInt] using hnonneg

@[simp] theorem wrap_signed (a : Word xlen) : wrap (signed a) = a := BitVec.ofInt_toInt

theorem neg_two_pow_le_signed (a : Word (xlen + 1)) : -(2 ^ xlen) ≤ signed a := BitVec.le_toInt a

theorem signed_le (a : Word (xlen + 1)) : signed a ≤ 2 ^ xlen - 1 := BitVec.toInt_le

/-- Wrapping is exact on the integers in a word's range. -/
theorem signed_wrap_of_fits {n : Int} (h : -(2 ^ xlen) ≤ n ∧ n ≤ 2 ^ xlen - 1) :
    signed (wrap n : Word (xlen + 1)) = n := by
  obtain ⟨hlow, hhigh⟩ := h
  exact BitVec.toInt_ofInt_eq_self xlen.succ_pos hlow (Int.lt_of_le_sub_one hhigh)

/-- Wrapping moves every integer by a multiple of `2^XLEN`. -/
theorem exists_signed_wrap_eq_add_mul (n : Int) : ∃ m : Int, signed (wrap n : Word xlen) = n + m * 2 ^ xlen := by
  obtain ⟨m, hm⟩ : ((2 ^ xlen : Nat) : Int) ∣ n.bmod (2 ^ xlen) - n := Int.dvd_bmod_sub_self
  refine ⟨m, ?_⟩
  calc signed (wrap n : Word xlen)
      = n.bmod (2 ^ xlen) := BitVec.toInt_ofInt n
    _ = n + ((2 ^ xlen : Nat) : Int) * m := by rw [← hm, add_sub_cancel]
    _ = n + m * 2 ^ xlen := by rw [mul_comm, Nat.cast_pow, Nat.cast_ofNat]

/-- Settles O5: the word operators are `wrap` of the exact integer result (00_scope.md R13), so what holds of every wrapped
integer holds of each of them. -/
theorem wordArithmeticWrapsAtXlen : Obligations.WordArithmeticWrapsAtXlen := by
  intro xlen n a b
  refine ⟨toNat_wrap n, ⟨neg_two_pow_le_signed a, signed_le a⟩, wrap_signed a, fun c hc => ?_⟩
  have hwrap : c.1 = wrap c.2 := by
    simp only [List.mem_cons, List.not_mem_nil, or_false] at hc
    rcases hc with rfl | rfl | rfl <;> rfl
  rw [hwrap]
  exact ⟨signed_wrap_of_fits, exists_signed_wrap_eq_add_mul c.2⟩

/-! ## The reset state (70_reset_and_hazards.md R178) -/

/-- A latch at reset, written out field by field. -/
theorem Latch.reset_eq_zeroLatch : (Latch.reset : Latch xlen) = zeroLatch false := rfl

/-- Reset clears every entry of the four banks, whatever the inputs. -/
theorem CoreState.resetWith_banks (inputs : Inputs xlen) (r : RegIndex) :
    Bank.get (CoreState.resetWith inputs).regs r = 0 ∧ Bank.get (CoreState.resetWith inputs).sb r = false ∧
    Bank.get (CoreState.resetWith inputs).bv r = false ∧ Bank.get (CoreState.resetWith inputs).byp r = 0 :=
  ⟨Bank.get_replicate 0 r, Bank.get_replicate false r, Bank.get_replicate false r, Bank.get_replicate 0 r⟩

/-- Reset clears every data-memory word, whatever the inputs. -/
theorem CoreState.resetWith_read (inputs : Inputs xlen) (a : Nat) :
    Memory.read (CoreState.resetWith inputs).dmem a = 0 := rfl

/-- Reset clears every field of the latches but `F.has_insn`, whatever the inputs. -/
theorem CoreState.resetWith_latches (inputs : Inputs xlen) :
    (CoreState.resetWith inputs).fLatch = zeroLatch true ∧ (CoreState.resetWith inputs).dLatch = zeroLatch false ∧
    (CoreState.resetWith inputs).eLatch = zeroLatch false ∧ (CoreState.resetWith inputs).mLatch = zeroLatch false ∧
    (CoreState.resetWith inputs).wLatch = zeroLatch false :=
  ⟨congrArg Latch.filled Latch.reset_eq_zeroLatch, Latch.reset_eq_zeroLatch, Latch.reset_eq_zeroLatch,
    Latch.reset_eq_zeroLatch, Latch.reset_eq_zeroLatch⟩

/-- Settles O38: the banks, the memory and the latches are those of every reset, and the scalars and the parameters are the
literals that `CoreState.resetWith` and `Config` give. -/
theorem resetStateHasSpecValues : Obligations.ResetStateHasSpecValues := by
  obtain ⟨hF, hD, hE, hM, hW⟩ := CoreState.resetWith_latches (Inputs.standard : Inputs 32)
  exact ⟨CoreState.resetWith_banks Inputs.standard, CoreState.resetWith_read Inputs.standard, State.reset_memory_wf,
    rfl, rfl, rfl, hF, hD, hE, hM, hW, rfl, rfl, rfl, rfl, rfl, rfl, rfl, rfl, rfl, rfl⟩

/-! ## Configurations that are refused (60_exceptions.md R177) -/

/-- Every edge of a core that is not valid is refused, with `rst = 1` too (log 2). -/
theorem step_of_not_validCore {s : CoreState xlen} (h : ¬s.validCore) :
    step ⟨_, s⟩ = .refused .invalidConfiguration := by
  rcases step_cases s with ⟨_, hrefused⟩ | ⟨hv, _⟩ | ⟨hv, _⟩ | ⟨⟨hv, _⟩, _⟩
  · exact hrefused
  · exact absurd hv h
  · exact absurd hv h
  · exact absurd hv h

/-- Settles O39: the broken constraint makes the core invalid. -/
theorem invalidConfigurationIsRefused : Obligations.InvalidConfigurationIsRefused := fun s hbroken =>
  step_of_not_validCore (Bool.eq_false_iff.mp ((s.inputs.cfg.valid_eq_false_iff s.inputs.code.length).mpr hbroken))

end Sys2Proof.Machine
end

