-- ==== Sys2Proof/Proofs/State.lean ====
section
/-!
PROOFS. The statements of 10_state.md: what a terminal status, the counters, the register file, the flags and the PC can do in
a tick, and the invariant of the states between ticks, which every stage keeps up to the signals of its tick.
-/

namespace Sys2Proof.Machine

open Sys2Proof.Claims

variable {xlen : Nat}

/-! ## A terminal status (10_state.md R34) -/

/-- Settles O35: of all a step can do, only holding the state is left to a valid core that is not reset and not Running. -/
theorem terminalStatusHoldsEverything : Obligations.TerminalStatusHoldsEverything := by
  intro xlen s hvalid hrst hterminal
  rcases step_cases s with ⟨hinvalid, _⟩ | ⟨_, hreset, _⟩ | ⟨_, _, _, hheld⟩ | ⟨⟨_, _, _, hrunning⟩, _⟩
  · exact absurd hvalid hinvalid
  · exact absurd hreset (by simp [hrst])
  · exact hheld
  · exact absurd hrunning hterminal

/-! ## The rule of the tick (40_pipeline.md R75) -/

theorem CoreState.running_of_ticking {s : CoreState xlen} (hs : s.ticking) : s.status = .running := by
  obtain ⟨_, _, _, hrun⟩ := hs
  exact hrun

/-- In the tick from `s`, `P st` holds of what stage `st` leaves, whenever the stage before it left a running state with its
own `P`. -/
structure StagesLeave (P : Stage → CoreState xlen → Prop) (s : CoreState xlen) : Prop where
  wb : ∀ v, writebackStage (s.restSignals.atStage .wb) = .next ⟨_, v⟩ → P .wb v
  mem : ∀ u v, P .wb u → u.status = .running → memoryStage (u.atStage .mem) = .next ⟨_, v⟩ → P .mem v
  ex : ∀ u v, P .mem u → u.status = .running → executeStage (u.atStage .ex) = .next ⟨_, v⟩ → P .ex v
  dec : ∀ u v, P .ex u → u.status = .running → decodeStage (u.atStage .dec) = .next ⟨_, v⟩ → P .dec v
  fetch : ∀ u v, P .dec u → u.status = .running → fetchUnit (u.atStage .fetch) = .next ⟨_, v⟩ → P .fetch v

/-- The rule of the tick: `Q` holds of what the tick leaves if it follows from what each stage leaves, wherever the tick can
stop and at its end. -/
theorem tick_rule {P : Stage → CoreState xlen → Prop} {Q : CoreState xlen → Prop} {s t : CoreState xlen}
    (hs : s.ticking) (h : step ⟨_, s⟩ = .next ⟨_, t⟩)
    (hP : StagesLeave P s)
    (stopped : ∀ st e, P st e → e.status ≠ .running → Q e.restSignals)
    (ended : ∀ e f, P .fetch e → e.status = .running → endOfTick e = .next ⟨_, f⟩ → Q f.restSignals) : Q t := by
  obtain ⟨a, ha, htail⟩ := step_tick hs h
  have hPa := hP.wb a ha
  rcases htail with ⟨hstop, rfl⟩ | ⟨hrun, b, hb, htail⟩
  · exact stopped .wb a hPa hstop
  have hPb := hP.mem a b hPa hrun hb
  rcases htail with ⟨hstop, rfl⟩ | ⟨hrun, c, hc, htail⟩
  · exact stopped .mem b hPb hstop
  have hPc := hP.ex b c hPb hrun hc
  rcases htail with ⟨hstop, rfl⟩ | ⟨hrun, d, hd, htail⟩
  · exact stopped .ex c hPc hstop
  have hPd := hP.dec c d hPc hrun hd
  rcases htail with ⟨hstop, rfl⟩ | ⟨hrun, e, he, htail⟩
  · exact stopped .dec d hPd hstop
  have hPe := hP.fetch d e hPd hrun he
  rcases htail with ⟨hstop, rfl⟩ | ⟨hrun, f, hf, rfl⟩
  · exact stopped .fetch e hPe hstop
  · exact ended e f hPe hrun hf

/-- The rule for a property of fields that the end of the tick and the rest of the signals leave alone: it holds of what the
tick leaves if it holds of what each stage leaves. -/
theorem tick_rule_kept {P : Stage → CoreState xlen → Prop} {Q : CoreState xlen → Prop} {s t : CoreState xlen}
    (hs : s.ticking) (h : step ⟨_, s⟩ = .next ⟨_, t⟩)
    (hP : StagesLeave P s)
    (post : ∀ st e, P st e → Q e.restSignals ∧ Q e.countTick.restSignals ∧ Q e.countTick.exhaust.restSignals) : Q t := by
  refine tick_rule hs h hP (fun st e he _ => (post st e he).1) fun e f he _ hf => ?_
  obtain ⟨_, hcounted, hexhausted⟩ := post .fetch e he
  rcases endOfTick_frame hf with rfl | rfl
  exacts [hexhausted, hcounted]

/-! ## The register file (10_state.md R21) -/

/-- Writeback changes no register but the destinations of the live instruction in `W`. -/
theorem writebackStage_regs {u v : CoreState xlen} (hst : u.signals.stage = .wb)
    (h : writebackStage u = .next ⟨_, v⟩) {r : RegIndex} (hr : ¬u.wLatch.Writes r) :
    Bank.get v.regs r = Bank.get u.regs r := by
  rcases writebackStage_cases hst h with ⟨_, rfl⟩ | ⟨_, rfl⟩ | ⟨hlive, _, regs, sb, bv, rfl, hbanks⟩
  · rfl
  · rfl
  · exact ((hbanks r).2 fun i hi hd => hr ⟨hlive, i, hi, hd⟩).2.1

/-- Settles O43: by the rule of the tick, every stage after Writeback leaves the register file as it found it. -/
theorem onlyWritebackWritesRegisters : Obligations.OnlyWritebackWritesRegisters := by
  intro xlen s t hs h
  obtain ⟨a, ha⟩ := afterWriteback_answers_next s
  have hregs : t.regs = a.regs := by
    refine tick_rule_kept (P := fun _ e => e.regs = a.regs) (Q := fun e => e.regs = a.regs) hs h
      ⟨?wb, ?mem, ?ex, ?dec, ?fetch⟩ fun _ _ he => ⟨he, he, he⟩
    case wb =>
      intro v hv
      cases ha.symm.trans hv
      rfl
    case mem => exact fun u v hu _ hv => (memoryStage_frame rfl hv).1.trans hu
    case ex => exact fun u v hu _ hv => (executeStage_frame rfl hv).1.trans hu
    case dec => exact fun u v hu _ hv => (decodeStage_frame rfl hv).1.trans hu
    case fetch => exact fun u v hu _ hv => (fetchUnit_frame rfl hv).1.trans hu
  exact ⟨⟨a, ha, hregs⟩, fun r hr => hregs ▸ writebackStage_regs rfl ha hr⟩

/-! ## The counters (10_state.md R40) -/

/-- The counters when a stage of the tick from `s` has left `e`: `retired` has counted the instruction in `W`, and `clock` has
counted the tick only where a HALT ended it. -/
def CoreState.CountersIn (s e : CoreState xlen) : Prop :=
  e.retired = s.retired + s.wLatch.hasInsn.toNat ∧
    ((e.status = .running ∧ e.clock = s.clock) ∨ (e.status = .halted ∧ e.clock = s.clock + 1) ∨
      (¬e.NotFaulted ∧ e.clock = s.clock))

theorem CoreState.not_notFaulted {s : CoreState xlen} {code : FaultCode} {stage : FaultStage} {pc : Word xlen}
    (h : s.status = .faulted code stage pc) : ¬s.NotFaulted := fun hn => hn code stage pc h

theorem CoreState.notFaulted_iff {s : CoreState xlen} :
    s.NotFaulted ↔ s.status = .running ∨ s.status = .halted ∨ s.status = .exhausted := by
  unfold CoreState.NotFaulted
  cases s.status <;> simp

/-- A stage that leaves the counters alone and, at most, faults, keeps `CountersIn`. -/
theorem CoreState.CountersIn.next {s u v : CoreState xlen} (hu : s.CountersIn u) (hrun : u.status = .running)
    (hclock : v.clock = u.clock) (hretired : v.retired = u.retired)
    (hstatus : v.status = u.status ∨ ∃ code stage pc, v.status = .faulted code stage pc) : s.CountersIn v := by
  obtain ⟨hret, ⟨_, hclk⟩ | ⟨hhalt, _⟩ | ⟨hfault, _⟩⟩ := hu
  · refine ⟨hretired.trans hret, ?_⟩
    rcases hstatus with hkept | ⟨_, _, _, hfault⟩
    · exact .inl ⟨hkept.trans hrun, hclock.trans hclk⟩
    · exact .inr (.inr ⟨not_notFaulted hfault, hclock.trans hclk⟩)
  · simp [hhalt] at hrun
  · exact absurd (notFaulted_iff.mpr (.inl hrun)) hfault

theorem writebackStage_countersIn {s v : CoreState xlen} (hrun : s.status = .running)
    (h : writebackStage (s.restSignals.atStage .wb) = .next ⟨_, v⟩) : s.CountersIn v := by
  obtain ⟨-, -, -, -, -, -, -, -, -, -, -, hretired, -, ⟨hstatus, hclock, -⟩ | ⟨hstatus, hclock, -⟩⟩ :=
    writebackStage_frame rfl h
  · exact ⟨hretired, .inl ⟨hstatus.trans hrun, hclock⟩⟩
  · exact ⟨hretired, .inr (.inl ⟨hstatus, hclock⟩)⟩

theorem memoryStage_countersIn {s u v : CoreState xlen} (hu : s.CountersIn u) (hrun : u.status = .running)
    (h : memoryStage (u.atStage .mem) = .next ⟨_, v⟩) : s.CountersIn v := by
  obtain ⟨-, -, -, -, -, -, -, -, -, -, -, -, hclock, hretired, hstatus⟩ := memoryStage_frame rfl h
  exact hu.next hrun hclock hretired (hstatus.imp And.left fun hf => ⟨_, _, _, hf⟩)

theorem executeStage_countersIn {s u v : CoreState xlen} (hu : s.CountersIn u) (hrun : u.status = .running)
    (h : executeStage (u.atStage .ex) = .next ⟨_, v⟩) : s.CountersIn v := by
  obtain ⟨-, -, -, -, -, hclock, hretired, -, -, hstatus⟩ := executeStage_frame rfl h
  exact hu.next hrun hclock hretired (hstatus.imp And.left fun hf => ⟨_, _, _, hf⟩)

theorem decodeStage_countersIn {s u v : CoreState xlen} (hu : s.CountersIn u) (hrun : u.status = .running)
    (h : decodeStage (u.atStage .dec) = .next ⟨_, v⟩) : s.CountersIn v := by
  obtain ⟨-, -, -, -, -, -, -, -, -, -, -, hclock, hretired, -, hstatus⟩ := decodeStage_frame rfl h
  exact hu.next hrun hclock hretired (hstatus.imp_right fun ⟨_, hf⟩ => ⟨_, _, _, hf⟩)

theorem fetchUnit_countersIn {s u v : CoreState xlen} (hu : s.CountersIn u) (hrun : u.status = .running)
    (h : fetchUnit (u.atStage .fetch) = .next ⟨_, v⟩) : s.CountersIn v := by
  obtain ⟨-, -, -, -, -, -, -, -, -, -, -, hclock, hretired, -, hstatus, -⟩ := fetchUnit_frame rfl h
  exact hu.next hrun hclock hretired (hstatus.imp_right fun hf => ⟨_, _, _, hf⟩)

/-- Settles O42: a tick that stops early has counted where a HALT stopped it and not where a fault did; every other tick is
counted at its end. -/
theorem countersCountTicksAndRetirements : Obligations.CountersCountTicksAndRetirements := by
  intro xlen s t hs h
  refine tick_rule (P := fun _ e => s.CountersIn e) (Q := fun t => (t.NotFaulted → t.clock = s.clock + 1) ∧
      (¬t.NotFaulted → t.clock = s.clock) ∧ t.retired = s.retired + s.wLatch.hasInsn.toNat) hs h
    ⟨fun _ => writebackStage_countersIn (CoreState.running_of_ticking hs), fun _ _ => memoryStage_countersIn,
      fun _ _ => executeStage_countersIn, fun _ _ => decodeStage_countersIn, fun _ _ => fetchUnit_countersIn⟩
    ?stopped ?ended
  case stopped =>
    rintro _ e ⟨hretired, ⟨hrun, _⟩ | ⟨hhalt, hclk⟩ | ⟨hfault, hclk⟩⟩ hstop
    · exact absurd hrun hstop
    · exact ⟨fun _ => hclk, fun hfault => absurd (CoreState.notFaulted_iff.mpr (.inr (.inl hhalt))) hfault, hretired⟩
    · exact ⟨fun hok => absurd hok hfault, fun _ => hclk, hretired⟩
  case ended =>
    rintro e f ⟨hretired, ⟨_, hclk⟩ | ⟨hhalt, _⟩ | ⟨hfault, _⟩⟩ hrun hf
    · have hok : f.restSignals.NotFaulted := by
        rcases endOfTick_frame hf with rfl | rfl
        exacts [CoreState.notFaulted_iff.mpr (.inr (.inr rfl)), CoreState.notFaulted_iff.mpr (.inl hrun)]
      have hcounted : f.clock = e.clock + 1 ∧ f.retired = e.retired := by
        rcases endOfTick_frame hf with rfl | rfl <;> exact ⟨rfl, rfl⟩
      obtain ⟨hclock, hret⟩ := hcounted
      exact ⟨fun _ => hclock.trans (congrArg (· + 1) hclk), fun hfault => absurd hok hfault, hret.trans hretired⟩
    · simp [hhalt] at hrun
    · exact absurd (CoreState.notFaulted_iff.mpr (.inl hrun)) hfault

/-! ## The flags (10_state.md R28 to R30) -/

/-- Execute keeps the flags when the live instruction in `E` is none that writes them. -/
theorem executeStage_keepsFlags {u v : CoreState xlen} (hst : u.signals.stage = .ex)
    (h : executeStage u = .next ⟨_, v⟩)
    (hE : u.eLatch.hasInsn = true → ∀ i, u.eLatch.instr = some i → writesFlags i = false) : KeepsFlags u v := by
  rcases executeStage_cases hst h with
    ⟨_, rfl⟩ | ⟨_, _, _, rfl⟩ | ⟨_, _, _, _, _, rfl⟩ | ⟨hlive, _, byp, bv, z, p, l, rfl, _, _, hflags, _⟩
  · exact ⟨rfl, rfl⟩
  · exact ⟨rfl, rfl⟩
  · exact ⟨rfl, rfl⟩
  · rcases hflags with hkept | ⟨i, x, hi, hwrites, _⟩
    · exact hkept
    · exact absurd hwrites (by simp [hE hlive i hi])

/-- The flags when a stage of the tick from `s` has left `e`: unchanged, with `E` still to run up to Memory. -/
def CoreState.FlagsKeptIn (s : CoreState xlen) (st : Stage) (e : CoreState xlen) : Prop :=
  KeepsFlags s e ∧ (st = .wb ∨ st = .mem → e.eLatch = s.eLatch)

/-- Settles O46: no stage but Execute writes a flag, and Execute finds in `E` what the tick began with. -/
theorem onlyArithmeticAndCompareWriteFlags : Obligations.OnlyArithmeticAndCompareWriteFlags := by
  intro xlen s t hs h hE
  refine tick_rule_kept (P := s.FlagsKeptIn) (Q := KeepsFlags s) hs h ⟨?wb, ?mem, ?ex, ?dec, ?fetch⟩
    fun _ _ he => ⟨he.1, he.1, he.1⟩
  case wb =>
    intro v hv
    obtain ⟨-, hz, hp, -, -, -, -, he, -⟩ := writebackStage_frame rfl hv
    exact ⟨⟨hz, hp⟩, fun _ => he⟩
  case mem =>
    rintro u v ⟨⟨hz, hp⟩, hlatch⟩ _ hv
    obtain ⟨-, -, -, -, hz', hp', -, -, -, he', -⟩ := memoryStage_frame rfl hv
    exact ⟨⟨hz'.trans hz, hp'.trans hp⟩, fun _ => he'.trans (hlatch (.inl rfl))⟩
  case ex =>
    rintro u v ⟨⟨hz, hp⟩, hlatch⟩ _ hv
    have he : (u.atStage .ex).eLatch = s.eLatch := hlatch (.inr rfl)
    obtain ⟨hz', hp'⟩ := executeStage_keepsFlags rfl hv (he ▸ hE)
    exact ⟨⟨hz'.trans hz, hp'.trans hp⟩, by simp⟩
  case dec =>
    rintro u v ⟨⟨hz, hp⟩, _⟩ _ hv
    obtain ⟨-, -, -, -, hz', hp', -⟩ := decodeStage_frame rfl hv
    exact ⟨⟨hz'.trans hz, hp'.trans hp⟩, by simp⟩
  case fetch =>
    rintro u v ⟨⟨hz, hp⟩, _⟩ _ hv
    obtain ⟨-, -, -, -, -, hz', hp', -⟩ := fetchUnit_frame rfl hv
    exact ⟨⟨hz'.trans hz, hp'.trans hp⟩, by simp⟩

/-! ## The program counter (10_state.md R26) -/

/-- The tick from `s` has redirected: `PC` is the target of the taken branch or jump in `E`, and `D` is empty. -/
def CoreState.RedirectedTo (s e : CoreState xlen) : Prop :=
  s.eLatch.hasInsn = true ∧ ∃ i, s.eLatch.instr = some i ∧ takenTarget s i s.eLatch = some e.pc ∧
    e.dLatch.hasInsn = false

/-- The tick from `s` has delivered the record at `PC`. -/
def CoreState.DeliveredAt (s e : CoreState xlen) : Prop :=
  e.pc = s.pc + BitVec.ofNat xlen s.inputs.cfg.insnWidth ∧ e.dLatch.hasInsn = true ∧ e.dLatch.pc = s.pc

/-- The `PC` when a stage of the tick from `s` has left `e`: unchanged until Execute, which finds the latch and the flags the
tick began with; then unchanged or redirected; and after Fetch perhaps one instruction width on. -/
def CoreState.PcIn (s : CoreState xlen) (st : Stage) (e : CoreState xlen) : Prop :=
  e.inputs = s.inputs ∧
  match st with
  | .wb | .mem => e.pc = s.pc ∧ e.eLatch = s.eLatch ∧ KeepsFlags s e ∧ e.signals.redirect = false
  | .ex | .dec => (e.pc = s.pc ∧ e.signals.redirect = false) ∨ (s.RedirectedTo e ∧ e.signals.redirect = true)
  | .fetch => e.pc = s.pc ∨ s.DeliveredAt e ∨ s.RedirectedTo e

/-- A branch is decided by its latch and the flags alone. -/
theorem takenTarget_congr {s u : CoreState xlen} (h : KeepsFlags s u) (i : Instr) (l : Latch xlen) :
    takenTarget u i l = takenTarget s i l := by
  obtain ⟨hz, hp⟩ := h
  cases i <;> simp only [takenTarget, hz, hp]

theorem executeStage_pcIn {s u v : CoreState xlen} (hu : s.PcIn .mem u)
    (h : executeStage (u.atStage .ex) = .next ⟨_, v⟩) : s.PcIn .ex v := by
  obtain ⟨hin, hpc, hlatch, hflags, hredirect⟩ := hu
  rcases executeStage_cases rfl h with
    ⟨_, rfl⟩ | ⟨_, _, _, rfl⟩ | ⟨hlive, i, target, hi, htaken, rfl⟩ | ⟨_, _, byp, bv, z, p, l, rfl, _⟩
  · exact ⟨hin, .inl ⟨hpc, hredirect⟩⟩
  · exact ⟨hin, .inl ⟨hpc, hredirect⟩⟩
  · rw [CoreState.atStage_eLatch, hlatch] at hlive hi htaken
    rw [takenTarget_congr (u := u.atStage .ex) hflags] at htaken
    exact ⟨hin, .inr ⟨⟨hlive, i, hi, htaken, rfl⟩, rfl⟩⟩
  · exact ⟨hin, .inl ⟨hpc, hredirect⟩⟩

theorem decodeStage_pcIn {s u v : CoreState xlen} (hu : s.PcIn .ex u)
    (h : decodeStage (u.atStage .dec) = .next ⟨_, v⟩) : s.PcIn .dec v := by
  obtain ⟨hin, ⟨hpc, hredirect⟩ | ⟨⟨hlive, i, hi, htaken, hempty⟩, hredirect⟩⟩ := hu
  · obtain ⟨-, -, -, -, -, -, hpc', -, -, -, hin', -, -, hredirect', -⟩ := decodeStage_frame rfl h
    exact ⟨hin'.trans hin, .inl ⟨hpc'.trans hpc, hredirect'.trans hredirect⟩⟩
  · rcases decodeStage_cases rfl h with ⟨_, rfl⟩ | ⟨hD, _⟩ | ⟨hD, _⟩ | ⟨hD, _⟩
    · exact ⟨hin, .inr ⟨⟨hlive, i, hi, htaken, hempty⟩, hredirect⟩⟩
    all_goals exact absurd hD (by simp [hempty])

theorem fetchUnit_pcIn {s u v : CoreState xlen} (hu : s.PcIn .dec u)
    (h : fetchUnit (u.atStage .fetch) = .next ⟨_, v⟩) : s.PcIn .fetch v := by
  obtain ⟨-, -, -, -, -, -, -, -, -, -, hin', -, -, -, -, hkept | ⟨hpc', hD, hDpc, hredirect'⟩⟩ := fetchUnit_frame rfl h
  · obtain ⟨hpc', hD⟩ := hkept
    obtain ⟨hin, ⟨hpc, _⟩ | ⟨⟨hlive, i, hi, htaken, hempty⟩, _⟩⟩ := hu
    · exact ⟨hin'.trans hin, .inl (hpc'.trans hpc)⟩
    · exact ⟨hin'.trans hin, .inr (.inr ⟨hlive, i, hi, htaken.trans (congrArg some hpc'.symm), hD ▸ hempty⟩)⟩
  · obtain ⟨hin, ⟨hpc, _⟩ | ⟨_, hredirect⟩⟩ := hu
    · refine ⟨hin'.trans hin, .inr (.inl ⟨?_, hD, hDpc.trans hpc⟩)⟩
      rw [hpc', addw_eq, CoreState.atStage_pc, CoreState.atStage_inputs, hpc, hin]
    · exact absurd hredirect (by simpa using hredirect')

/-- Wherever the tick stops, `PC` is what it was, one width on, or the target. -/
theorem CoreState.PcIn.pc_cases {s e : CoreState xlen} {st : Stage} (h : s.PcIn st e) :
    e.pc = s.pc ∨ s.DeliveredAt e ∨ s.RedirectedTo e := by
  obtain ⟨_, h⟩ := h
  cases st with
  | wb => exact .inl h.1
  | mem => exact .inl h.1
  | ex => exact h.imp And.left fun hr => .inr hr.1
  | dec => exact h.imp And.left fun hr => .inr hr.1
  | fetch => exact h

/-- Settles O47: Execute redirects or leaves `PC` alone, and Fetch delivers only where Execute did not redirect. -/
theorem pcChangesInTwoWays : Obligations.PcChangesInTwoWays := by
  intro xlen s t hs h
  refine tick_rule_kept (P := s.PcIn) (Q := fun e => e.pc = s.pc ∨ s.DeliveredAt e ∨ s.RedirectedTo e) hs h
    ⟨?wb, ?mem, fun _ _ hu _ => executeStage_pcIn hu, fun _ _ hu _ => decodeStage_pcIn hu,
      fun _ _ hu _ => fetchUnit_pcIn hu⟩
    fun _ _ he => ⟨he.pc_cases, he.pc_cases, he.pc_cases⟩
  case wb =>
    intro v hv
    obtain ⟨-, hz, hp, hpc, -, -, -, he, -, hin, hsig, -⟩ := writebackStage_frame rfl hv
    exact ⟨hin, hpc, he, ⟨hz, hp⟩, congrArg Signals.redirect hsig⟩
  case mem =>
    rintro u v ⟨hin, hpc, he, ⟨hz, hp⟩, hredirect⟩ _ hv
    obtain ⟨-, -, -, -, hz', hp', hpc', -, -, he', hin', hsig', -⟩ := memoryStage_frame rfl hv
    exact ⟨hin'.trans hin, hpc'.trans hpc, he'.trans he, ⟨hz'.trans hz, hp'.trans hp⟩,
      (congrArg Signals.redirect hsig').trans hredirect⟩

/-! ## What a latch holds -/

theorem Latch.SameRecord.refl (l : Latch xlen) : l.SameRecord l := ⟨rfl, rfl, rfl, rfl, rfl, rfl⟩

/-- What `l` holds, if anything, is the live instruction of `m`: so a stage fills the latch after it, or empties its own. -/
def Latch.Carries (l m : Latch xlen) : Prop := l.hasInsn = true → m.hasInsn = true ∧ l.SameRecord m

theorem Latch.carries_of_empty {l : Latch xlen} (h : l.hasInsn = false) (m : Latch xlen) : l.Carries m :=
  fun hlive => absurd hlive (by simp [h])

theorem Latch.SameRecord.carries {l m : Latch xlen} (h : l.SameRecord m) (hm : m.hasInsn = true) : l.Carries m :=
  fun _ => ⟨hm, h⟩

theorem Latch.Carries.pastDecode {cfg : Config} {l m : Latch xlen} (h : l.Carries m) (hm : m.PastDecode cfg) :
    l.PastDecode cfg := by
  intro hl
  obtain ⟨hlive, hrec⟩ := h hl
  rw [hrec.instr]
  exact hm hlive

theorem Latch.Carries.fromCode {s t : CoreState xlen} {l m : Latch xlen} (h : l.Carries m) (hin : t.inputs = s.inputs)
    (hm : s.FromCode m) : t.FromCode l := by
  intro hl
  obtain ⟨hlive, hrec⟩ := h hl
  obtain ⟨k, hk, hop, hrd, hrs1, hrs2, himm⟩ := hm hlive
  have hrecord : t.codeRecord k = s.codeRecord k := by simp [CoreState.codeRecord, hin]
  refine ⟨k, ?_⟩
  rw [hrec.pc, hrec.opcode, hrec.rd, hrec.rs1, hrec.rs2, hrec.imm, hin, hrecord]
  exact ⟨hk, hop, hrd, hrs1, hrs2, himm⟩

/-- A latch that holds the same record and is live writes the same registers. -/
theorem Latch.SameRecord.writes {l m : Latch xlen} (h : l.SameRecord m) (hl : l.hasInsn = true) {r : RegIndex}
    (hm : m.Writes r) : l.Writes r := by
  obtain ⟨_, i, hi, hr⟩ := hm
  exact ⟨hl, i, h.instr.trans hi, hr⟩

theorem Latch.SameRecord.holdsHalt_iff {l m : Latch xlen} (h : l.SameRecord m) (hl : l.hasInsn = true)
    (hm : m.hasInsn = true) : l.HoldsHalt ↔ m.HoldsHalt := by
  simp [Latch.HoldsHalt, hl, hm, h.instr]

theorem Latch.not_holdsHalt_of_empty {l : Latch xlen} (h : l.hasInsn = false) : ¬l.HoldsHalt := by
  simp [Latch.HoldsHalt, h]

theorem Latch.not_holdsHalt_emptied (l : Latch xlen) : ¬l.emptied.HoldsHalt := Latch.not_holdsHalt_of_empty rfl

/-- Where a live latch `m` moves into the empty latch `n` after it, as `l`, the two hold a HALT after the move exactly when
they held one before it. -/
theorem Latch.SameRecord.moved_holdsHalt_iff {l m n : Latch xlen} (h : l.SameRecord m) (hl : l.hasInsn = true)
    (hm : m.hasInsn = true) (hn : n.hasInsn = false) :
    m.HoldsHalt ∨ n.HoldsHalt ↔ l.emptied.HoldsHalt ∨ l.HoldsHalt := by
  simp only [Latch.not_holdsHalt_of_empty hn, l.not_holdsHalt_emptied, h.holdsHalt_iff hl hm, or_false, false_or]

/-- The same in front of older latches. -/
theorem Latch.SameRecord.moved_holdsHalt_or_iff {l m n : Latch xlen} {older : Prop} (h : l.SameRecord m)
    (hl : l.hasInsn = true) (hm : m.hasInsn = true) (hn : n.hasInsn = false) :
    m.HoldsHalt ∨ n.HoldsHalt ∨ older ↔ l.emptied.HoldsHalt ∨ l.HoldsHalt ∨ older := by
  simpa only [or_assoc] using or_congr_left (c := older) (h.moved_holdsHalt_iff hl hm hn)

theorem Latch.not_writes_of_empty {l : Latch xlen} (h : l.hasInsn = false) (r : RegIndex) : ¬l.Writes r := by
  simp [Latch.Writes, h]

/-- The registers an instruction writes are among those Decode checks (40_pipeline.md R118). -/
theorem destsOf_subset_usedRegs (i : Instr) : destsOf i ⊆ i.usedRegs := by
  cases i <;> simp [destsOf, Instr.usedRegs]

/-- A register that does not exist is no destination of a well-formed instruction. -/
theorem not_mem_destsOf_of_absent {cfg : Config} {i : Instr} {r : RegIndex} (hi : i.wellFormed cfg = true)
    (hr : cfg.hasReg r = false) : r ∉ destsOf i := by
  intro hmem
  have hhas : cfg.hasReg r = true := List.all_eq_true.mp hi r (destsOf_subset_usedRegs i hmem)
  simp [hr] at hhas

/-- No live instruction past Decode has a register that does not exist as a destination. -/
theorem Latch.PastDecode.not_mem_destsOf {cfg : Config} {l : Latch xlen} (h : l.PastDecode cfg)
    (hlive : l.hasInsn = true) {r : RegIndex} (hr : cfg.hasReg r = false) :
    ∀ i, l.instr = some i → r ∉ destsOf i := by
  obtain ⟨j, hj, _, hwf⟩ := h hlive
  intro i hi
  obtain rfl := Option.some.inj (hj.symm.trans hi)
  exact not_mem_destsOf_of_absent hwf hr

/-! ## The invariant within a tick -/

/-- The invariant of a state within a tick: that of the states between ticks, but for the tick's signals. -/
def CoreState.TickInv (s : CoreState xlen) : Prop := s.restSignals.Inv

theorem CoreState.Inv.tickInv {s : CoreState xlen} (h : s.Inv) : s.TickInv := by
  have hrest : s.restSignals = s := by
    rw [CoreState.restSignals, ← h.signals_rest]
  rw [CoreState.TickInv, hrest]
  exact h

/-- The signals play no part in it. -/
theorem CoreState.TickInv.atStage {s : CoreState xlen} (h : s.TickInv) (st : Stage) : (s.atStage st).TickInv := h

theorem CoreState.statusTrue_of_running {s : CoreState xlen} (h : s.status = .running) : s.StatusTrue := by
  simp [CoreState.StatusTrue, h]

theorem CoreState.haltYoungest_of_stopped {s : CoreState xlen} (h : s.status ≠ .running) : s.HaltYoungest :=
  fun hrun => absurd hrun h

/-- A reset state has the invariant: its latches are empty, its banks and its memory 0. -/
theorem CoreState.resetWith_inv (inputs : Inputs xlen) : (CoreState.resetWith inputs).Inv where
  signals_rest := rfl
  memory := ⟨rfl, nofun⟩
  flags := by simp [CoreState.FlagsExclusive, CoreState.resetWith]
  absent := fun r _ => CoreState.resetWith_banks inputs r
  past_decode_e := nofun
  past_decode_m := nofun
  past_decode_w := nofun
  from_code_d := nofun
  from_code_e := nofun
  from_code_m := nofun
  from_code_w := nofun
  halt_youngest := by simp [CoreState.HaltYoungest, Latch.HoldsHalt, CoreState.resetWith, Latch.reset]
  scoreboard := fun r hr => by simp [CoreState.resetWith] at hr
  status_true := trivial

/-- A fault that tells the truth keeps the invariant: it writes the status and nothing else. -/
theorem CoreState.TickInv.raiseFault {s : CoreState xlen} (h : s.TickInv) {code : FaultCode} {stage : FaultStage}
    {pc : Word xlen} (htrue : (s.raiseFault code stage pc).restSignals.StatusTrue) :
    (s.raiseFault code stage pc).TickInv :=
  { h with
    signals_rest := rfl
    halt_youngest := CoreState.haltYoungest_of_stopped nofun
    status_true := htrue }

/-! ## Writeback -/

/-- A commit keeps the invariant: `W` becomes empty, no other latch changes, and the scoreboard bits it leaves set are of
registers that `W` did not write. -/
theorem WritebackCommit.tickInv {u v : CoreState xlen} (h : WritebackCommit u v) (hu : u.TickInv)
    (hrun : u.status = .running) (hlive : u.wLatch.hasInsn = true) (hnot : u.wLatch.instr ≠ some .halt) : v.TickInv := by
  obtain ⟨regs, sb, bv, rfl, hbanks⟩ := h
  exact
  { hu with
    signals_rest := rfl
    absent := fun r hr => by
      obtain ⟨hregs, hsb, hbv, hbyp⟩ := hu.absent r hr
      obtain ⟨hsb', hregs', hbv'⟩ := (hbanks r).2 (hu.past_decode_w.not_mem_destsOf hlive hr)
      exact ⟨hregs'.trans hregs, hsb'.trans hsb, hbv'.trans hbv, hbyp⟩
    past_decode_w := nofun
    from_code_w := nofun
    halt_youngest := fun _ => by
      obtain ⟨hF, hE, hM, _⟩ := hu.halt_youngest hrun
      have hW : ¬u.wLatch.HoldsHalt := fun hw => hnot hw.2
      refine ⟨hF.trans ?_, hE, hM, fun hw => absurd hw (Latch.not_holdsHalt_emptied _)⟩
      exact or_congr_right (or_congr_right (or_congr_right
        (iff_of_false hW (Latch.not_holdsHalt_emptied _))))
    scoreboard := fun r hr => by
      have hother : ∀ i, u.wLatch.instr = some i → r ∉ destsOf i := fun i hi hmem =>
        absurd hr (by simp [(hbanks r).1 ⟨i, hi, hmem⟩])
      have hsb : Bank.get u.sb r = true := ((hbanks r).2 hother).1 ▸ hr
      rcases hu.scoreboard r hsb with hE | hM | ⟨_, i, hi, hmem⟩
      exacts [.inl hE, .inr (.inl hM), absurd hmem (hother i hi)]
    status_true := CoreState.statusTrue_of_running hrun }

/-- A committed HALT keeps the invariant: it was the youngest live instruction, so nothing is in flight behind it. -/
theorem CoreState.TickInv.commitHalt {u : CoreState xlen} (hu : u.TickInv) (hrun : u.status = .running)
    (hW : u.wLatch.HoldsHalt) : u.retire.halt.countTick.TickInv := by
  obtain ⟨hF, _, _, hyoungest⟩ := hu.halt_youngest hrun
  obtain ⟨hD, hE, hM⟩ := hyoungest hW
  exact
  { hu with
    signals_rest := rfl
    past_decode_w := nofun
    from_code_w := nofun
    halt_youngest := CoreState.haltYoungest_of_stopped nofun
    scoreboard := fun r hr => by
      rcases hu.scoreboard r hr with hE | hM | ⟨_, i, hi, hmem⟩
      · exact .inl hE
      · exact .inr (.inl hM)
      · obtain rfl := Option.some.inj (hW.2.symm.trans hi)
        simp [destsOf] at hmem
    status_true := ⟨by simpa [CoreState.drained] using ⟨⟨hD, hE⟩, hM⟩, hF.mpr (.inr (.inr (.inr hW)))⟩ }

theorem writebackStage_keeps_tickInv {u v : CoreState xlen} (hu : u.TickInv) (hrun : u.status = .running)
    (hst : u.signals.stage = .wb) (h : writebackStage u = .next ⟨_, v⟩) : v.TickInv := by
  rcases writebackStage_cases hst h with ⟨_, rfl⟩ | ⟨hW, rfl⟩ | ⟨hlive, hnot, hcommit⟩
  exacts [hu, hu.commitHalt hrun hW, hcommit.tickInv hu hrun hlive hnot]

/-! ## Memory -/

/-- All a pass through Memory does: the record goes on to `W`, and the data memory stays within its bounds. -/
theorem MemoryPass.eq_sendToWriteback {u v : CoreState xlen} (h : MemoryPass u v) (hmem : u.MemoryOk)
    (hvalid : ∀ i, u.mLatch.instr = some i → isMemoryInstr i = true → u.validAddress u.mLatch.memoryAddress = true) :
    ∃ dmem l, v = CoreState.sendToWriteback l { u with dmem := dmem } ∧ l.SameRecord u.mLatch ∧
      CoreState.MemoryOk { u with dmem := dmem } := by
  rcases h with ⟨w, rfl⟩ | ⟨⟨rs1, rs2, imm, hi⟩, rfl⟩
  · exact ⟨u.dmem, { u.mLatch with resultBuffer := w }, rfl, ⟨rfl, rfl, rfl, rfl, rfl, rfl⟩, hmem⟩
  · have hvalid' : u.validAddress u.mLatch.memoryAddress = true := by
      rcases hi with hi | hi
      exacts [hvalid _ hi rfl, hvalid _ hi rfl]
    obtain ⟨hwf, hbound⟩ := hmem
    exact ⟨_, u.mLatch, rfl, .refl _, Memory.write_wf _ _ hwf,
      Memory.write_below (CoreState.validAddress_toNat_lt hvalid') hbound⟩

/-- Passing the instruction in `M` on to an empty `W` keeps the invariant. -/
theorem CoreState.TickInv.sendToWriteback {u : CoreState xlen} (hu : u.TickInv) (hrun : u.status = .running)
    (hlive : u.mLatch.hasInsn = true) (hempty : u.wLatch.hasInsn = false) {dmem : Memory xlen} {l : Latch xlen}
    (hl : l.SameRecord u.mLatch) (hmem : CoreState.MemoryOk { u with dmem := dmem }) :
    (CoreState.sendToWriteback l { u with dmem := dmem }).TickInv := by
  have hrec : l.filled.SameRecord u.mLatch := ⟨hl.opcode, hl.rd, hl.rs1, hl.rs2, hl.imm, hl.pc⟩
  exact
  { hu with
    signals_rest := rfl
    memory := hmem
    past_decode_m := nofun
    past_decode_w := (hrec.carries hlive).pastDecode hu.past_decode_m
    from_code_m := nofun
    from_code_w := (hrec.carries hlive).fromCode rfl hu.from_code_m
    halt_youngest := fun _ => by
      obtain ⟨hF, hE, hM, _⟩ := hu.halt_youngest hrun
      have hhalt := hrec.holdsHalt_iff rfl hlive
      refine ⟨hF.trans (or_congr_right (or_congr_right (hrec.moved_holdsHalt_iff rfl hlive hempty))), hE,
        fun hm => absurd hm (Latch.not_holdsHalt_emptied l), fun hw => ?_⟩
      obtain ⟨hD, hE⟩ := hM (hhalt.mp hw)
      exact ⟨hD, hE, rfl⟩
    scoreboard := fun r hr => by
      rcases hu.scoreboard r hr with hE | hM | hW
      exacts [.inl hE, .inr (.inr (hrec.writes rfl hM)), absurd hW (Latch.not_writes_of_empty hempty r)]
    status_true := CoreState.statusTrue_of_running hrun }

theorem memoryStage_keeps_tickInv {u v : CoreState xlen} (hu : u.TickInv) (hrun : u.status = .running)
    (hempty : u.wLatch.hasInsn = false) (hst : u.signals.stage = .mem) (h : memoryStage u = .next ⟨_, v⟩) :
    v.TickInv := by
  rcases memoryStage_cases hst h with ⟨_, rfl⟩ | ⟨hlive, hi, hinvalid, rfl⟩ | ⟨hlive, hvalid, hpass⟩
  · exact hu
  · exact hu.raiseFault ⟨rfl, hlive, hi, hinvalid⟩
  · obtain ⟨dmem, l, rfl, hl, hmem⟩ := hpass.eq_sendToWriteback hu.memory hvalid
    exact hu.sendToWriteback hrun hlive hempty hl hmem

/-! ## Execute -/

/-- Passing the instruction in `E` on to an empty `M` without a redirect keeps the invariant. -/
theorem ExecutePass.tickInv {u v : CoreState xlen} (h : ExecutePass u v) (hu : u.TickInv) (hrun : u.status = .running)
    (hlive : u.eLatch.hasInsn = true) (hempty : u.mLatch.hasInsn = false) : v.TickInv := by
  obtain ⟨byp, bv, z, p, l, rfl, hrec, hl, hflags, _, hbypass⟩ := h
  exact
  { hu with
    signals_rest := rfl
    flags := by
      rcases hflags with ⟨rfl, rfl⟩ | ⟨_, x, _, _, rfl, rfl⟩
      · exact hu.flags
      · rintro ⟨hz, hp⟩
        simp [zeroOf_of_positiveOf hp] at hz
    absent := fun r hr => by
      obtain ⟨hregs, hsb, hbv, hbyp⟩ := hu.absent r hr
      obtain ⟨hbyp', hbv'⟩ := hbypass r (hu.past_decode_e.not_mem_destsOf hlive hr)
      exact ⟨hregs, hsb, hbv'.trans hbv, hbyp'.trans hbyp⟩
    past_decode_e := nofun
    past_decode_m := (hrec.carries hlive).pastDecode hu.past_decode_e
    from_code_e := nofun
    from_code_m := (hrec.carries hlive).fromCode rfl hu.from_code_e
    halt_youngest := fun _ => by
      obtain ⟨hF, hE, _, hW⟩ := hu.halt_youngest hrun
      have hhalt := hrec.holdsHalt_iff hl hlive
      refine ⟨hF.trans (or_congr_right (hrec.moved_holdsHalt_or_iff hl hlive hempty)),
        fun he => absurd he (Latch.not_holdsHalt_emptied l), fun hm => ⟨hE (hhalt.mp hm), rfl⟩, fun hw => ?_⟩
      obtain ⟨_, he, _⟩ := hW hw
      exact absurd hlive (by simpa using he)
    scoreboard := fun r hr => by
      rcases hu.scoreboard r hr with hE | hM | hW
      exacts [.inr (.inl (hrec.writes hl hE)), absurd hM (Latch.not_writes_of_empty hempty r), .inr (.inr hW)]
    status_true := CoreState.statusTrue_of_running hrun }

/-- No taken branch or jump is a HALT. -/
theorem ne_halt_of_takenTarget {s : CoreState xlen} {i : Instr} {l : Latch xlen} {target : Word xlen}
    (h : takenTarget s i l = some target) : i ≠ .halt := by
  rintro rfl
  simp [takenTarget] at h

/-- A redirect keeps the invariant: a HALT behind the branch can only be in `D`, where it is flushed, and Fetch goes on. -/
theorem CoreState.TickInv.redirect {u : CoreState xlen} (hu : u.TickInv) (hrun : u.status = .running)
    (hlive : u.eLatch.hasInsn = true) (hempty : u.mLatch.hasInsn = false) (hnot : u.eLatch.instr ≠ some .halt)
    (target : Word xlen) : ((u.redirect target).sendToMemory u.eLatch).TickInv := by
  have hrec : u.eLatch.filled.SameRecord u.eLatch := ⟨rfl, rfl, rfl, rfl, rfl, rfl⟩
  have hW : ¬u.wLatch.HoldsHalt := fun hw => by
    obtain ⟨_, _, _, hyoungest⟩ := hu.halt_youngest hrun
    obtain ⟨_, he, _⟩ := hyoungest hw
    exact absurd hlive (by simpa using he)
  have hM : ¬u.eLatch.filled.HoldsHalt := fun hm => hnot hm.2
  exact
  { hu with
    signals_rest := rfl
    past_decode_e := nofun
    past_decode_m := (hrec.carries hlive).pastDecode hu.past_decode_e
    from_code_d := nofun
    from_code_e := nofun
    from_code_m := (hrec.carries hlive).fromCode rfl hu.from_code_e
    halt_youngest := fun _ => by
      refine ⟨iff_of_false nofun ?_, fun he => absurd he (Latch.not_holdsHalt_emptied _), fun hm => absurd hm hM,
        fun hw => absurd hw hW⟩
      rintro (hd | he | hm | hw)
      exacts [Latch.not_holdsHalt_emptied _ hd, Latch.not_holdsHalt_emptied _ he, hM hm, hW hw]
    scoreboard := fun r hr => by
      rcases hu.scoreboard r hr with hE | hM | hW
      exacts [.inr (.inl (hrec.writes rfl hE)), absurd hM (Latch.not_writes_of_empty hempty r), .inr (.inr hW)]
    status_true := CoreState.statusTrue_of_running hrun }

theorem executeStage_keeps_tickInv {u v : CoreState xlen} (hu : u.TickInv) (hrun : u.status = .running)
    (hempty : u.mLatch.hasInsn = false) (hst : u.signals.stage = .ex) (h : executeStage u = .next ⟨_, v⟩) :
    v.TickInv := by
  rcases executeStage_cases hst h with
    ⟨_, rfl⟩ | ⟨hlive, hdiv, hzero, rfl⟩ | ⟨hlive, i, target, hi, htaken, rfl⟩ | ⟨hlive, _, hpass⟩
  · exact hu
  · exact hu.raiseFault ⟨rfl, hlive, hdiv, hzero⟩
  · exact hu.redirect hrun hlive hempty (fun he => ne_halt_of_takenTarget htaken (Option.some.inj (hi.symm.trans he)))
      target
  · exact hpass.tickInv hu hrun hlive hempty

/-! ## Decode -/

/-- Dropping a NOP keeps the invariant. -/
theorem CoreState.TickInv.dropDecode {u : CoreState xlen} (hu : u.TickInv) (hrun : u.status = .running)
    (hnot : u.dLatch.instr ≠ some .halt) : u.dropDecode.TickInv :=
  { hu with
    signals_rest := rfl
    from_code_d := nofun
    halt_youngest := fun _ => by
      obtain ⟨hF, hE, hM, hW⟩ := hu.halt_youngest hrun
      refine ⟨hF.trans ?_, fun _ => rfl, fun hm => ⟨rfl, (hM hm).2⟩, fun hw => ⟨rfl, (hW hw).2⟩⟩
      exact or_congr_left (iff_of_false (fun hd => hnot hd.2) (Latch.not_holdsHalt_emptied _))
    status_true := CoreState.statusTrue_of_running hrun }

/-- Dispatching the instruction in `D` to an empty `E` keeps the invariant: every register it marks has it as the writer. -/
theorem CoreState.TickInv.dispatch {u : CoreState xlen} (hu : u.TickInv) (hrun : u.status = .running)
    (hlive : u.dLatch.hasInsn = true) (hempty : u.eLatch.hasInsn = false) {i : Instr} (hi : u.dLatch.instr = some i)
    (hnop : i ≠ .nop) (hwf : i.wellFormed u.inputs.cfg = true) {l : Latch xlen} (hl : l.SameRecord u.dLatch) :
    ((u.markAll (destsOf i)).sendToExecute l).TickInv := by
  have hrec : l.filled.SameRecord u.dLatch := ⟨hl.opcode, hl.rd, hl.rs1, hl.rs2, hl.imm, hl.pc⟩
  exact
  { hu with
    signals_rest := rfl
    absent := fun r hr => by
      obtain ⟨hregs, hsb, hbv, hbyp⟩ := hu.absent r hr
      refine ⟨hregs, (Bank.get_setAll u.sb (destsOf i) r).trans ?_, hbv, hbyp⟩
      simpa [not_mem_destsOf_of_absent hwf hr] using hsb
    past_decode_e := fun _ => ⟨i, hrec.instr.trans hi, hnop, hwf⟩
    from_code_d := nofun
    from_code_e := (hrec.carries hlive).fromCode rfl hu.from_code_d
    halt_youngest := fun _ => by
      obtain ⟨hF, _, hM, hW⟩ := hu.halt_youngest hrun
      refine ⟨hF.trans (hrec.moved_holdsHalt_or_iff rfl hlive hempty), fun _ => rfl, fun hm => ?_, fun hw => ?_⟩
      · obtain ⟨hd, _⟩ := hM hm
        exact absurd hlive (by simpa using hd)
      · obtain ⟨hd, _⟩ := hW hw
        exact absurd hlive (by simpa using hd)
    scoreboard := fun r hr => by
      have hset : r ∈ destsOf i ∨ Bank.get u.sb r = true := by
        simpa using (Bank.get_setAll u.sb (destsOf i) r).symm.trans hr
      rcases hset with hmem | hsb
      · exact .inl ⟨rfl, i, hrec.instr.trans hi, hmem⟩
      · rcases hu.scoreboard r hsb with hE | hlater
        exacts [absurd hE (Latch.not_writes_of_empty hempty r), .inr hlater]
    status_true := CoreState.statusTrue_of_running hrun }

theorem decodeStage_keeps_tickInv {u v : CoreState xlen} (hu : u.TickInv) (hrun : u.status = .running)
    (hempty : u.eLatch.hasInsn = false) (hst : u.signals.stage = .dec) (h : decodeStage u = .next ⟨_, v⟩) :
    v.TickInv := by
  rcases decodeStage_cases hst h with
    ⟨_, rfl⟩ | ⟨hlive, hi, rfl⟩ | ⟨_, hi, rfl⟩ | ⟨hlive, i, hi, hnop, ⟨hwf, rfl⟩ | ⟨_, _, rfl⟩ | ⟨hcan, l, hl, rfl⟩⟩
  · exact hu
  · exact hu.raiseFault ⟨rfl, hlive, hi⟩
  · exact hu.dropDecode hrun (by simp [hi])
  · exact hu.raiseFault ⟨rfl, hlive, i, hi, hwf⟩
  · exact hu
  · exact hu.dispatch hrun hlive hempty hi hnop hcan.1 hl

/-! ## Fetch -/

/-- Reloading `F` keeps the invariant: of `F` it reads the fetch enable only. -/
theorem CoreState.TickInv.holdRecord {u : CoreState xlen} (hu : u.TickInv) (hrun : u.status = .running)
    (w : RecordWord) : (u.holdRecord w).TickInv :=
  { hu with
    signals_rest := rfl
    halt_youngest := hu.halt_youngest
    status_true := CoreState.statusTrue_of_running hrun }

/-- While Fetch is enabled, no live instruction is a HALT. -/
theorem CoreState.HaltYoungest.no_halt {s : CoreState xlen} (h : s.HaltYoungest) (hrun : s.status = .running)
    (hF : s.fLatch.hasInsn = true) :
    ¬s.dLatch.HoldsHalt ∧ ¬s.eLatch.HoldsHalt ∧ ¬s.mLatch.HoldsHalt ∧ ¬s.wLatch.HoldsHalt := by
  obtain ⟨hiff, _⟩ := h hrun
  have hnone := (not_congr hiff).mp (by simp [hF])
  simpa only [not_or] using hnone

/-- Delivering the record at `PC` keeps the invariant: it is the code record at its own `pc`; and it stops Fetch exactly when
it is a HALT, which then is the youngest live instruction. -/
theorem CoreState.TickInv.delivered {u v : CoreState xlen} (hu : u.TickInv) (hrun : u.status = .running)
    (hF : u.fLatch.hasInsn = true) {k : Nat} (hk : u.fetchClass = .index k)
    (hv : ((u.delivered k).dLatch.instr = some .halt ∧ v = (u.delivered k).stopFetch) ∨
      ((u.delivered k).dLatch.instr ≠ some .halt ∧ v = u.delivered k)) : v.TickInv := by
  obtain ⟨_, hE, hM, hW⟩ := hu.halt_youngest.no_halt hrun hF
  have hsame : ∃ pc f, v = { u with pc := pc, fLatch := f, dLatch := (u.delivered k).dLatch } ∧
      (f.hasInsn = false ↔ (u.delivered k).dLatch.instr = some .halt) := by
    rcases hv with ⟨hhalt, rfl⟩ | ⟨hnot, rfl⟩
    · exact ⟨_, _, rfl, iff_of_true rfl hhalt⟩
    · exact ⟨_, _, rfl, iff_of_false (by simpa [CoreState.delivered] using hF) hnot⟩
  obtain ⟨pc, f, rfl, hstop⟩ := hsame
  exact
  { hu with
    signals_rest := rfl
    from_code_d := fun _ => ⟨k, hk, rfl, rfl, rfl, rfl, rfl⟩
    halt_youngest := fun _ => by
      refine ⟨hstop.trans ⟨fun hhalt => .inl ⟨rfl, hhalt⟩, ?_⟩, fun he => absurd he hE, fun hm => absurd hm hM,
        fun hw => absurd hw hW⟩
      rintro (⟨_, hhalt⟩ | he | hm | hw)
      exacts [hhalt, absurd he hE, absurd hm hM, absurd hw hW]
    status_true := CoreState.statusTrue_of_running hrun }

theorem fetchUnit_keeps_tickInv {u v : CoreState xlen} (hu : u.TickInv) (hrun : u.status = .running)
    (hst : u.signals.stage = .fetch) (h : fetchUnit u = .next ⟨_, v⟩) : v.TickInv := by
  rcases fetchUnit_cases u with
    ⟨_, h'⟩ | ⟨_, _, _, ⟨k, _, h'⟩ | ⟨_, h'⟩⟩ | ⟨hF, _, _, ⟨hfault, h'⟩ | ⟨_, h'⟩ | ⟨k, hk, h'⟩⟩ <;> rw [h'] at h
  · cases h
    exact hu
  · cases h
    exact hu.holdRecord hrun _
  · cases h
    exact hu
  · cases h
    exact hu.raiseFault ⟨rfl, hF, hfault⟩
  · cases h
    exact hu
  · exact hu.delivered hrun hF hk (deliverStage_cases hst h)

/-! ## The tick -/

/-- The end of the tick keeps the invariant: the run is Exhausted only with nothing in flight and nothing left to fetch. -/
theorem endOfTick_keeps_tickInv {u v : CoreState xlen} (hu : u.TickInv) (hrun : u.status = .running)
    (h : endOfTick u = .next ⟨_, v⟩) : v.TickInv := by
  rcases endOfTick_cases u with ⟨hdone, h'⟩ | ⟨_, h'⟩ <;> rw [h'] at h <;> cases h
  · exact
    { hu with
      signals_rest := rfl
      halt_youngest := CoreState.haltYoungest_of_stopped nofun
      status_true := (Bool.and_eq_true _ _).mp hdone }
  · exact
    { hu with
      signals_rest := rfl
      status_true := CoreState.statusTrue_of_running hrun }

/-- The latch that a stage leaves empty for the next one to fill: `W` after Writeback, and, unless the tick stopped, `M` after
Memory and `E` after Execute. -/
def CoreState.EmptiedBy (s : CoreState xlen) : Stage → Prop
  | .wb => s.wLatch.hasInsn = false
  | .mem => s.status = .running → s.mLatch.hasInsn = false
  | .ex => s.status = .running → s.eLatch.hasInsn = false
  | .dec => True
  | .fetch => True

/-- A tick keeps the invariant, stage by stage. -/
theorem tick_keeps_inv {s t : CoreState xlen} (hs : s.ticking) (hi : s.Inv) (h : step ⟨_, s⟩ = .next ⟨_, t⟩) :
    t.Inv := by
  refine tick_rule (P := fun st e => e.TickInv ∧ e.EmptiedBy st) (Q := CoreState.Inv) hs h
    ⟨?wb, ?mem, ?ex, ?dec, ?fetch⟩ (fun _ _ he _ => he.1) fun _ _ he hrun hf => endOfTick_keeps_tickInv he.1 hrun hf
  case wb =>
    intro v hv
    obtain ⟨-, -, -, -, -, -, -, -, -, -, -, -, hempty, -⟩ := writebackStage_frame rfl hv
    have hstart : (s.restSignals.atStage .wb).TickInv := hi.tickInv
    exact ⟨writebackStage_keeps_tickInv hstart (CoreState.running_of_ticking hs) rfl hv, hempty⟩
  case mem =>
    rintro u v ⟨hu, hempty⟩ hrun hv
    obtain ⟨-, -, -, -, -, -, -, -, -, -, -, -, -, -, hM⟩ := memoryStage_frame rfl hv
    refine ⟨memoryStage_keeps_tickInv (hu.atStage .mem) hrun hempty rfl hv, fun hgoes => ?_⟩
    exact hM.elim And.right fun hfault => by simp [hfault] at hgoes
  case ex =>
    rintro u v ⟨hu, hempty⟩ hrun hv
    obtain ⟨-, -, -, -, -, -, -, -, -, hE⟩ := executeStage_frame rfl hv
    refine ⟨executeStage_keeps_tickInv (hu.atStage .ex) hrun (hempty hrun) rfl hv, fun hgoes => ?_⟩
    exact hE.elim And.right fun hfault => by simp [hfault] at hgoes
  case dec =>
    rintro u v ⟨hu, hempty⟩ hrun hv
    exact ⟨decodeStage_keeps_tickInv (hu.atStage .dec) hrun (hempty hrun) rfl hv, trivial⟩
  case fetch =>
    rintro u v ⟨hu, _⟩ hrun hv
    exact ⟨fetchUnit_keeps_tickInv (hu.atStage .fetch) hrun rfl hv, trivial⟩

/-- Settles O57: of the edges, a reset gives a state with the invariant, a pause or a terminal status holds the state, and a
tick keeps the invariant stage by stage. -/
theorem stepKeepsInvariant : Obligations.StepKeepsInvariant := by
  intro xlen s t hi h
  rcases step_cases s with ⟨_, hrefused⟩ | ⟨_, _, hreset⟩ | ⟨_, _, _, hheld⟩ | ⟨hticking, _⟩
  · simp [hrefused] at h
  · cases hreset.symm.trans h
    exact CoreState.resetWith_inv s.inputs
  · cases hheld.symm.trans h
    exact hi
  · exact tick_keeps_inv hticking hi h

end Sys2Proof.Machine
end

