-- ==== Sys2Proof/Proofs/Memory.lean ====
section
/-!
PROOFS. The statements of 20_memory.md: the inputs that no step changes, what a tick does to the data memory, and the word a load
finds right behind a store.
-/

namespace Sys2Proof.Machine

variable {xlen : Nat}

/-! ## The inputs (20_memory.md R52, R57) -/

/-- Settles O41: a step keeps the width, a reset and each stage of a tick keep the inputs. -/
theorem stepNeverChangesInputs : Obligations.StepNeverChangesInputs := by
  refine ⟨fun s t h => ?_, fun s t h => ?_⟩
  · obtain ⟨u, rfl⟩ := step_same_width h
    rfl
  · refine tick_induction (P := fun u => u.inputs = s.inputs) rfl h rfl (fun _ => id) (fun _ _ => id)
      ?wb ?mem ?ex ?dec ?fetch ?fin
    case wb =>
      intro u v hu hst hv
      obtain ⟨-, -, -, -, -, -, -, -, -, hin, -⟩ := writebackStage_frame hst hv
      exact hin.trans hu
    case mem =>
      intro u v hu hst hv
      obtain ⟨-, -, -, -, -, -, -, -, -, -, hin, -⟩ := memoryStage_frame hst hv
      exact hin.trans hu
    case ex =>
      intro u v hu hst hv
      obtain ⟨-, -, -, -, hin, -⟩ := executeStage_frame hst hv
      exact hin.trans hu
    case dec =>
      intro u v hu hst hv
      obtain ⟨-, -, -, -, -, -, -, -, -, -, hin, -⟩ := decodeStage_frame hst hv
      exact hin.trans hu
    case fetch =>
      intro u v hu hst hv
      obtain ⟨-, -, -, -, -, -, -, -, -, -, hin, -⟩ := fetchUnit_frame hst hv
      exact hin.trans hu
    case fin =>
      intro u v hu hv
      rcases endOfTick_frame hv with rfl | rfl <;> exact hu

/-! ## The Memory step of a tick (40_pipeline.md R75) -/

/-- The two states agree on all that Memory reads: the data memory, `M` and the inputs. -/
def CoreState.SameAccess (s a : CoreState xlen) : Prop :=
  a.dmem = s.dmem ∧ a.mLatch = s.mLatch ∧ a.inputs = s.inputs

/-- The data memory and `W` of `e` are what Memory leaves in the tick from `s`. -/
def CoreState.MemoryRan (s e : CoreState xlen) : Prop :=
  ∃ a b : CoreState xlen, s.SameAccess a ∧ a.signals.stage = .mem ∧ memoryStage a = .next ⟨_, b⟩ ∧
    e.dmem = b.dmem ∧ e.wLatch = b.wLatch

theorem CoreState.MemoryRan.next {s u v : CoreState xlen} (h : s.MemoryRan u) (hdmem : v.dmem = u.dmem)
    (hW : v.wLatch = u.wLatch) : s.MemoryRan v := by
  obtain ⟨a, b, hsame, hst, hstage, hdmem', hW'⟩ := h
  exact ⟨a, b, hsame, hst, hstage, hdmem.trans hdmem', hW.trans hW'⟩

/-- The data memory when a stage of the tick from `s` has left `e`: after Writeback, which only a HALT lets stop the tick, as
the tick found it; from Memory on, as Memory left it. -/
def CoreState.MemoryIn (s : CoreState xlen) (st : Stage) (e : CoreState xlen) : Prop :=
  match st with
  | .wb => s.SameAccess e ∧ (e.status = .running ∨ s.wLatch.HoldsHalt)
  | .mem | .ex | .dec | .fetch => s.MemoryRan e

/-- All a tick does to the data memory: what Memory does, which also fills `W`; or nothing, when a committed HALT ends the tick
before Memory. -/
theorem tick_memory {s t : CoreState xlen} (hs : s.ticking) (h : step ⟨_, s⟩ = .next ⟨_, t⟩) :
    (s.wLatch.HoldsHalt ∧ t.dmem = s.dmem) ∨ s.MemoryRan t := by
  refine tick_rule (P := s.MemoryIn) (Q := fun t => (s.wLatch.HoldsHalt ∧ t.dmem = s.dmem) ∨ s.MemoryRan t) hs h
    ⟨?wb, ?mem, ?ex, ?dec, ?fetch⟩ ?stopped ?ended
  case wb =>
    intro v hv
    obtain ⟨hdmem, -, -, -, -, -, -, -, hM, hin, -, -, -, ⟨hstatus, -⟩ | ⟨-, -, hhalt⟩⟩ := writebackStage_frame rfl hv
    · exact ⟨⟨hdmem, hM, hin⟩, .inl (hstatus.trans (CoreState.running_of_ticking hs))⟩
    · exact ⟨⟨hdmem, hM, hin⟩, .inr hhalt⟩
  case mem => exact fun u v hu _ hv => ⟨u.atStage .mem, v, hu.1, rfl, hv, rfl, rfl⟩
  case ex =>
    intro u v hu _ hv
    obtain ⟨-, -, hdmem, hW, -⟩ := executeStage_frame rfl hv
    exact CoreState.MemoryRan.next hu hdmem hW
  case dec =>
    intro u v hu _ hv
    obtain ⟨-, hdmem, -, -, -, -, -, -, hW, -⟩ := decodeStage_frame rfl hv
    exact CoreState.MemoryRan.next hu hdmem hW
  case fetch =>
    intro u v hu _ hv
    obtain ⟨-, -, hdmem, -, -, -, -, hW, -⟩ := fetchUnit_frame rfl hv
    exact CoreState.MemoryRan.next hu hdmem hW
  case stopped =>
    intro st e he hstop
    cases st with
    | wb =>
      obtain ⟨⟨hdmem, -, -⟩, hstatus⟩ := he
      exact .inl ⟨hstatus.resolve_left hstop, hdmem⟩
    | _ => exact .inr (CoreState.MemoryRan.next he rfl rfl)
  case ended =>
    intro e f he _ hf
    rcases endOfTick_frame hf with rfl | rfl <;> exact .inr (CoreState.MemoryRan.next he rfl rfl)

/-! ## Stores alone write the data memory (20_memory.md R45, R47) -/

/-- Memory keeps every word but the one at the address of a live STORE or STI in `M`. -/
theorem memoryStage_read {u v : CoreState xlen} (hst : u.signals.stage = .mem) (h : memoryStage u = .next ⟨_, v⟩)
    {a : Nat} (hM : ∀ rs1 rs2 imm, u.mLatch.hasInsn = true →
      (u.mLatch.instr = some (.store rs1 rs2 imm) ∨ u.mLatch.instr = some (.sti rs1 rs2 imm)) →
      (signed u.mLatch.memoryAddress).toNat ≠ a) :
    Memory.read v.dmem a = Memory.read u.dmem a := by
  rcases memoryStage_cases hst h with
    ⟨_, rfl⟩ | ⟨_, _, _, rfl⟩ | ⟨hlive, _, ⟨_, rfl⟩ | ⟨⟨rs1, rs2, imm, hi⟩, rfl⟩⟩
  · rfl
  · rfl
  · rfl
  · exact Memory.read_write_ne _ _ (hM rs1 rs2 imm hlive hi).symm

/-- Settles O45: the tick leaves the data memory as Memory does, which finds in `M` what the tick began with. -/
theorem onlyStoresWriteMemory : Obligations.OnlyStoresWriteMemory := by
  intro xlen s t a hs h hM
  rcases tick_memory hs h with ⟨_, hdmem⟩ | ⟨u, v, ⟨hdmem, hlatch, _⟩, hst, hv, hdmem', _⟩
  · rw [hdmem]
  · rw [hdmem', memoryStage_read hst hv (hlatch ▸ hM), hdmem]

/-! ## The bounds of the data memory (20_memory.md R42, R43) -/

theorem CoreState.MemoryOk.congr {s t : CoreState xlen} (h : s.MemoryOk) (hdmem : t.dmem = s.dmem)
    (hin : t.inputs = s.inputs) : t.MemoryOk := by
  rwa [CoreState.MemoryOk, hdmem, hin]

/-- Memory writes at valid addresses only, so it keeps the data memory within its bounds. -/
theorem memoryStage_keeps_memoryOk {u v : CoreState xlen} (hu : u.MemoryOk) (hst : u.signals.stage = .mem)
    (h : memoryStage u = .next ⟨_, v⟩) : v.MemoryOk := by
  rcases memoryStage_cases hst h with ⟨_, rfl⟩ | ⟨_, _, _, rfl⟩ | ⟨_, hvalid, hpass⟩
  · exact hu
  · exact hu
  · obtain ⟨dmem, l, rfl, _, hmem⟩ := hpass.eq_sendToWriteback hu hvalid
    exact hmem

/-- Settles O54: a reset empties the data memory, a pause holds it, and a tick leaves it as Memory does. -/
theorem stepKeepsMemoryOk : Obligations.StepKeepsMemoryOk := by
  intro xlen s t hs h
  have hin : t.inputs = s.inputs := stepNeverChangesInputs.2 s t h
  rcases step_cases s with ⟨_, hrefused⟩ | ⟨_, _, hreset⟩ | ⟨_, _, _, hheld⟩ | ⟨hticking, _⟩
  · simp [hrefused] at h
  · cases hreset.symm.trans h
    exact (CoreState.resetWith_inv s.inputs).memory
  · cases hheld.symm.trans h
    exact hs
  · rcases tick_memory hticking h with ⟨_, hdmem⟩ | ⟨u, v, ⟨hdmem, _, hin'⟩, hst, hv, hdmem', _⟩
    · exact hs.congr hdmem hin
    · obtain ⟨-, -, -, -, -, -, -, -, -, -, hinv, -⟩ := memoryStage_frame hst hv
      exact (memoryStage_keeps_memoryOk (hs.congr hdmem hin') hst hv).congr hdmem'
        (hin.trans (hin'.symm.trans hinv.symm))

/-! ## A load right behind a store (20_memory.md R54) -/

theorem memoryStage_of_instr {u : CoreState xlen} {i : Instr} (hst : u.signals.stage = .mem)
    (hlive : u.mLatch.hasInsn = true) (hi : u.mLatch.instr = some i) :
    memoryStage u = .next ⟨_, (stepsOf i).mem u⟩ := by
  simp [memoryStage, stageWork, hlive, hi, exec_mem i hst]

theorem executeStage_of_instr {u : CoreState xlen} {i : Instr} (hst : u.signals.stage = .ex)
    (hlive : u.eLatch.hasInsn = true) (hi : u.eLatch.instr = some i) :
    executeStage u = .next ⟨_, (stepsOf i).ex u⟩ := by
  simp [executeStage, stageWork, hlive, hi, exec_ex i hst]

/-- Whether an address is valid is for the parameters to say. -/
theorem CoreState.validAddress_congr {s a : CoreState xlen} (h : a.inputs = s.inputs) (x : Word xlen) :
    a.validAddress x = s.validAddress x := by
  simp [CoreState.validAddress, h]

/-- A tick with a live instruction in `M`, which no HALT ends before Memory, runs that instruction's Memory step. -/
theorem tick_memory_of_instr {s t : CoreState xlen} {i : Instr} (hs : s.ticking) (hnohalt : s.NoHaltCommit)
    (h : step ⟨_, s⟩ = .next ⟨_, t⟩) (hlive : s.mLatch.hasInsn = true) (hi : s.mLatch.instr = some i) :
    ∃ a : CoreState xlen, s.SameAccess a ∧ t.dmem = ((stepsOf i).mem a).dmem ∧
      t.wLatch = ((stepsOf i).mem a).wLatch := by
  rcases tick_memory hs h with ⟨hhalt, _⟩ | ⟨a, b, hsame, hst, hstage, hdmem, hW⟩
  · exact absurd hhalt hnohalt
  · have hlatch : a.mLatch = s.mLatch := hsame.2.1
    rw [memoryStage_of_instr hst (by rw [hlatch, hlive]) (by rw [hlatch, hi])] at hstage
    cases hstage
    exact ⟨a, hsame, hdmem, hW⟩

/-- A tick with a STORE or STI in `M` writes its word at its valid address and passes it on to `W`. -/
theorem tick_of_store_in_memory {s t : CoreState xlen} {st : Instr} {rs1 rs2 : RegIndex} {imm : Imm} (hs : s.ticking)
    (hnohalt : s.NoHaltCommit) (h : step ⟨_, s⟩ = .next ⟨_, t⟩) (hlive : s.mLatch.hasInsn = true)
    (hi : s.mLatch.instr = some st) (hstore : st = .store rs1 rs2 imm ∨ st = .sti rs1 rs2 imm)
    (hvalid : s.validAddress s.mLatch.memoryAddress = true) :
    t.dmem = Memory.write s.dmem (signed s.mLatch.memoryAddress).toNat s.mLatch.rs1Value ∧
      t.wLatch = s.mLatch.filled := by
  obtain ⟨a, ⟨hdmem, hlatch, hin⟩, htdmem, htW⟩ := tick_memory_of_instr hs hnohalt h hlive hi
  have hstep : (stepsOf st).mem a = a.storeWord := by rcases hstore with rfl | rfl <;> rfl
  rcases a.storeWord_cases with ⟨_, hword⟩ | ⟨hinvalid, _⟩
  · rw [hstep, hword] at htdmem htW
    simp only [CoreState.sendToWriteback_dmem, CoreState.sendToWriteback_wLatch, hdmem, hlatch] at htdmem htW
    exact ⟨htdmem, htW⟩
  · rw [hlatch, CoreState.validAddress_congr hin, hvalid] at hinvalid
    nomatch hinvalid

/-- A tick with a LOAD or LDI in `M` passes it on to `W` with the word at its valid address. -/
theorem tick_of_load_in_memory {s t : CoreState xlen} {ld : Instr} {rd base : RegIndex} {imm : Imm} (hs : s.ticking)
    (hnohalt : s.NoHaltCommit) (h : step ⟨_, s⟩ = .next ⟨_, t⟩) (hlive : s.mLatch.hasInsn = true)
    (hi : s.mLatch.instr = some ld) (hload : ld = .load rd base imm ∨ ld = .ldi rd base imm)
    (hvalid : s.validAddress s.mLatch.memoryAddress = true) :
    t.wLatch.hasInsn = true ∧ t.wLatch.instr = some ld ∧
      t.wLatch.resultBuffer = Memory.read s.dmem (signed s.mLatch.memoryAddress).toNat := by
  obtain ⟨a, ⟨hdmem, hlatch, hin⟩, _, htW⟩ := tick_memory_of_instr hs hnohalt h hlive hi
  have hstep : (stepsOf ld).mem a = a.loadWord := by rcases hload with rfl | rfl <;> rfl
  rcases a.loadWord_cases with ⟨_, hword⟩ | ⟨hinvalid, _⟩
  · rw [hstep, hword, CoreState.sendToWriteback_wLatch, hlatch, hdmem] at htW
    rw [htW]
    exact ⟨rfl, hi, rfl⟩
  · rw [hlatch, CoreState.validAddress_congr hin, hvalid] at hinvalid
    nomatch hinvalid

/-- `M` of `e` is what Execute leaves in the tick from `s`. -/
def CoreState.ExecuteRan (s e : CoreState xlen) : Prop :=
  ∃ a b : CoreState xlen, a.eLatch = s.eLatch ∧ a.signals.stage = .ex ∧ executeStage a = .next ⟨_, b⟩ ∧
    e.mLatch = b.mLatch

theorem CoreState.ExecuteRan.next {s u v : CoreState xlen} (h : s.ExecuteRan u) (hM : v.mLatch = u.mLatch) :
    s.ExecuteRan v := by
  obtain ⟨a, b, hlatch, hst, hstage, hM'⟩ := h
  exact ⟨a, b, hlatch, hst, hstage, hM.trans hM'⟩

/-- The tick from `s` up to a stage: `E` is as the tick found it until Execute, and from there on `M` is as Execute left it. -/
def CoreState.ExecuteIn (s : CoreState xlen) (st : Stage) (e : CoreState xlen) : Prop :=
  match st with
  | .wb | .mem => e.eLatch = s.eLatch
  | .ex | .dec | .fetch => s.ExecuteRan e

/-- A tick that leaves the core running leaves `M` as Execute does, which finds in `E` what the tick began with. -/
theorem tick_execute {s t : CoreState xlen} (hs : s.ticking) (h : step ⟨_, s⟩ = .next ⟨_, t⟩)
    (hrun : t.status = .running) : s.ExecuteRan t := by
  refine tick_rule (P := s.ExecuteIn) (Q := fun t => t.status = .running → s.ExecuteRan t) hs h
    ⟨?wb, ?mem, ?ex, ?dec, ?fetch⟩ (fun _ _ _ hstop hgoes => absurd hgoes hstop) ?ended hrun
  case wb =>
    intro v hv
    obtain ⟨-, -, -, -, -, -, -, hE, -⟩ := writebackStage_frame rfl hv
    exact hE
  case mem =>
    intro u v hu _ hv
    obtain ⟨-, -, -, -, -, -, -, -, -, hE, -⟩ := memoryStage_frame rfl hv
    exact hE.trans hu
  case ex => exact fun u v hu _ hv => ⟨u.atStage .ex, v, hu, rfl, hv, rfl⟩
  case dec =>
    intro u v hu _ hv
    obtain ⟨-, -, -, -, -, -, -, -, -, hM, -⟩ := decodeStage_frame rfl hv
    exact CoreState.ExecuteRan.next hu hM
  case fetch =>
    intro u v hu _ hv
    obtain ⟨-, -, -, -, -, -, -, -, hM, -⟩ := fetchUnit_frame rfl hv
    exact CoreState.ExecuteRan.next hu hM
  case ended =>
    intro e f he _ hf _
    rcases endOfTick_frame hf with rfl | rfl <;> exact CoreState.ExecuteRan.next he rfl

/-- A tick with a LOAD or LDI in `E` that leaves the core running passes it on to `M` with its address, `base +w imm`. -/
theorem tick_of_load_in_execute {s t : CoreState xlen} {ld : Instr} {rd base : RegIndex} {imm : Imm} (hs : s.ticking)
    (h : step ⟨_, s⟩ = .next ⟨_, t⟩) (hrun : t.status = .running) (hlive : s.eLatch.hasInsn = true)
    (hi : s.eLatch.instr = some ld) (hload : ld = .load rd base imm ∨ ld = .ldi rd base imm) :
    t.mLatch.hasInsn = true ∧ t.mLatch.instr = some ld ∧
      t.mLatch.memoryAddress = s.eLatch.rs1Value + immWord imm := by
  obtain ⟨a, b, hlatch, hst, hstage, hM⟩ := tick_execute hs h hrun
  rw [executeStage_of_instr hst (by rw [hlatch, hlive]) (by rw [hlatch, hi])] at hstage
  cases hstage
  rw [← hlatch] at hi ⊢
  rw [hM, ← addw_eq]
  rcases hload with rfl | rfl <;> exact ⟨rfl, hi, rfl⟩

/-- Settles O53: the first tick writes the word and moves the store to `W` and the load to `M`; in the second the load reads
the memory that the first tick left, where the stored word is. -/
theorem loadReadsTheStoreBeforeIt : Obligations.LoadReadsTheStoreBeforeIt := by
  intro xlen s t u st ld rs1 rs2 rd base imm imm' hs hnohalt hstore hload hwf hMlive hMi hvalid hElive hEi haddr h hrun h'
  obtain ⟨hdmem, hW⟩ := tick_of_store_in_memory hs hnohalt h hMlive hMi hstore hvalid
  obtain ⟨hlive, hi, ha⟩ := tick_of_load_in_execute hs h hrun hElive hEi hload
  have hin : t.inputs = s.inputs := stepNeverChangesInputs.2 s t h
  have haddr' : t.mLatch.memoryAddress = s.mLatch.memoryAddress := ha.trans haddr
  have hticking : t.ticking := by
    obtain ⟨hcore, hrst, hen, _⟩ := hs
    exact ⟨by rwa [CoreState.validCore, hin], by rw [hin, hrst], by rw [hin, hen], hrun⟩
  have hnohalt' : t.NoHaltCommit := by
    rintro ⟨_, hhalt⟩
    rw [hW, Latch.filled_instr, hMi] at hhalt
    rcases hstore with rfl | rfl <;> nomatch hhalt
  have hvalid' : t.validAddress t.mLatch.memoryAddress = true := by
    rw [haddr', CoreState.validAddress_congr hin, hvalid]
  obtain ⟨hWlive, hWi, hread⟩ := tick_of_load_in_memory hticking hnohalt' h' hlive hi hload hvalid'
  refine ⟨hWlive, hWi, ?_⟩
  rw [hread, haddr', hdmem, Memory.read_write_self _ _ hwf]

end Sys2Proof.Machine
end

