-- ==== Sys2Proof/Proofs/Encoding.lean ====
section
/-!
PROOFS. The statements of 30_encoding.md: decode reads back encode, the bits that a format ignores, the illegal opcodes, and the
immediate as a word.
-/

namespace Sys2Proof

/-! ## Decode after encode (30_encoding.md R61, R65) -/

/-- A packed record decodes by the fields it was packed from. -/
theorem decode_packRecord (op : Opcode) (rd rs1 rs2 : RegIndex) (imm : Imm) :
    decode (packRecord op rd rs1 rs2 imm) = decodeFields op rd rs1 rs2 imm := by
  simp [decode]

/-- Settles O2: an encoding is a packed record, and in the row of its own opcode the decoder finds the instruction again. -/
theorem decodeReadsBackEncode : Obligations.DecodeReadsBackEncode := by
  intro i
  cases i <;> exact decode_packRecord ..

/-- A word that is known to be an encoding decodes to the instruction encoded. -/
theorem decode_of_encode_eq {w : RecordWord} {i : Instr} (h : encode i = w) : decode w = .instr i :=
  h ▸ decodeReadsBackEncode i

/-! ## The fields a format uses (30_encoding.md R62) -/

/-- Masking a record word with a packed one masks each field. -/
theorem and_packRecord (w : RecordWord) (op : Opcode) (rd rs1 rs2 : RegIndex) (imm : Imm) :
    w &&& packRecord op rd rs1 rs2 imm =
      packRecord (opcodeField w &&& op) (rdField w &&& rd) (rs1Field w &&& rs1) (rs2Field w &&& rs2)
        (immField w &&& imm) := by
  refine BitVec.eq_of_getLsbD_eq fun k hk => ?_
  rw [BitVec.getLsbD_and, getLsbD_packRecord _ _ _ _ _ k hk, getLsbD_packRecord _ _ _ _ _ k hk]
  split_ifs with himm hreserved hrs2 hrs1 hrd
  · simp [immField, himm]
  · simp
  · simp [rs2Field, show k - 43 < 5 by omega, show 43 + (k - 43) = k by omega]
  · simp [rs1Field, show k - 48 < 5 by omega, show 48 + (k - 48) = k by omega]
  · simp [rdField, show k - 53 < 5 by omega, show 53 + (k - 53) = k by omega]
  · simp [opcodeField, show k - 58 < 6 by omega, show 58 + (k - 58) = k by omega]

/-- The opcode of `w` and those of its other fields that `i`'s format uses, with every other bit 0. That the format uses a field
is read off the field's lowest bit in `usedBits i`. -/
def usedFields (i : Instr) (w : RecordWord) : RecordWord :=
  packRecord (opcodeField w) (if (usedBits i).getLsbD 53 then rdField w else 0)
    (if (usedBits i).getLsbD 48 then rs1Field w else 0) (if (usedBits i).getLsbD 43 then rs2Field w else 0)
    (if (usedBits i).getLsbD 0 then immField w else 0)

/-- A format uses a field whole or not at all. -/
theorem usedBits_eq_usedFields (i : Instr) : usedBits i = usedFields i (BitVec.allOnes 64) := by
  cases i <;> simp [usedFields, usedBits] <;> rfl

/-- Masking with a field of ones keeps a field, and with an unused one clears it. -/
theorem and_ite_allOnes {n : Nat} (c : Bool) (v : BitVec n) :
    (v &&& if c then BitVec.allOnes n else 0) = if c then v else 0 := by
  cases c <;> simp

/-- The used bits of a record word are its used fields. -/
theorem and_usedBits (w : RecordWord) (i : Instr) : w &&& usedBits i = usedFields i w := by
  have hop : opcodeField (BitVec.allOnes 64) = BitVec.allOnes 6 := rfl
  have hrd : rdField (BitVec.allOnes 64) = BitVec.allOnes 5 := rfl
  have hrs1 : rs1Field (BitVec.allOnes 64) = BitVec.allOnes 5 := rfl
  have hrs2 : rs2Field (BitVec.allOnes 64) = BitVec.allOnes 5 := rfl
  have himm : immField (BitVec.allOnes 64) = BitVec.allOnes 32 := rfl
  rw [usedBits_eq_usedFields, usedFields, and_packRecord, hop, hrd, hrs1, hrs2, himm, BitVec.and_allOnes]
  simp only [and_ite_allOnes, usedFields]

/-- Every format uses the opcode. -/
theorem opcodeField_and_usedBits (w : RecordWord) (i : Instr) : opcodeField (w &&& usedBits i) = opcodeField w := by
  rw [and_usedBits, usedFields, opcodeField_packRecord]

/-! ## All the decoder can do (30_encoding.md R65, R67, R68) -/

/-- Between the words of an instruction's opcode, only the used bits matter. -/
theorem decode_and_usedBits {w : RecordWord} {i : Instr} (h : opcodeField w = opcodeOf i) :
    decode (w &&& usedBits i) = decode w := by
  rw [and_usedBits, usedFields, decode_packRecord, decode, h]
  cases i <;> simp [opcodeOf, usedBits, decodeFields]

/-- All the decoder can do: read the instruction whose opcode the word carries and whose encoding is the used bits of the word,
or reject one of the opcodes 0x16 to 0x3F. -/
theorem decode_cases (w : RecordWord) :
    (∃ i, decode w = .instr i ∧ opcodeOf i = opcodeField w ∧ encode i = w &&& usedBits i) ∨
      (decode w = .illegalInstruction (opcodeField w) ∧ 0x16 ≤ (opcodeField w).toNat) := by
  simp only [and_usedBits]
  unfold decode decodeFields
  split
  case h_23 =>
    refine .inr ⟨rfl, ?_⟩
    simp only [imp_false] at *
    bv_omega
  all_goals
    rename_i hop
    exact .inl ⟨_, rfl, hop.symm, by simp [encode, opcodeOf, usedFields, usedBits, hop]⟩

/-- Settles O3: the word decodes to the instruction its used bits encode, and another word with these used bits carries the
same opcode and so decodes as they do. -/
theorem ignoredBitsChangeNothing : Obligations.IgnoredBitsChangeNothing := by
  intro w i h
  obtain ⟨hop, hencode⟩ : opcodeOf i = opcodeField w ∧ encode i = w &&& usedBits i := by
    rcases decode_cases w with ⟨j, hj, hfacts⟩ | ⟨hillegal, _⟩
    · cases h.symm.trans hj
      exact hfacts
    · nomatch h.symm.trans hillegal
  refine ⟨hencode, fun w' hagree => ?_⟩
  have hop' : opcodeField w' = opcodeOf i := by
    rw [hop, ← opcodeField_and_usedBits w' i, hagree, opcodeField_and_usedBits]
  calc decode w'
      = decode (w' &&& usedBits i) := (decode_and_usedBits hop').symm
    _ = decode (encode i) := by rw [hagree, hencode]
    _ = .instr i := decodeReadsBackEncode i

/-- Settles O4: of all the decoder can do, the opcode tells which. -/
theorem illegalOpcodesAreExactly : Obligations.IllegalOpcodesAreExactly := by
  intro w
  rcases decode_cases w with ⟨i, hi, hop, _⟩ | ⟨hillegal, hge⟩
  · have hlt : (opcodeField w).toNat < 0x16 := hop ▸ Laws.opcodeOf_lt i
    simp [hi, Nat.not_le.mpr hlt]
  · exact iff_of_true hillegal hge

/-- Settles O1: ten of the words are encodings, the HALT word is one but for bits that HALT ignores, and the last two carry
opcodes from 0x16 on. -/
theorem knownRecordWordsDecode : Obligations.KnownRecordWordsDecode :=
  ⟨decode_of_encode_eq (by decide), decode_of_encode_eq (by decide), decode_of_encode_eq (by decide),
    decode_of_encode_eq (by decide), decode_of_encode_eq (by decide), decode_of_encode_eq (by decide),
    decode_of_encode_eq (by decide), decode_of_encode_eq (by decide),
    (ignoredBitsChangeNothing (encode .halt) .halt (decodeReadsBackEncode .halt)).2 _ (by decide),
    decode_of_encode_eq (by decide), (illegalOpcodesAreExactly 0x5800000000000000).mpr (by decide),
    (illegalOpcodesAreExactly 0xFC00000000000000).mpr (by decide)⟩

end Sys2Proof

namespace Sys2Proof.Machine

/-! ## The immediate as a word (30_encoding.md R61, R63) -/

/-- The word of an immediate's value is the immediate, sign-extended in wider words and cut in narrower ones. -/
theorem immWord_eq_signExtend {xlen : Nat} (imm : Imm) : (immWord imm : Word xlen) = imm.signExtend xlen := rfl

/-- Settles O6: sign extension keeps the value in wider words and the low bits in narrower ones. -/
theorem immediateIsTheWordOfItsValue : Obligations.ImmediateIsTheWordOfItsValue := by
  refine ⟨immWord_thirtyTwo, fun imm hwide => ?_, fun imm k hk hnarrow => ?_⟩
  · rw [signed, immWord_eq_signExtend, BitVec.toInt_signExtend_of_le hwide]
  · rw [immWord_eq_signExtend, BitVec.getLsbD_signExtend, if_pos (Nat.lt_of_lt_of_le hk hnarrow), decide_eq_true hk,
      Bool.true_and]

end Sys2Proof.Machine
end

/-!
PROOFS. The statements of 40_pipeline.md: the tick and its stages, the modes of Fetch, dispatch and stall in Decode, what a tick
commits, forwards and flushes, and the run of one instruction alone.
-/

namespace Sys2Proof.Machine

variable {xlen : Nat}

/-! ## A stage and its latch (40_pipeline.md R74, R75) -/

theorem stageWork_of_empty {l : Latch xlen} {pass : CoreState xlen → CoreState xlen} {s : CoreState xlen}
    (h : l.hasInsn = false) : stageWork l pass s = .next ⟨_, s⟩ := by simp [stageWork, h]

theorem stageWork_of_instr {l : Latch xlen} {pass : CoreState xlen → CoreState xlen} {s : CoreState xlen} {i : Instr}
    (hlive : l.hasInsn = true) (hi : l.instr = some i) : stageWork l pass s = exec i ⟨_, s⟩ := by
  simp [stageWork, hlive, hi]

/-- Settles O34: the tick is the chain of its stages by definition, and a stage runs the instruction in its latch. -/
theorem everyStageRunsItsInstruction : Obligations.EveryStageRunsItsInstruction :=
  ⟨fun _ hs => step_of_ticking hs, fun _ _ => stageWork_of_instr, fun _ _ => stageWork_of_instr,
    fun _ _ => stageWork_of_instr, fun _ _ => stageWork_of_instr⟩

/-! ## The fetch class of a PC (40_pipeline.md R108) -/

theorem fetchClassOf_eq_fault_iff {cfg : Config} {n : Nat} {pc : Word xlen} :
    fetchClassOf cfg n pc = .fault ↔ signed pc < cfg.codeBase ∨ (signed pc - cfg.codeBase) % cfg.insnWidth ≠ 0 := by
  simp only [fetchClassOf]
  split_ifs with hbad hpast
  · exact iff_of_true rfl hbad
  · exact iff_of_false nofun hbad
  · exact iff_of_false nofun hbad

/-- Fetch can map a PC exactly when its offset from `CODE_BASE` is a natural number of instruction widths. -/
theorem fetchClassOf_ne_fault_iff {cfg : Config} {n : Nat} {pc : Word xlen} (hw : 1 ≤ cfg.insnWidth) :
    fetchClassOf cfg n pc ≠ .fault ↔ ∃ k : Nat, signed pc = cfg.codeBase + cfg.insnWidth * k := by
  rw [Ne, fetchClassOf_eq_fault_iff, not_or, not_lt, not_not, ← Int.dvd_iff_emod_eq_zero]
  constructor
  · rintro ⟨hlow, q, hq⟩
    have hq0 : 0 ≤ q := nonneg_of_mul_nonneg_right (by omega : 0 ≤ (cfg.insnWidth : Int) * q) (by omega)
    exact ⟨q.toNat, by rw [Int.toNat_of_nonneg hq0]; omega⟩
  · rintro ⟨k, hk⟩
    have hnonneg : (0 : Int) ≤ cfg.insnWidth * k := by positivity
    exact ⟨by omega, k, by omega⟩

/-- At an address past the last record Fetch is exhausted. -/
theorem fetchClassOf_exhausted_of_address {cfg : Config} {n : Nat} {pc : Word xlen} {k : Nat} (hw : 1 ≤ cfg.insnWidth)
    (hpc : signed pc = cfg.codeBase + cfg.insnWidth * k) (hk : n ≤ k) : fetchClassOf cfg n pc = .exhausted := by
  cases hc : fetchClassOf cfg n pc with
  | fault => exact absurd hc ((fetchClassOf_ne_fault_iff hw).mpr ⟨k, hpc⟩)
  | exhausted => rfl
  | index m =>
    obtain ⟨hm, hlt⟩ := (fetchClassOf_index_iff hw).mp hc
    have hmul : (cfg.insnWidth : Int) * m = cfg.insnWidth * k := by omega
    have hmk : (m : Int) = k := Int.eq_of_mul_eq_mul_left (by omega) hmul
    omega

/-- Settles O30: a PC that Fetch can map is the address of one `k`, which lies in the code or past it. -/
theorem fetchClassFollowsAddress : Obligations.FetchClassFollowsAddress := by
  intro xlen cfg n pc hw
  refine ⟨?fault, ⟨fun hex => ?past, fun ⟨k, hk, hpc⟩ => fetchClassOf_exhausted_of_address hw hpc hk⟩,
    fun k => (fetchClassOf_index_iff hw).trans and_comm⟩
  case fault => simpa using not_congr (fetchClassOf_ne_fault_iff (n := n) (pc := pc) hw)
  case past =>
    obtain ⟨k, hpc⟩ := (fetchClassOf_ne_fault_iff (n := n) (pc := pc) hw).mp (by simp [hex])
    refine ⟨k, ?_, hpc⟩
    by_contra hlt
    have hin := (fetchClassOf_index_iff (n := n) hw).mpr ⟨hpc, by omega⟩
    simp [hex] at hin

/-! ## The modes of Fetch (40_pipeline.md R97, R109 to R115) -/

theorem fetchUnit_of_stopped {s : CoreState xlen} (hF : s.fLatch.hasInsn = false) : fetchUnit s = .next ⟨_, s⟩ := by
  simp [fetchUnit, hF]

theorem fetchUnit_of_redirect {s : CoreState xlen} (hr : s.signals.redirect = true) : fetchUnit s = .next ⟨_, s⟩ := by
  simp [fetchUnit, hr]

theorem fetchUnit_of_exhausted {s : CoreState xlen} (hc : s.fetchClass = .exhausted) : fetchUnit s = .next ⟨_, s⟩ := by
  simp [fetchUnit, hc]

theorem fetchUnit_of_hold {s : CoreState xlen} (hF : s.fLatch.hasInsn = true) (hr : s.signals.redirect = false)
    (hst : s.signals.stall = true) {k : Nat} (hc : s.fetchClass = .index k) :
    fetchUnit s = .next ⟨_, s.holdRecord (s.codeRecord k)⟩ := by
  simp [fetchUnit, hF, hr, hst, hc]

theorem fetchUnit_of_hold_fault {s : CoreState xlen} (hF : s.fLatch.hasInsn = true) (hr : s.signals.redirect = false)
    (hst : s.signals.stall = true) (hc : s.fetchClass = .fault) : fetchUnit s = .next ⟨_, s⟩ := by
  simp [fetchUnit, hF, hr, hst, hc]

theorem fetchUnit_of_fault {s : CoreState xlen} (hF : s.fLatch.hasInsn = true) (hr : s.signals.redirect = false)
    (hst : s.signals.stall = false) (hc : s.fetchClass = .fault) :
    fetchUnit s = .next ⟨_, s.raiseFault .fetchAddressFault .fetch s.pc⟩ := by
  simp [fetchUnit, hF, hr, hst, hc]

theorem fetchUnit_of_fetch {s : CoreState xlen} (hF : s.fLatch.hasInsn = true) (hr : s.signals.redirect = false)
    (hst : s.signals.stall = false) {k : Nat} (hc : s.fetchClass = .index k) :
    fetchUnit s = deliverStage (s.fetchRecord (s.codeRecord k)) := by
  simp [fetchUnit, hF, hr, hst, hc]

/-- Settles O32: one equation for each mode. -/
theorem fetchModesThatDeliverNothing : Obligations.FetchModesThatDeliverNothing := fun _ =>
  ⟨fetchUnit_of_stopped, fetchUnit_of_redirect,
    fun hF hr hst => ⟨fun _ => fetchUnit_of_hold hF hr hst, fetchUnit_of_hold_fault hF hr hst⟩,
    fetchUnit_of_exhausted, fetchUnit_of_fault⟩

/-- In FETCH mode the record is delivered, and Fetch stays enabled unless it is a HALT (40_pipeline.md R109, R113). -/
theorem fetchUnit_eq_delivered {s : CoreState xlen} (hstage : s.signals.stage = .fetch) (hF : s.fLatch.hasInsn = true)
    (hr : s.signals.redirect = false) (hst : s.signals.stall = false) {k : Nat} (hc : s.fetchClass = .index k) :
    fetchUnit s = .next ⟨_, { s.delivered k with
      fLatch := { (s.delivered k).dLatch with hasInsn := decide (opcodeField (s.codeRecord k) ≠ 0x0C) } }⟩ := by
  obtain ⟨t, ht⟩ := deliverStage_answers_next (s.fetchRecord (s.codeRecord k))
  rw [fetchUnit_of_fetch hF hr hst hc, ht]
  rcases deliverStage_cases (u := s.fetchRecord (s.codeRecord k)) hstage ht with ⟨hhalt, rfl⟩ | ⟨hnot, rfl⟩
  · have hop : opcodeField (s.codeRecord k) = 0x0C := (Latch.instr_eq_halt_iff _).mp hhalt
    simp only [hop, ne_eq, not_true_eq_false, decide_false]
    rfl
  · have hop : opcodeField (s.codeRecord k) ≠ 0x0C := (Latch.instr_eq_halt_iff _).not.mp hnot
    simp only [hop, ne_eq, not_false_eq_true, decide_true, ← hF]
    rfl

/-- Settles O31: every field but `PC`, `D` and `F` is left as it was. -/
theorem fetchDeliversRecord : Obligations.FetchDeliversRecord := by
  intro xlen s k hstage hF hr hst hc
  exact ⟨_, fetchUnit_eq_delivered hstage hF hr hst hc, addw_eq _ _, rfl, rfl, rfl, rfl, rfl,
    ⟨fun _ _ => rfl, fun _ _ => rfl, fun _ _ => rfl, fun _ _ => rfl⟩, ⟨rfl, rfl⟩, fun _ => rfl, ⟨rfl, rfl, rfl⟩, rfl⟩

/-! ## A tick with nothing in flight (40_pipeline.md R114, R115, R117) -/

/-- With nothing in flight the step is Fetch and the end of the tick. -/
theorem step_of_drained {s : CoreState xlen} (hs : s.ticking) (hd : s.drained = true) :
    step ⟨_, s⟩ = restAfter (andThen (fetchUnit (s.restSignals.atStage .fetch)) endOfTick) := by
  rw [step_of_ticking hs, afterFetch_of_drained hd (CoreState.running_of_ticking hs)]

/-- What `F` holds once a record is loaded is what the record decodes to. -/
theorem fetchRecord_instr {w : RecordWord} {i : Instr} (h : decode w = .instr i) (s : CoreState xlen) :
    (s.fetchRecord w).fLatch.instr = some i := by
  have hfields : decodeFields (opcodeField w) (rdField w) (rs1Field w) (rs2Field w) (immField w) = .instr i := h
  simp [Latch.instr, hfields]

theorem deliverStage_of_instr {s : CoreState xlen} {i : Instr} (h : s.fLatch.instr = some i) :
    deliverStage s = exec i ⟨_, s⟩ := by simp [deliverStage, h]

/-- Settles O33: with nothing in flight only Fetch acts, and it delivers the record as the instruction it decodes to. -/
theorem stepRunsDecodedInstruction : Obligations.StepRunsDecodedInstruction := by
  intro xlen s k i hs hd hF hc hi
  rw [step_of_drained hs hd, fetchUnit_of_fetch (s := s.restSignals.atStage .fetch) hF rfl rfl hc]
  exact congrArg (fun r => restAfter (andThen r endOfTick)) (deliverStage_of_instr (fetchRecord_instr hi _))

/-- A drained state that cannot fetch ends the run (40_pipeline.md R117). -/
theorem endOfTick_of_done {s : CoreState xlen} (hd : s.drained = true) (hc : s.cannotFetch = true) :
    endOfTick s = .next ⟨_, s.countTick.exhaust⟩ := by simp [endOfTick, hd, hc]

/-- A state with an instruction in flight goes on (40_pipeline.md R116). -/
theorem endOfTick_of_live {s : CoreState xlen} (hd : s.drained = false) : endOfTick s = .next ⟨_, s.countTick⟩ := by
  simp [endOfTick, hd]

theorem fetchUnit_of_cannotFetch {s : CoreState xlen} (h : s.cannotFetch = true) : fetchUnit s = .next ⟨_, s⟩ := by
  have hcases : s.fLatch.hasInsn = false ∨ s.fetchClass = .exhausted := by simpa [CoreState.cannotFetch] using h
  exact hcases.elim fetchUnit_of_stopped fetchUnit_of_exhausted

/-- Settles O52: Fetch does nothing and the end of the tick finds the run done; or Fetch faults, which stops the tick. -/
theorem emptyPipelineExhausts : Obligations.EmptyPipelineExhausts := by
  intro xlen s hs hd
  have hrun : s.status = .running := CoreState.running_of_ticking hs
  refine ⟨fun hc => ?_, fun hF hfault => ?_⟩
  · have hidle : fetchUnit (s.restSignals.atStage .fetch) = .next ⟨_, s.restSignals.atStage .fetch⟩ :=
      fetchUnit_of_cannotFetch hc
    rw [step_of_drained hs hd, andThen_running hidle hrun,
      endOfTick_of_done (s := s.restSignals.atStage .fetch) hd hc]
    rfl
  · rw [step_of_drained hs hd,
      andThen_stopped (fetchUnit_of_fault (s := s.restSignals.atStage .fetch) hF rfl rfl hfault) (by simp)]
    rfl

/-! ## Decode: dispatch and stall (40_pipeline.md R98 to R106) -/

/-- The register that fills `rs1_value`: the first checked source, or JUMP's `rs1`, which is not checked (40_pipeline.md R105,
R118). -/
def fill1Of : Instr → Option RegIndex
  | .jump rs1 _ => some rs1
  | i => (sourcesOf i)[0]?

/-- What Decode needs of an instruction: its row of 40_pipeline.md R118. -/
def needsOf (i : Instr) : DecodeNeeds where
  used := i.usedRegs
  sources := sourcesOf i
  fill1 := fill1Of i
  fill2 := (sourcesOf i)[1]?
  dests := destsOf i

theorem stepsOf_dec {i : Instr} (h : i ≠ .nop) : (stepsOf (xlen := xlen) i).dec = CoreState.decodeWith (needsOf i) := by
  cases i with
  | nop => exact absurd rfl h
  | _ => rfl

/-- The state after Decode has dispatched `i`. -/
def CoreState.dispatched (i : Instr) (s : CoreState xlen) : CoreState xlen :=
  (s.markAll (destsOf i)).sendToExecute (s.withOperands (needsOf i))

theorem dec_of_canDispatch {i : Instr} {s : CoreState xlen} (hn : i ≠ .nop) (h : s.canDispatch i) :
    (stepsOf i).dec s = s.dispatched i := by
  obtain ⟨hwf, hready⟩ := h
  rw [stepsOf_dec hn, CoreState.decodeWith, if_pos (show (needsOf i).used.all s.inputs.cfg.hasReg = true from hwf),
    if_pos (show (needsOf i).sources.all s.ready = true from hready)]
  rfl

theorem dec_of_not_ready {i : Instr} {s : CoreState xlen} (hn : i ≠ .nop) (hwf : i.wellFormed s.inputs.cfg = true)
    (hready : (sourcesOf i).all s.ready = false) : (stepsOf i).dec s = s.raiseStall := by
  rw [stepsOf_dec hn, CoreState.decodeWith, if_pos (show (needsOf i).used.all s.inputs.cfg.hasReg = true from hwf),
    if_neg (show ¬(needsOf i).sources.all s.ready = true from Bool.eq_false_iff.mp hready)]

theorem decodeStage_of_instr {u : CoreState xlen} {i : Instr} (hst : u.signals.stage = .dec)
    (hlive : u.dLatch.hasInsn = true) (hi : u.dLatch.instr = some i) :
    decodeStage u = .next ⟨_, (stepsOf i).dec u⟩ :=
  (stageWork_of_instr hlive hi).trans (exec_dec i hst)

/-- A dispatch makes pending the destinations and no other register. -/
theorem CoreState.dispatched_sb (i : Instr) (s : CoreState xlen) (r : RegIndex) :
    Bank.get (s.dispatched i).sb r = true ↔ r ∈ destsOf i ∨ Bank.get s.sb r = true := by
  have hsb : Bank.get (s.dispatched i).sb r = (decide (r ∈ destsOf i) || Bank.get s.sb r) := Bank.get_setAll ..
  simp [hsb]

theorem CoreState.dispatched_rs1Value {i : Instr} {r : RegIndex} (h : fill1Of i = some r) (s : CoreState xlen) :
    (s.dispatched i).eLatch.rs1Value = s.operand r := by
  simp [CoreState.dispatched, CoreState.withOperands, needsOf, h]

theorem CoreState.dispatched_rs2Value {i : Instr} {r : RegIndex} (h : (sourcesOf i)[1]? = some r) (s : CoreState xlen) :
    (s.dispatched i).eLatch.rs2Value = s.operand r := by
  simp [CoreState.dispatched, CoreState.withOperands, needsOf, h]

/-- `E` gets the record `D` held. -/
theorem CoreState.dispatched_sameRecord (i : Instr) (s : CoreState xlen) :
    (s.dispatched i).eLatch.SameRecord s.dLatch := ⟨rfl, rfl, rfl, rfl, rfl, rfl⟩

/-- Settles O23: Decode dispatches, and the operands are read where the instruction's row says. -/
theorem dispatchMarksDestinations : Obligations.DispatchMarksDestinations := by
  intro xlen i s hn hst hcan
  refine ⟨s.dispatched i, (exec_dec i hst).trans (by rw [dec_of_canDispatch hn hcan]), s.dispatched_sb i, rfl, rfl, rfl,
    rfl, fun rd rs1 rs2 imm hi => ?both, fun rd rs1 imm hi => ?first, rfl, rfl, rfl, ⟨rfl, rfl⟩, fun _ => rfl, ⟨rfl, rfl⟩,
    ⟨rfl, rfl, rfl⟩, rfl, rfl, rfl⟩
  case both =>
    have hfills : fill1Of i = some rs1 ∧ (sourcesOf i)[1]? = some rs2 := by
      simp only [List.mem_cons, List.not_mem_nil, or_false] at hi
      rcases hi with rfl | rfl | rfl | rfl | rfl | rfl | rfl | rfl | rfl | rfl <;> exact ⟨rfl, rfl⟩
    obtain ⟨h1, h2⟩ := hfills
    exact ⟨CoreState.dispatched_rs1Value h1 s, CoreState.dispatched_rs2Value h2 s⟩
  case first =>
    have hfill : fill1Of i = some rs1 := by
      simp only [List.mem_cons, List.not_mem_nil, or_false] at hi
      rcases hi with rfl | rfl | rfl | rfl | rfl <;> rfl
    exact CoreState.dispatched_rs1Value hfill s

/-- Settles O24: these instructions have no checked source, so none that is not ready. -/
theorem hazardFreeInstructionsAlwaysDispatch : Obligations.HazardFreeInstructionsAlwaysDispatch := by
  intro xlen s rd rs1 imm hst i hi hwf
  have hfree : sourcesOf i = [] ∧ i ≠ .nop := by
    simp only [List.mem_cons, List.not_mem_nil, or_false] at hi
    rcases hi with rfl | rfl | rfl | rfl | rfl | rfl | rfl <;> exact ⟨rfl, nofun⟩
  obtain ⟨hsources, hn⟩ := hfree
  have hcan : s.canDispatch i := ⟨hwf, by rw [hsources]; rfl⟩
  exact ⟨s.dispatched i, (exec_dec i hst).trans (by rw [dec_of_canDispatch hn hcan]), rfl, rfl, rfl, rfl⟩

/-- The NOP has no source. -/
theorem ne_nop_of_mem_sourcesOf {i : Instr} {r : RegIndex} (h : r ∈ sourcesOf i) : i ≠ .nop := by
  rintro rfl
  simp [sourcesOf] at h

/-- Settles O25: one source that is not ready is enough for the stall. -/
theorem unreadySourceStalls : Obligations.UnreadySourceStalls := by
  intro xlen i s r hst hwf hr hbv hsb
  have hready : (sourcesOf i).all s.ready = false :=
    List.all_eq_false.mpr ⟨r, hr, by simp [CoreState.ready, hbv, hsb]⟩
  rw [exec_dec i hst, dec_of_not_ready (ne_nop_of_mem_sourcesOf hr) hwf hready]
  rfl

/-- The four steps of an instruction that can dispatch in `s`. -/
theorem passage_of_canDispatch {i : Instr} {s : CoreState xlen} (hn : i ≠ .nop) (h : s.canDispatch i) :
    Passage i s ((s.atStage .dec).dispatched i) ((stepsOf i).ex (((s.atStage .dec).dispatched i).atStage .ex))
      ((stepsOf i).mem (((stepsOf i).ex (((s.atStage .dec).dispatched i).atStage .ex)).atStage .mem))
      ((stepsOf i).wb (((stepsOf i).mem (((stepsOf i).ex
        (((s.atStage .dec).dispatched i).atStage .ex)).atStage .mem)).atStage .wb)) := by
  obtain ⟨_, rfl, hpassage⟩ := passage_of_dispatch i s (needsOf i) (stepsOf_dec hn) h.1 h.2
  exact hpassage

/-- Settles O20: JUMP has no checked source, so it dispatches; Execute redirects, and Memory and Writeback only pass it on. -/
theorem jumpCompletes : Obligations.JumpCompletes := by
  intro xlen s rs1 imm hreg
  have hcan : s.canDispatch (.jump rs1 imm) := ⟨by simp [Instr.wellFormed, Instr.usedRegs, hreg], rfl⟩
  have htarget : ((s.atStage .dec).dispatched (.jump rs1 imm)).eLatch.rs1Value = s.operand rs1 :=
    CoreState.dispatched_rs1Value rfl _
  refine ⟨_, _, _, _, passage_of_canDispatch nofun hcan, ⟨⟨?_, ?_, ?_, ?_⟩, ?_, ⟨?_, ?_, ?_⟩, ?_, ?_⟩, ⟨?_, ?_⟩, ?pc, ?_⟩
  case pc => simp [stepsOf, htarget, addw_eq]
  all_goals simp [stepsOf, CoreState.dispatched, destsOf, Bank.setAll, KeepsMemory, CoreState.drained]
/-! ## Writeback: the commit, and the end of the run (40_pipeline.md R84 to R87) -/

theorem writebackStage_of_instr {u : CoreState xlen} {i : Instr} (hst : u.signals.stage = .wb)
    (hlive : u.wLatch.hasInsn = true) (hi : u.wLatch.instr = some i) :
    writebackStage u = .next ⟨_, (stepsOf i).wb u⟩ :=
  (stageWork_of_instr hlive hi).trans (exec_wb i hst)

/-- An instruction whose result Execute computes commits it to its one destination. -/
theorem wb_of_executeResult {i : Instr} {l : Latch xlen} {rd : RegIndex} {v : Word xlen}
    (h : executeResult i l = some (rd, v)) : (stepsOf (xlen := xlen) i).wb = CoreState.commitResult rd := by
  cases i with
  | add | sub | mul | and | or | xor | movc | addl | subl =>
    cases h
    rfl
  | div =>
    obtain ⟨_, hsome⟩ := Option.ite_none_left_eq_some.mp h
    cases hsome
    rfl
  | _ => nomatch h

/-- Settles O44: the registers a tick leaves are those that Writeback's step of the instruction in `W` leaves. -/
theorem tickCommitsWritebackLatch : Obligations.TickCommitsWritebackLatch := by
  intro xlen s t i hs h hlive hi
  obtain ⟨⟨a, ha, hregs⟩, _⟩ := onlyWritebackWritesRegisters s t hs h
  cases ha.symm.trans (writebackStage_of_instr rfl hlive hi)
  rw [hregs]
  refine ⟨fun rd l v hv => ?result, ?load, ?ldi, ?sti⟩
  case result =>
    rw [wb_of_executeResult hv]
    exact Bank.get_put_self ..
  case load =>
    rintro rd rs1 imm rfl
    exact Bank.get_put_self ..
  case ldi =>
    rintro rd rs1 imm rfl
    exact ⟨Bank.get_put_self .., fun hne => (Bank.get_put_ne _ _ hne).trans (Bank.get_put_self ..)⟩
  case sti =>
    rintro rs1 rs2 imm rfl
    exact Bank.get_put_self ..

/-- Where Writeback ends the tick, Memory, Execute and Decode do not run. -/
theorem afterDecode_of_writeback_stopped {s a : CoreState xlen} (ha : afterWriteback s = .next ⟨_, a⟩)
    (hstop : a.status ≠ .running) : afterDecode s = .next ⟨_, a⟩ := by
  have hM : afterMemory s = .next ⟨_, a⟩ := andThen_stopped ha hstop
  have hE : afterExecute s = .next ⟨_, a⟩ := andThen_stopped hM hstop
  exact andThen_stopped hE hstop

/-- Where Writeback ends the tick, Fetch and the end of the tick do not run either. -/
theorem step_of_writeback_stopped {s a : CoreState xlen} (hs : s.ticking) (ha : afterWriteback s = .next ⟨_, a⟩)
    (hstop : a.status ≠ .running) : step ⟨_, s⟩ = .next ⟨_, a.restSignals⟩ := by
  have hF : afterFetch s = .next ⟨_, a⟩ := andThen_stopped (afterDecode_of_writeback_stopped ha hstop) hstop
  rw [step_of_ticking hs, andThen_stopped hF hstop]
  rfl

/-- Settles O50: the HALT in `W` stops the tick in Writeback; and it is the youngest live instruction. -/
theorem committedHaltEndsTheTick : Obligations.CommittedHaltEndsTheTick := by
  intro xlen s hs hW
  obtain ⟨hlive, hi⟩ := id hW
  refine ⟨?_, fun hinv => ?_⟩
  · rw [step_of_writeback_stopped hs (writebackStage_of_instr rfl hlive hi) nofun]
    simp only [stepsOf, CoreState.restSignals, CoreState.countTick, CoreState.halt, CoreState.retire, CoreState.atStage,
      Latch.emptied]
  · obtain ⟨hF, _, _, hyoungest⟩ := hinv.halt_youngest (CoreState.running_of_ticking hs)
    obtain ⟨hD, hE, hM⟩ := hyoungest hW
    exact ⟨hD, hE, hM, hF.mpr (.inr (.inr (.inr hW)))⟩

/-! ## The tick up to Execute (40_pipeline.md R75) -/

/-- A commit makes no register pending, and takes no bypass value from a register without also clearing that it is pending: so
no source that is ready becomes unready (40_pipeline.md R85, R98). -/
theorem writebackStage_scoreboard {u v : CoreState xlen} (hst : u.signals.stage = .wb)
    (h : writebackStage u = .next ⟨_, v⟩) (r : RegIndex) :
    (Bank.get v.sb r = true → Bank.get u.sb r = true) ∧ (u.ready r = true → v.ready r = true) := by
  rcases writebackStage_cases hst h with ⟨_, rfl⟩ | ⟨_, rfl⟩ | ⟨_, _, regs, sb, bv, rfl, hbanks⟩
  · exact ⟨id, id⟩
  · exact ⟨id, id⟩
  · obtain ⟨hdest, hother⟩ := hbanks r
    by_cases hr : ∃ i, u.wLatch.instr = some i ∧ r ∈ destsOf i
    · simp [CoreState.ready, hdest hr]
    · obtain ⟨hsb, _, hbv⟩ := hother fun i hi hmem => hr ⟨i, hi, hmem⟩
      simp [CoreState.ready, hsb, hbv]

/-- The tick from `s` has gone through Writeback and Memory and left `b`: what Execute and Decode read is as the tick found it,
but for registers that are no longer pending. -/
structure CoreState.GoesOn (s b : CoreState xlen) : Prop where
  running : b.status = .running
  inputs : b.inputs = s.inputs
  clock : b.clock = s.clock
  flags : KeepsFlags s b
  dLatch : b.dLatch = s.dLatch
  eLatch : b.eLatch = s.eLatch
  stall : b.signals.stall = false
  redirect : b.signals.redirect = false
  pending : ∀ r, Bank.get b.sb r = true → Bank.get s.sb r = true
  ready : ∀ r, s.ready r = true → b.ready r = true

/-- Where Writeback commits no HALT and Memory accesses no invalid address, the tick goes on. -/
theorem afterMemory_goesOn {s : CoreState xlen} (hs : s.ticking) (hW : s.NoHaltCommit) (hM : s.NoMemoryFault) :
    ∃ b : CoreState xlen, afterMemory s = .next ⟨_, b⟩ ∧ s.GoesOn b := by
  obtain ⟨a, ha⟩ := afterWriteback_answers_next s
  have hboard := writebackStage_scoreboard rfl ha
  obtain ⟨-, hz, hp, -, -, -, hD, hE, hmem, hin, hsig, -, -, hend⟩ := writebackStage_frame rfl ha
  obtain ⟨hstatus, hclock, -⟩ := hend.resolve_right fun ⟨_, _, hhalt⟩ => hW hhalt
  have harun : a.status = .running := hstatus.trans (CoreState.running_of_ticking hs)
  obtain ⟨b, hb⟩ := afterMemory_answers_next s
  have hb' : memoryStage (a.atStage .mem) = .next ⟨_, b⟩ := (andThen_running ha harun).symm.trans hb
  obtain ⟨-, hsb', hbv', -, hz', hp', -, -, hD', hE', hin', hsig', hclock', -, -⟩ := memoryStage_frame rfl hb'
  have hbrun : b.status = .running := by
    rcases memoryStage_cases rfl hb' with ⟨_, rfl⟩ | ⟨hlive, hi, hbad, _⟩ | ⟨_, _, ⟨_, rfl⟩ | ⟨_, rfl⟩⟩
    · exact harun
    · rw [CoreState.atStage_mLatch, hmem] at hlive hi hbad
      have hvalid := (CoreState.validAddress_congr (s := s) (a := a.atStage .mem) hin _).trans (hM hlive hi)
      nomatch hbad.symm.trans hvalid
    · exact harun
    · exact harun
  refine ⟨b, hb, hbrun, hin'.trans hin, hclock'.trans hclock, ⟨hz'.trans hz, hp'.trans hp⟩, hD'.trans hD, hE'.trans hE,
    by rw [hsig']; exact congrArg Signals.stall hsig, by rw [hsig']; exact congrArg Signals.redirect hsig,
    fun r hr => (hboard r).1 (hsb' ▸ hr), fun r hr => ?_⟩
  have hready : a.ready r = true := (hboard r).2 hr
  rwa [CoreState.ready, hsb', hbv']

/-- A tick from a running state answers a next state. -/
theorem step_answers_next {s : CoreState xlen} (hs : s.ticking) : ∃ t : CoreState xlen, step ⟨_, s⟩ = .next ⟨_, t⟩ := by
  obtain ⟨f, hf⟩ := tick_answers_next s
  exact ⟨f.restSignals, by rw [step_of_ticking hs, hf]; rfl⟩

/-! ## A taken branch or jump in Execute (40_pipeline.md R92 to R96, R112) -/

/-- The Execute step of a taken branch or jump: the redirect, and on to `M`. -/
theorem ex_of_takenTarget {u : CoreState xlen} {i : Instr} {target : Word xlen}
    (h : takenTarget u i u.eLatch = some target) : (stepsOf i).ex u = (u.redirect target).sendToMemory u.eLatch := by
  cases i with
  | jump =>
    cases h
    rfl
  | bz | bp =>
    obtain ⟨hflag, htarget⟩ := Option.ite_none_right_eq_some.mp h
    cases htarget
    simp [stepsOf, condBranch, hflag]
  | bnz | bnp =>
    obtain ⟨hflag, htarget⟩ := Option.ite_none_left_eq_some.mp h
    cases htarget
    simp [stepsOf, condBranch, hflag]
  | _ => nomatch h

/-- The tick from `s` has gone through Execute, which took a branch or jump to `target`, and left `c`. -/
structure CoreState.TakesBranch (target : Word xlen) (s c : CoreState xlen) : Prop where
  running : c.status = .running
  clock : c.clock = s.clock
  flags : KeepsFlags s c
  pc : c.pc = target
  fEnabled : c.fLatch.hasInsn = true
  dEmpty : c.dLatch.hasInsn = false
  eEmpty : c.eLatch.hasInsn = false
  mLatch : c.mLatch = s.eLatch
  redirect : c.signals.redirect = true
  pending : ∀ r, Bank.get c.sb r = true → Bank.get s.sb r = true

theorem afterExecute_takesBranch {s : CoreState xlen} {i : Instr} {target : Word xlen} (hs : s.ticking)
    (hW : s.NoHaltCommit) (hM : s.NoMemoryFault) (hlive : s.eLatch.hasInsn = true) (hi : s.eLatch.instr = some i)
    (htaken : takenTarget s i s.eLatch = some target) :
    ∃ c : CoreState xlen, afterExecute s = .next ⟨_, c⟩ ∧ s.TakesBranch target c := by
  obtain ⟨b, hb, hgo⟩ := afterMemory_goesOn hs hW hM
  have htaken' : takenTarget (b.atStage .ex) i (b.atStage .ex).eLatch = some target := by
    rw [takenTarget_congr (u := b.atStage .ex) hgo.flags, CoreState.atStage_eLatch, hgo.eLatch, htaken]
  refine ⟨_, (andThen_running hb hgo.running).trans
    (executeStage_of_instr (i := i) rfl (by simp [hgo.eLatch, hlive]) (by simp [hgo.eLatch, hi])), ?_⟩
  rw [ex_of_takenTarget htaken']
  have hmoved : b.eLatch.filled = s.eLatch := by rw [hgo.eLatch, Latch.filled, ← hlive]
  exact ⟨hgo.running, hgo.clock, hgo.flags, rfl, rfl, rfl, rfl, hmoved, rfl, hgo.pending⟩

/-- Settles O48: Execute redirects, which empties `D` before Decode runs and puts Fetch in its bubble. -/
theorem takenBranchFlushesDecode : Obligations.TakenBranchFlushesDecode := by
  intro xlen s i target hs hW hM hlive hi htaken
  obtain ⟨c, hE, hc⟩ := afterExecute_takesBranch hs hW hM hlive hi htaken
  have hD : afterDecode s = .next ⟨_, c.atStage .dec⟩ :=
    (andThen_running hE hc.running).trans (stageWork_of_empty hc.dEmpty)
  have hF : afterFetch s = .next ⟨_, c.atStage .fetch⟩ :=
    (andThen_running hD hc.running).trans (fetchUnit_of_redirect hc.redirect)
  have hMlive : c.mLatch.hasInsn = true := by rw [hc.mLatch, hlive]
  have hstep : step ⟨_, s⟩ = .next ⟨_, (c.atStage .fetch).countTick.restSignals⟩ := by
    rw [step_of_ticking hs, andThen_running hF hc.running, endOfTick_of_live (by simp [CoreState.drained, hMlive])]
    rfl
  exact ⟨_, hstep, hc.pc, hc.dEmpty, hc.fEnabled, hc.eEmpty, hc.mLatch, hc.running, congrArg (· + 1) hc.clock, hc.flags,
    hc.pending⟩

/-! ## Forwarding from Execute to Decode (40_pipeline.md R77, R90, R98) -/

/-- The Execute step of an instruction with an Execute-produced value writes that value to the bypass table. -/
theorem ex_of_executeProduces {u : CoreState xlen} {i : Instr} {r : RegIndex} {v : Word xlen}
    (h : executeProduces u.inputs.cfg i u.eLatch = some (r, v)) :
    ∃ l z p, (stepsOf i).ex u = { (u.writeBypass r v).sendToMemory l with zeroFlag := z, positiveFlag := p } := by
  cases i with
  | add | sub | mul | and | or | xor | movc | addl | subl | ldi | sti =>
    cases h
    exact ⟨_, _, _, rfl⟩
  | div =>
    obtain ⟨hne, hsome⟩ := Option.ite_none_left_eq_some.mp h
    cases hsome
    exact ⟨_, _, _, if_neg hne⟩
  | _ => nomatch h

theorem fill1Of_of_source {i : Instr} {r : RegIndex} (h : (sourcesOf i)[0]? = some r) : fill1Of i = some r := by
  cases i with
  | jump => nomatch h
  | _ => exact h

theorem stallSignal_of_afterDecode {s d : CoreState xlen} (h : afterDecode s = .next ⟨_, d⟩) :
    stallSignal s = d.signals.stall := by simp [stallSignal, h]

/-- Fetch and the end of the tick leave the latches past `D` and the scoreboard as Decode does. -/
theorem step_past_decode {s d t : CoreState xlen} (hs : s.ticking) (hd : afterDecode s = .next ⟨_, d⟩)
    (h : step ⟨_, s⟩ = .next ⟨_, t⟩) :
    t.sb = d.sb ∧ t.eLatch = d.eLatch ∧ t.mLatch = d.mLatch ∧ t.wLatch = d.wLatch := by
  rw [step_of_ticking hs] at h
  obtain ⟨f, hf, rfl⟩ := restAfter_eq_next h
  obtain ⟨e, he, hend⟩ := andThen_cases (afterFetch_answers_next s) hf
  obtain ⟨d', hd', hfetch⟩ := andThen_cases (afterDecode_answers_next s) he
  cases hd.symm.trans hd'
  have hlast : f.sb = e.sb ∧ f.eLatch = e.eLatch ∧ f.mLatch = e.mLatch ∧ f.wLatch = e.wLatch := by
    rcases hend with ⟨_, rfl⟩ | ⟨_, hend⟩
    · exact ⟨rfl, rfl, rfl, rfl⟩
    · rcases endOfTick_frame hend with rfl | rfl <;> exact ⟨rfl, rfl, rfl, rfl⟩
  have hkept : e.sb = d.sb ∧ e.eLatch = d.eLatch ∧ e.mLatch = d.mLatch ∧ e.wLatch = d.wLatch := by
    rcases hfetch with ⟨_, rfl⟩ | ⟨_, hfetch⟩
    · exact ⟨rfl, rfl, rfl, rfl⟩
    · obtain ⟨-, hsb, -, -, -, -, -, hW, hM, hE, -⟩ := fetchUnit_frame rfl hfetch
      exact ⟨hsb, hE, hM, hW⟩
  obtain ⟨h1, h2, h3, h4⟩ := hlast
  obtain ⟨k1, k2, k3, k4⟩ := hkept
  exact ⟨h1.trans k1, h2.trans k2, h3.trans k3, h4.trans k4⟩

/-- The tick from `s` has gone through Execute and left `c`, with the value `v` for register `r` in the bypass table: Decode
reads it there, and finds every other register at least as ready as the tick did. -/
structure CoreState.Forwards (r : RegIndex) (v : Word xlen) (s c : CoreState xlen) : Prop where
  running : c.status = .running
  inputs : c.inputs = s.inputs
  dLatch : c.dLatch = s.dLatch
  stall : c.signals.stall = false
  operand : c.operand r = v
  ready_self : c.ready r = true
  ready : ∀ q, s.ready q = true → c.ready q = true

theorem afterExecute_forwards {s : CoreState xlen} {i : Instr} {r : RegIndex} {v : Word xlen} (hs : s.ticking)
    (hW : s.NoHaltCommit) (hM : s.NoMemoryFault) (hlive : s.eLatch.hasInsn = true) (hi : s.eLatch.instr = some i)
    (hv : executeProduces s.inputs.cfg i s.eLatch = some (r, v)) :
    ∃ c : CoreState xlen, afterExecute s = .next ⟨_, c⟩ ∧ s.Forwards r v c := by
  obtain ⟨b, hb, hgo⟩ := afterMemory_goesOn hs hW hM
  have hv' : executeProduces (b.atStage .ex).inputs.cfg i (b.atStage .ex).eLatch = some (r, v) := by
    rw [CoreState.atStage_inputs, CoreState.atStage_eLatch, hgo.inputs, hgo.eLatch, hv]
  obtain ⟨l, z, p, hex⟩ := ex_of_executeProduces hv'
  refine ⟨_, (andThen_running hb hgo.running).trans
    (executeStage_of_instr (i := i) rfl (by simp [hgo.eLatch, hlive]) (by simp [hgo.eLatch, hi])), ?_⟩
  rw [hex]
  refine ⟨hgo.running, hgo.inputs, hgo.dLatch, hgo.stall, by simp [CoreState.operand], by simp [CoreState.ready],
    fun q hq => ?_⟩
  by_cases hqr : q = r
  · simp [hqr, CoreState.ready]
  · simpa [hqr, CoreState.ready] using hgo.ready q hq

/-- Settles O49: Execute writes the bypass entry before Decode reads it, so the source is ready and its operand is the value. -/
theorem executedValueIsForwardedInTheSameTick : Obligations.ExecutedValueIsForwardedInTheSameTick := by
  intro xlen s i j r v hs hW hM hElive hEi hv hDlive hDj hwf hr hothers
  obtain ⟨c, hE, hc⟩ := afterExecute_forwards hs hW hM hElive hEi hv
  have hready : ∀ q ∈ sourcesOf j, c.ready q = true := fun q hq =>
    (hothers q hq).elim (fun hqr => hqr ▸ hc.ready_self) (hc.ready q)
  have hcan : (c.atStage .dec).canDispatch j :=
    ⟨by rw [CoreState.atStage_inputs, hc.inputs, hwf], List.all_eq_true.mpr hready⟩
  have hD : afterDecode s = .next ⟨_, (c.atStage .dec).dispatched j⟩ := by
    rw [afterDecode, andThen_running hE hc.running,
      decodeStage_of_instr (i := j) rfl (by simp [hc.dLatch, hDlive]) (by simp [hc.dLatch, hDj]),
      dec_of_canDispatch (ne_nop_of_mem_sourcesOf hr) hcan]
  have hrec := CoreState.dispatched_sameRecord j (c.atStage .dec)
  obtain ⟨t, ht⟩ := step_answers_next hs
  obtain ⟨-, hlatch, -, -⟩ := step_past_decode hs hD ht
  refine ⟨(stallSignal_of_afterDecode hD).trans hc.stall, t, ht, ?_⟩
  rw [hlatch]
  refine ⟨rfl, hrec.instr.trans ?_, hrec.pc.trans ?_, fun h1 => ?_, fun h2 => ?_⟩
  · rw [CoreState.atStage_dLatch, hc.dLatch, hDj]
  · rw [CoreState.atStage_dLatch, hc.dLatch]
  · exact (CoreState.dispatched_rs1Value (fill1Of_of_source h1) _).trans hc.operand
  · exact (CoreState.dispatched_rs2Value h2 _).trans hc.operand

/-! ## How long a stall lasts (40_pipeline.md R107, R123) -/

/-- Decode has stalled in the tick from `s` and left `e`: a register is pending, `E` is empty, and what `M` and `W` hold came
from `E` and `M`. -/
structure CoreState.Stalled (s e : CoreState xlen) : Prop where
  pending : ∃ r, Bank.get e.sb r = true
  eEmpty : e.eLatch.hasInsn = false
  fromE : e.mLatch.hasInsn = true → s.eLatch.hasInsn = true
  fromM : e.wLatch.hasInsn = true → s.mLatch.hasInsn = true

/-- The tick from `s` up to a stage, as far as the stall signal and the latches past `D` go: no stage before Decode stalls. -/
def CoreState.StallIn (s : CoreState xlen) (st : Stage) (e : CoreState xlen) : Prop :=
  match st with
  | .wb => e.signals.stall = false ∧ e.eLatch = s.eLatch ∧ e.mLatch = s.mLatch ∧ e.wLatch.hasInsn = false
  | .mem => e.signals.stall = false ∧ e.eLatch = s.eLatch ∧ (e.status = .running → e.mLatch.hasInsn = false) ∧
      (e.wLatch.hasInsn = true → s.mLatch.hasInsn = true)
  | .ex => e.signals.stall = false ∧ (e.status = .running → e.eLatch.hasInsn = false) ∧
      (e.mLatch.hasInsn = true → s.eLatch.hasInsn = true) ∧ (e.wLatch.hasInsn = true → s.mLatch.hasInsn = true)
  | .dec | .fetch => e.signals.stall = true → s.Stalled e

theorem writebackStage_stallIn {s v : CoreState xlen} (h : writebackStage (s.restSignals.atStage .wb) = .next ⟨_, v⟩) :
    s.StallIn .wb v := by
  obtain ⟨-, -, -, -, -, -, -, hE, hM, -, hsig, -, hempty, -⟩ := writebackStage_frame rfl h
  exact ⟨congrArg Signals.stall hsig, hE, hM, hempty⟩

theorem memoryStage_stallIn {s u v : CoreState xlen} (hu : s.StallIn .wb u)
    (h : memoryStage (u.atStage .mem) = .next ⟨_, v⟩) : s.StallIn .mem v := by
  obtain ⟨hstall, hE, hM, hW⟩ := hu
  obtain ⟨-, -, -, -, -, -, -, -, -, hE', -, hsig, -, -, hstatus⟩ := memoryStage_frame rfl h
  refine ⟨(congrArg Signals.stall hsig).trans hstall, hE'.trans hE, fun hrun => ?_, fun hlive => ?_⟩
  · exact hstatus.elim And.right fun hfault => by simp [hfault] at hrun
  · rcases memoryStage_cases rfl h with ⟨_, rfl⟩ | ⟨_, _, _, rfl⟩ | ⟨hMlive, _⟩
    · exact absurd hlive (by simp [hW])
    · exact absurd hlive (by simp [hW])
    · rwa [CoreState.atStage_mLatch, hM] at hMlive

theorem executeStage_stallIn {s u v : CoreState xlen} (hu : s.StallIn .mem u) (hrun : u.status = .running)
    (h : executeStage (u.atStage .ex) = .next ⟨_, v⟩) : s.StallIn .ex v := by
  obtain ⟨hstall, hE, hM, hW⟩ := hu
  obtain ⟨-, -, -, hW', -, -, -, hstall', -, hstatus⟩ := executeStage_frame rfl h
  refine ⟨hstall'.trans hstall, fun hgoes => ?_, fun hlive => ?_, fun hlive => hW (hW' ▸ hlive)⟩
  · exact hstatus.elim And.right fun hfault => by simp [hfault] at hgoes
  · rcases executeStage_cases rfl h with ⟨_, rfl⟩ | ⟨hElive, _⟩ | ⟨hElive, _⟩ | ⟨hElive, _⟩
    · exact absurd hlive (by simp [hM hrun])
    all_goals rwa [CoreState.atStage_eLatch, hE] at hElive

/-- Decode stalls only on a source that is pending. -/
theorem decodeStage_stallIn {s u v : CoreState xlen} (hu : s.StallIn .ex u) (hrun : u.status = .running)
    (h : decodeStage (u.atStage .dec) = .next ⟨_, v⟩) : s.StallIn .dec v := by
  obtain ⟨hno, hE, hM, hW⟩ := hu
  intro hstall
  rcases decodeStage_cases rfl h with
    ⟨_, rfl⟩ | ⟨_, _, rfl⟩ | ⟨_, _, rfl⟩ | ⟨_, i, _, _, ⟨_, rfl⟩ | ⟨_, hready, rfl⟩ | ⟨_, l, _, rfl⟩⟩
  · simp [hno] at hstall
  · simp [hno] at hstall
  · simp [hno] at hstall
  · simp [hno] at hstall
  · obtain ⟨r, _, hr⟩ := List.all_eq_false.mp hready
    obtain ⟨_, hpending⟩ : Bank.get u.bv r = false ∧ Bank.get u.sb r = true := by simpa [CoreState.ready] using hr
    exact ⟨⟨r, hpending⟩, hE hrun, hM, hW⟩
  · simp [hno] at hstall

/-- Of the state Decode leaves, a stall speaks of the scoreboard and the latches past `D` only. -/
theorem CoreState.Stalled.congr {s d e : CoreState xlen} (h : s.Stalled d) (hsb : e.sb = d.sb)
    (hE : e.eLatch = d.eLatch) (hM : e.mLatch = d.mLatch) (hW : e.wLatch = d.wLatch) : s.Stalled e where
  pending := hsb ▸ h.pending
  eEmpty := hE ▸ h.eEmpty
  fromE := hM ▸ h.fromE
  fromM := hW ▸ h.fromM

theorem fetchUnit_stallIn {s u v : CoreState xlen} (hu : s.StallIn .dec u)
    (h : fetchUnit (u.atStage .fetch) = .next ⟨_, v⟩) : s.StallIn .fetch v := by
  obtain ⟨-, hsb, -, -, -, -, -, hW, hM, hE, -, -, -, hsig, -⟩ := fetchUnit_frame rfl h
  intro hstall
  rw [hsig] at hstall
  exact (hu hstall).congr hsb hE hM hW

/-- A property that each stage hands on to the next, or that holds where the tick stopped, goes on so. -/
theorem andThen_rule {P : Stage → CoreState xlen → Prop} {before after : Stage} {r : Result}
    {k : ∀ {xlen : Nat}, CoreState xlen → Result} (hr : ∃ u : CoreState xlen, r = .next ⟨_, u⟩)
    (hu : ∀ u : CoreState xlen, r = .next ⟨_, u⟩ → (u.status = .running → P before u) ∧ ∃ st, P st u)
    (hk : ∀ u v : CoreState xlen, P before u → u.status = .running → k u = .next ⟨_, v⟩ → P after v)
    (v : CoreState xlen) (h : andThen r k = .next ⟨_, v⟩) : (v.status = .running → P after v) ∧ ∃ st, P st v := by
  obtain ⟨u, hru, ⟨hstop, rfl⟩ | ⟨hrun, hkv⟩⟩ := andThen_cases hr h
  · exact ⟨fun hrun => absurd hrun hstop, (hu _ hru).2⟩
  · have hv : P after v := hk u v ((hu u hru).1 hrun) hrun hkv
    exact ⟨fun _ => hv, after, hv⟩

/-- The rule of the tick up to Decode: what Decode leaves has what the last stage that ran leaves. -/
theorem afterDecode_rule {P : Stage → CoreState xlen → Prop} {s d : CoreState xlen} (hP : StagesLeave P s)
    (h : afterDecode s = .next ⟨_, d⟩) : ∃ st, P st d := by
  have hwb : ∀ u, afterWriteback s = .next ⟨_, u⟩ → (u.status = .running → P .wb u) ∧ ∃ st, P st u :=
    fun u hu => ⟨fun _ => hP.wb u hu, .wb, hP.wb u hu⟩
  have hmem := andThen_rule (k := fun t => memoryStage (t.atStage .mem)) (afterWriteback_answers_next s) hwb hP.mem
  have hex := andThen_rule (k := fun t => executeStage (t.atStage .ex)) (afterMemory_answers_next s) hmem hP.ex
  obtain ⟨_, hleft⟩ :=
    andThen_rule (k := fun t => decodeStage (t.atStage .dec)) (afterExecute_answers_next s) hex hP.dec d h
  exact hleft

/-- A tick whose stall signal is raised ends as Decode's stall leaves it. -/
theorem stalled_of_stallSignal {s t : CoreState xlen} (hs : s.ticking) (hstall : stallSignal s = true)
    (h : step ⟨_, s⟩ = .next ⟨_, t⟩) : s.Stalled t := by
  obtain ⟨d, hd⟩ := afterDecode_answers_next s
  have hraised : d.signals.stall = true := (stallSignal_of_afterDecode hd).symm.trans hstall
  obtain ⟨st, hst⟩ := afterDecode_rule (P := s.StallIn)
    ⟨fun _ => writebackStage_stallIn, fun _ _ hu _ => memoryStage_stallIn hu, fun _ _ => executeStage_stallIn,
      fun _ _ => decodeStage_stallIn, fun _ _ hu _ => fetchUnit_stallIn hu⟩ hd
  have hdecode : s.Stalled d := by
    cases st with
    | wb | mem | ex => exact absurd hraised (by simp [hst.1])
    | dec | fetch => exact hst hraised
  obtain ⟨hsb, hE, hM, hW⟩ := step_past_decode hs hd h
  exact hdecode.congr hsb hE hM hW

/-- In a stall, `M` or `W` holds the writer of the pending register, so the tick began with an instruction in `E` or `M`
(40_pipeline.md R123). -/
theorem CoreState.Stalled.older_live {s t : CoreState xlen} (h : s.Stalled t) (hinv : t.Inv) :
    s.eLatch.hasInsn = true ∨ s.mLatch.hasInsn = true := by
  obtain ⟨r, hr⟩ := h.pending
  rcases hinv.scoreboard r hr with ⟨hE, _⟩ | ⟨hM, _⟩ | ⟨hW, _⟩
  · exact absurd hE (by simp [h.eEmpty])
  · exact .inl (h.fromE hM)
  · exact .inr (h.fromM hW)

/-- In a terminal status no stage but Writeback is looked at, and Writeback does not stall. -/
theorem running_of_stallSignal {s : CoreState xlen} (h : stallSignal s = true) : s.status = .running := by
  by_contra hterminal
  obtain ⟨a, ha⟩ := afterWriteback_answers_next s
  obtain ⟨-, -, -, -, -, -, -, -, -, -, hsig, -, -, hstatus⟩ := writebackStage_frame rfl ha
  have hstop : a.status ≠ .running := by
    rcases hstatus with ⟨hkept, _⟩ | ⟨hhalt, _⟩
    · exact fun hrun => hterminal (hkept.symm.trans hrun)
    · simp [hhalt]
  have hquiet : stallSignal s = false :=
    (stallSignal_of_afterDecode (afterDecode_of_writeback_stopped ha hstop)).trans (congrArg Signals.stall hsig)
  simp [hquiet] at h

/-- After a tick that leaves the core running the next edge is a tick again. -/
theorem CoreState.ticking_next {s t : CoreState xlen} (hs : s.ticking) (h : step ⟨_, s⟩ = .next ⟨_, t⟩)
    (hrun : t.status = .running) : t.ticking := by
  have hin : t.inputs = s.inputs := stepNeverChangesInputs.2 s t h
  obtain ⟨hcore, hrst, hen, _⟩ := hs
  exact ⟨by rwa [CoreState.validCore, hin], by rw [hin, hrst], by rw [hin, hen], hrun⟩

/-- Settles O58: the first stall leaves `E` empty, so the second leaves `M` empty too, and a third would need an instruction in
one of them. -/
theorem stallLastsAtMostTwoTicks : Obligations.StallLastsAtMostTwoTicks := by
  intro xlen s t u hinv hs hstall h hstall' h'
  have ht : t.ticking := s.ticking_next hs h (running_of_stallSignal hstall')
  have hfirst : s.Stalled t := stalled_of_stallSignal hs hstall h
  have hsecond : t.Stalled u := stalled_of_stallSignal ht hstall' h'
  have huinv : u.Inv := stepKeepsInvariant t u (stepKeepsInvariant s t hinv h) h'
  by_contra hthird
  have hstall'' : stallSignal u = true := Bool.eq_true_of_not_eq_false hthird
  have hu : u.ticking := t.ticking_next ht h' (running_of_stallSignal hstall'')
  obtain ⟨v, hv⟩ := step_answers_next hu
  rcases (stalled_of_stallSignal hu hstall'' hv).older_live (stepKeepsInvariant u v huinv hv) with hE | hM
  · exact absurd hE (by simp [hsecond.eEmpty])
  · exact absurd (hsecond.fromE hM) (by simp [hfirst.eEmpty])

/-! ## An instruction alone in the pipeline (40_pipeline.md R117, R124) -/

/-- The instructions that go straight through the stages: all but NOP, which Decode drops, HALT, which ends the run, and the
branches and JUMP, which may redirect it. -/
def isStraight : Instr → Bool
  | .nop | .halt | .bz _ | .bnz _ | .bp _ | .bnp _ | .jump _ _ => false
  | _ => true

/-- The same state at another time: another `clock`, other signals. -/
def CoreState.retimed (n : Nat) (g : Signals) (s : CoreState xlen) : CoreState xlen := { s with clock := n, signals := g }

/-! ### The stage steps of a straight instruction neither read nor write the time -/

theorem fetch_of_isStraight {i : Instr} (hi : isStraight i = true) :
    (stepsOf (xlen := xlen) i).fetch = CoreState.deliver := by
  cases i with
  | halt => nomatch hi
  | _ => rfl

theorem dispatched_retimed (i : Instr) (n : Nat) (g : Signals) (s : CoreState xlen) :
    (s.retimed n g).dispatched i = (s.dispatched i).retimed n g := rfl

theorem ex_retimed {i : Instr} (hi : isStraight i = true) (n : Nat) (g : Signals) (s : CoreState xlen) :
    (stepsOf i).ex (s.retimed n g) = ((stepsOf i).ex s).retimed n g := by
  cases i with
  | nop | halt | bz | bnz | bp | bnp | jump => nomatch hi
  | div =>
    simp only [stepsOf, apply_ite (CoreState.retimed n g)]
    rfl
  | _ => rfl

theorem loadWord_retimed (n : Nat) (g : Signals) (s : CoreState xlen) :
    (s.retimed n g).loadWord = s.loadWord.retimed n g := by
  rcases s.loadWord_cases with ⟨hvalid, hword⟩ | ⟨hvalid, hword⟩ <;>
    rcases (s.retimed n g).loadWord_cases with ⟨hvalid', hword'⟩ | ⟨hvalid', hword'⟩
  · exact hword'.trans (congrArg (CoreState.retimed n g) hword).symm
  · exact nomatch hvalid'.symm.trans hvalid
  · exact nomatch hvalid'.symm.trans hvalid
  · exact hword'.trans (congrArg (CoreState.retimed n g) hword).symm

theorem storeWord_retimed (n : Nat) (g : Signals) (s : CoreState xlen) :
    (s.retimed n g).storeWord = s.storeWord.retimed n g := by
  rcases s.storeWord_cases with ⟨hvalid, hword⟩ | ⟨hvalid, hword⟩ <;>
    rcases (s.retimed n g).storeWord_cases with ⟨hvalid', hword'⟩ | ⟨hvalid', hword'⟩
  · exact hword'.trans (congrArg (CoreState.retimed n g) hword).symm
  · exact nomatch hvalid'.symm.trans hvalid
  · exact nomatch hvalid'.symm.trans hvalid
  · exact hword'.trans (congrArg (CoreState.retimed n g) hword).symm

theorem mem_retimed (i : Instr) (n : Nat) (g : Signals) (s : CoreState xlen) :
    (stepsOf i).mem (s.retimed n g) = ((stepsOf i).mem s).retimed n g := by
  cases i with
  | load | ldi => exact loadWord_retimed n g s
  | store | sti => exact storeWord_retimed n g s
  | _ => rfl

theorem wb_retimed {i : Instr} (hi : isStraight i = true) (n : Nat) (g : Signals) (s : CoreState xlen) :
    (stepsOf i).wb (s.retimed n g) = ((stepsOf i).wb s).retimed n g := by
  cases i with
  | halt => nomatch hi
  | _ => rfl

theorem running_of_ex {i : Instr} (hi : isStraight i = true) {s : CoreState xlen}
    (h : ((stepsOf i).ex s).status = .running) : s.status = .running := by
  cases i with
  | nop | halt | bz | bnz | bp | bnp | jump => nomatch hi
  | div =>
    simp only [stepsOf] at h
    split at h
    · nomatch h
    · exact h
  | _ => exact h

theorem running_of_mem {i : Instr} {s : CoreState xlen} (h : ((stepsOf i).mem s).status = .running) :
    s.status = .running := by
  cases i with
  | load | ldi =>
    simp only [stepsOf] at h
    rcases s.loadWord_cases with ⟨_, hword⟩ | ⟨_, hword⟩ <;> rw [hword] at h
    exacts [h, nomatch h]
  | store | sti =>
    simp only [stepsOf] at h
    rcases s.storeWord_cases with ⟨_, hword⟩ | ⟨_, hword⟩ <;> rw [hword] at h
    exacts [h, nomatch h]
  | _ => exact h

theorem wb_status {i : Instr} (hi : isStraight i = true) (s : CoreState xlen) :
    ((stepsOf i).wb s).status = s.status := by
  cases i with
  | halt => nomatch hi
  | _ => rfl

/-! ### The tick of an instruction alone, past the end of the code -/

/-- The latch that holds the instruction whose turn the stage is. -/
def CoreState.latchOf (s : CoreState xlen) : Stage → Latch xlen
  | .wb => s.wLatch
  | .mem => s.mLatch
  | .ex => s.eLatch
  | .dec => s.dLatch
  | .fetch => s.fLatch

/-- Nothing is in flight when the latches of the four stages past Fetch are empty. -/
theorem CoreState.drained_iff {s : CoreState xlen} :
    s.drained = true ↔ ∀ x, x ≠ .fetch → (s.latchOf x).hasInsn = false := by
  simp only [CoreState.drained, Bool.and_eq_true, Bool.not_eq_true', and_assoc]
  refine ⟨fun ⟨hD, hE, hM, hW⟩ x hx => ?_, fun h => ⟨h .dec nofun, h .ex nofun, h .mem nofun, h .wb nofun⟩⟩
  cases x with
  | fetch => exact absurd rfl hx
  | dec => exact hD
  | ex => exact hE
  | mem => exact hM
  | wb => exact hW

/-- `i` is the one instruction in flight, its turn is at stage `st`, and Fetch is past the code. -/
structure CoreState.AloneIn (st : Stage) (i : Instr) (s : CoreState xlen) : Prop where
  ticking : s.ticking
  exhausted : s.fetchClass = .exhausted
  live : (s.latchOf st).hasInsn = true
  holds : (s.latchOf st).instr = some i
  empty : ∀ x, x ≠ .fetch → x ≠ st → (s.latchOf x).hasInsn = false

/-- The signals while stage `st` runs in a tick without a stall or a redirect. -/
def Signals.during (st : Stage) : Signals := { Signals.rest with stage := st }

section
variable {s v : CoreState xlen} {i : Instr} {st : Stage}

theorem CoreState.AloneIn.running (h : s.AloneIn st i) : s.status = .running := CoreState.running_of_ticking h.ticking

/-- The time plays no part in it. -/
theorem CoreState.AloneIn.retimed (h : s.AloneIn st i) (n : Nat) (g : Signals) : (s.retimed n g).AloneIn st i := by
  have hlatch : ∀ x, (s.retimed n g).latchOf x = s.latchOf x := fun x => by cases x <;> rfl
  exact ⟨h.ticking, h.exhausted, hlatch st ▸ h.live, hlatch st ▸ h.holds, fun x hx hne => hlatch x ▸ h.empty x hx hne⟩

theorem CoreState.AloneIn.afterWriteback_idle (h : s.AloneIn st i) (hwb : st ≠ .wb) :
    afterWriteback s = .next ⟨_, s.restSignals.atStage .wb⟩ :=
  stageWork_of_empty (h.empty .wb nofun hwb.symm)

theorem CoreState.AloneIn.afterMemory_idle (h : s.AloneIn st i) (hwb : st ≠ .wb) (hmem : st ≠ .mem) :
    afterMemory s = .next ⟨_, s.restSignals.atStage .mem⟩ :=
  (andThen_running (h.afterWriteback_idle hwb) h.running).trans (stageWork_of_empty (h.empty .mem nofun hmem.symm))

theorem CoreState.AloneIn.afterExecute_idle (h : s.AloneIn .dec i) :
    afterExecute s = .next ⟨_, s.restSignals.atStage .ex⟩ :=
  (andThen_running (h.afterMemory_idle nofun nofun) h.running).trans (stageWork_of_empty (h.empty .ex nofun nofun))

/-- With nothing in `E` and `D`, Execute and Decode leave the state to the next stage. -/
theorem afterDecode_of_afterMemory (hM : afterMemory s = .next ⟨_, v⟩) (hrun : v.status = .running)
    (hE : v.eLatch.hasInsn = false) (hD : v.dLatch.hasInsn = false) : afterDecode s = .next ⟨_, v.atStage .dec⟩ := by
  have hex : afterExecute s = .next ⟨_, v.atStage .ex⟩ := (andThen_running hM hrun).trans (stageWork_of_empty hE)
  exact (andThen_running hex hrun).trans (stageWork_of_empty hD)

/-- With Fetch past the code, a tick that goes on through Decode is its end. -/
theorem step_of_fetch_exhausted (hs : s.ticking) (hd : afterDecode s = .next ⟨_, v⟩) (hrun : v.status = .running)
    (hex : v.fetchClass = .exhausted) : step ⟨_, s⟩ = restAfter (endOfTick (v.atStage .fetch)) := by
  have hfetch : afterFetch s = .next ⟨_, v.atStage .fetch⟩ :=
    (andThen_running hd hrun).trans (fetchUnit_of_exhausted hex)
  rw [step_of_ticking hs, andThen_running hfetch hrun]

/-- The instruction goes on to its next stage, and the tick counts. -/
theorem CoreState.AloneIn.step_of_afterDecode {st' : Stage} {n : Nat} {g : Signals} (hs : s.AloneIn st i)
    (hv : v.AloneIn st' i) (hst' : st' ≠ .fetch)
    (hd : afterDecode (s.retimed n Signals.rest) = .next ⟨_, v.retimed n g⟩) :
    step ⟨_, s.retimed n Signals.rest⟩ = .next ⟨_, v.retimed (n + 1) Signals.rest⟩ := by
  have hlive : v.drained = false := Bool.eq_false_iff.mpr fun hdrained =>
    absurd hv.live (by simp [CoreState.drained_iff.mp hdrained st' hst'])
  rw [step_of_fetch_exhausted (hs.retimed n Signals.rest).ticking hd hv.running hv.exhausted,
    endOfTick_of_live (s := (v.retimed n g).atStage .fetch) hlive]
  rfl

/-! ### The four ticks after delivery -/

theorem CoreState.AloneIn.decode (h : s.AloneIn .dec i) : ((s.atStage .dec).dispatched i).AloneIn .ex i where
  ticking := h.ticking
  exhausted := h.exhausted
  live := rfl
  holds := h.holds
  empty := fun x hx hne => by
    cases x with
    | fetch => exact absurd rfl hx
    | ex => exact absurd rfl hne
    | dec => rfl
    | mem => exact h.empty .mem nofun nofun
    | wb => exact h.empty .wb nofun nofun

theorem CoreState.AloneIn.step_decode (h : s.AloneIn .dec i) (hn : i ≠ .nop) (hcan : s.canDispatch i) (n : Nat) :
    step ⟨_, s.retimed n Signals.rest⟩ =
      .next ⟨_, ((s.atStage .dec).dispatched i).retimed (n + 1) Signals.rest⟩ := by
  refine h.step_of_afterDecode (g := Signals.during .dec) h.decode nofun ?_
  have hdec := decodeStage_of_instr (u := (s.atStage .dec).retimed n (Signals.during .dec)) rfl h.live h.holds
  rw [dec_of_canDispatch (s := (s.atStage .dec).retimed n (Signals.during .dec)) hn hcan, dispatched_retimed] at hdec
  exact (andThen_running (h.retimed n Signals.rest).afterExecute_idle h.running).trans hdec

theorem takenTarget_of_isStraight (hi : isStraight i = true) (l : Latch xlen) : takenTarget s i l = none := by
  cases i with
  | bz | bnz | bp | bnp | jump => nomatch hi
  | _ => rfl

theorem CoreState.AloneIn.execute (h : s.AloneIn .ex i) (hi : isStraight i = true)
    (hrun : ((stepsOf i).ex (s.atStage .ex)).status = .running) :
    ((stepsOf i).ex (s.atStage .ex)).AloneIn .mem i := by
  have hstage : executeStage (s.atStage .ex) = .next ⟨_, (stepsOf i).ex (s.atStage .ex)⟩ :=
    executeStage_of_instr rfl h.live h.holds
  generalize (stepsOf i).ex (s.atStage .ex) = v at hstage hrun
  rcases executeStage_cases rfl hstage with
    ⟨hempty, _⟩ | ⟨_, _, _, rfl⟩ | ⟨_, j, _, hj, htaken, _⟩ | ⟨_, _, byp, bv, z, p, l, rfl, hrec, hlive, _⟩
  · exact absurd h.live (by simpa [CoreState.latchOf] using hempty)
  · nomatch hrun
  · cases hj.symm.trans h.holds
    simp [takenTarget_of_isStraight hi] at htaken
  · exact
    { ticking := h.ticking
      exhausted := h.exhausted
      live := hlive
      holds := hrec.instr.trans h.holds
      empty := fun x hx hne => by
        cases x with
        | fetch => exact absurd rfl hx
        | mem => exact absurd rfl hne
        | ex => rfl
        | dec => exact h.empty .dec nofun nofun
        | wb => exact h.empty .wb nofun nofun }

theorem CoreState.AloneIn.step_execute (h : s.AloneIn .ex i) (hi : isStraight i = true)
    (hrun : ((stepsOf i).ex (s.atStage .ex)).status = .running) (n : Nat) :
    step ⟨_, s.retimed n Signals.rest⟩ =
      .next ⟨_, ((stepsOf i).ex (s.atStage .ex)).retimed (n + 1) Signals.rest⟩ := by
  have hv := h.execute hi hrun
  have hex := executeStage_of_instr (u := (s.atStage .ex).retimed n (Signals.during .ex)) rfl h.live h.holds
  rw [ex_retimed hi] at hex
  generalize (stepsOf i).ex (s.atStage .ex) = v at hv hex
  have hE : afterExecute (s.retimed n Signals.rest) = .next ⟨_, v.retimed n (Signals.during .ex)⟩ :=
    (andThen_running ((h.retimed n Signals.rest).afterMemory_idle nofun nofun) h.running).trans hex
  have hD : afterDecode (s.retimed n Signals.rest) = .next ⟨_, v.retimed n (Signals.during .dec)⟩ :=
    (andThen_running hE hv.running).trans (stageWork_of_empty (hv.empty .dec nofun nofun))
  exact h.step_of_afterDecode hv nofun hD

theorem CoreState.AloneIn.memory (h : s.AloneIn .mem i)
    (hrun : ((stepsOf i).mem (s.atStage .mem)).status = .running) :
    ((stepsOf i).mem (s.atStage .mem)).AloneIn .wb i := by
  have hstage : memoryStage (s.atStage .mem) = .next ⟨_, (stepsOf i).mem (s.atStage .mem)⟩ :=
    memoryStage_of_instr rfl h.live h.holds
  generalize (stepsOf i).mem (s.atStage .mem) = v at hstage hrun
  have hpassed : ∃ dmem l, v = CoreState.sendToWriteback l { s.atStage .mem with dmem := dmem } ∧
      l.SameRecord s.mLatch := by
    rcases memoryStage_cases rfl hstage with ⟨hempty, _⟩ | ⟨_, _, _, rfl⟩ | ⟨_, _, ⟨w, rfl⟩ | ⟨_, rfl⟩⟩
    · exact absurd h.live (by simpa [CoreState.latchOf] using hempty)
    · nomatch hrun
    · exact ⟨_, _, rfl, ⟨rfl, rfl, rfl, rfl, rfl, rfl⟩⟩
    · exact ⟨_, _, rfl, .refl _⟩
  obtain ⟨dmem, l, rfl, hrec⟩ := hpassed
  exact
  { ticking := h.ticking
    exhausted := h.exhausted
    live := rfl
    holds := hrec.instr.trans h.holds
    empty := fun x hx hne => by
      cases x with
      | fetch => exact absurd rfl hx
      | wb => exact absurd rfl hne
      | mem => rfl
      | dec => exact h.empty .dec nofun nofun
      | ex => exact h.empty .ex nofun nofun }

theorem CoreState.AloneIn.step_memory (h : s.AloneIn .mem i)
    (hrun : ((stepsOf i).mem (s.atStage .mem)).status = .running) (n : Nat) :
    step ⟨_, s.retimed n Signals.rest⟩ =
      .next ⟨_, ((stepsOf i).mem (s.atStage .mem)).retimed (n + 1) Signals.rest⟩ := by
  have hv := h.memory hrun
  have hmem := memoryStage_of_instr (u := (s.atStage .mem).retimed n (Signals.during .mem)) rfl h.live h.holds
  rw [mem_retimed] at hmem
  generalize (stepsOf i).mem (s.atStage .mem) = v at hv hmem
  have hM : afterMemory (s.retimed n Signals.rest) = .next ⟨_, v.retimed n (Signals.during .mem)⟩ :=
    (andThen_running ((h.retimed n Signals.rest).afterWriteback_idle nofun) h.running).trans hmem
  have hD : afterDecode (s.retimed n Signals.rest) = .next ⟨_, v.retimed n (Signals.during .dec)⟩ :=
    afterDecode_of_afterMemory hM hv.running (hv.empty .ex nofun nofun) (hv.empty .dec nofun nofun)
  exact h.step_of_afterDecode hv nofun hD

theorem CoreState.AloneIn.writeback (h : s.AloneIn .wb i) (hi : isStraight i = true) :
    ((stepsOf i).wb (s.atStage .wb)).drained = true ∧ ((stepsOf i).wb (s.atStage .wb)).fetchClass = .exhausted := by
  have hstage : writebackStage (s.atStage .wb) = .next ⟨_, (stepsOf i).wb (s.atStage .wb)⟩ :=
    writebackStage_of_instr rfl h.live h.holds
  generalize (stepsOf i).wb (s.atStage .wb) = v at hstage
  rcases writebackStage_cases rfl hstage with ⟨hempty, _⟩ | ⟨⟨_, hhalt⟩, _⟩ | ⟨_, _, regs, sb, bv, rfl, _⟩
  · exact absurd h.live (by simpa [CoreState.latchOf] using hempty)
  · cases hhalt.symm.trans h.holds
    nomatch hi
  · refine ⟨CoreState.drained_iff.mpr fun x hx => ?_, h.exhausted⟩
    cases x with
    | fetch => exact absurd rfl hx
    | wb => rfl
    | dec => exact h.empty .dec nofun nofun
    | ex => exact h.empty .ex nofun nofun
    | mem => exact h.empty .mem nofun nofun

/-- After the commit nothing is in flight and nothing can be fetched, which ends the run. -/
theorem CoreState.AloneIn.step_writeback (h : s.AloneIn .wb i) (hi : isStraight i = true) (n : Nat) :
    step ⟨_, s.retimed n Signals.rest⟩ =
      .next ⟨_, ((stepsOf i).wb (s.atStage .wb)).exhaust.retimed (n + 1) Signals.rest⟩ := by
  obtain ⟨hdrained, hex⟩ := h.writeback hi
  have hrun : ((stepsOf i).wb (s.atStage .wb)).status = .running := (wb_status hi _).trans h.running
  have hwb := writebackStage_of_instr (u := (s.atStage .wb).retimed n (Signals.during .wb)) rfl h.live h.holds
  rw [wb_retimed hi] at hwb
  generalize (stepsOf i).wb (s.atStage .wb) = v at hdrained hex hrun hwb
  have hempty := CoreState.drained_iff.mp hdrained
  have hM : afterMemory (s.retimed n Signals.rest) = .next ⟨_, v.retimed n (Signals.during .mem)⟩ :=
    (andThen_running hwb hrun).trans (stageWork_of_empty (hempty .mem nofun))
  have hD : afterDecode (s.retimed n Signals.rest) = .next ⟨_, v.retimed n (Signals.during .dec)⟩ :=
    afterDecode_of_afterMemory hM hrun (hempty .ex nofun) (hempty .dec nofun)
  have hcannot : v.cannotFetch = true := by simp [CoreState.cannotFetch, hex]
  rw [step_of_fetch_exhausted (h.retimed n Signals.rest).ticking hD hrun hex,
    endOfTick_of_done (s := (v.retimed n (Signals.during .dec)).atStage .fetch) hdrained hcannot]
  rfl

end

/-! ### Delivery of the last record, and the run -/

/-- A signed sum that fits in a word is exact. -/
theorem signed_addw_of_fits {a b : Word (xlen + 1)} (h : -(2 ^ xlen) ≤ signed a + signed b ∧
    signed a + signed b ≤ 2 ^ xlen - 1) : signed (addw a b) = signed a + signed b := signed_wrap_of_fits h

/-- A natural number that fits in a word is its signed value. -/
theorem signed_ofNat_of_fits {n : Nat} (h : n < 2 ^ xlen) : signed (BitVec.ofNat (xlen + 1) n) = n := by
  have hfits : -(2 ^ xlen) ≤ (n : Int) ∧ (n : Int) ≤ 2 ^ xlen - 1 := by
    have hcast : (n : Int) < 2 ^ xlen := by exact_mod_cast h
    omega
  have hword : (wrap (n : Int) : Word (xlen + 1)) = BitVec.ofNat (xlen + 1) n := BitVec.ofInt_natCast ..
  rw [← hword, signed_wrap_of_fits hfits]

/-- Behind the last record `PC` is past the code, when words hold the code's addresses. -/
theorem delivered_exhausted {s : CoreState xlen} (hv : s.validCore) (hfit : s.inputs.AddressesFit) {k : Nat}
    (hc : s.fetchClass = .index k) (hlast : s.inputs.code.length = k + 1) :
    (s.delivered k).fetchClass = .exhausted := by
  have hw : 1 ≤ s.inputs.cfg.insnWidth := by
    simp only [CoreState.validCore, Config.valid, decide_eq_true_eq] at hv
    omega
  obtain ⟨hpc, _⟩ := (fetchClassOf_index_iff hw).mp hc
  rw [Inputs.AddressesFit, hlast] at hfit
  obtain _ | m := xlen
  · have hpos : 1 ≤ s.inputs.cfg.insnWidth * (k + 1) := Nat.mul_pos hw k.succ_pos
    simp at hfit
    omega
  have hnext : signed s.pc + s.inputs.cfg.insnWidth = s.inputs.cfg.codeBase + s.inputs.cfg.insnWidth * ↑(k + 1) := by
    rw [hpc]
    push_cast
    ring
  have hbound : (s.inputs.cfg.codeBase : Int) + s.inputs.cfg.insnWidth * ↑(k + 1) < 2 ^ m := by exact_mod_cast hfit
  have hwidth : signed (BitVec.ofNat (m + 1) s.inputs.cfg.insnWidth) = s.inputs.cfg.insnWidth := by
    have hle : s.inputs.cfg.insnWidth ≤ s.inputs.cfg.insnWidth * (k + 1) := Nat.le_mul_of_pos_right _ k.succ_pos
    exact signed_ofNat_of_fits (by simp only [Nat.add_sub_cancel] at hfit; omega)
  have hfits : -(2 ^ m) ≤ signed s.pc + signed (BitVec.ofNat (m + 1) s.inputs.cfg.insnWidth) ∧
      signed s.pc + signed (BitVec.ofNat (m + 1) s.inputs.cfg.insnWidth) ≤ 2 ^ m - 1 := by
    have hnonneg : (0 : Int) ≤ s.inputs.cfg.codeBase + s.inputs.cfg.insnWidth * ↑(k + 1) := by positivity
    rw [hwidth, hnext]
    omega
  refine fetchClassOf_exhausted_of_address (k := k + 1) hw ?_ hlast.le
  calc signed (s.delivered k).pc
      = signed s.pc + signed (BitVec.ofNat (m + 1) s.inputs.cfg.insnWidth) := signed_addw_of_fits hfits
    _ = s.inputs.cfg.codeBase + s.inputs.cfg.insnWidth * ↑(k + 1) := by rw [hwidth, hnext]

/-- With nothing else in flight, the tick that fetches the last record delivers its instruction to Decode, alone. -/
theorem step_delivers_alone {s : CoreState xlen} {k : Nat} {i : Instr} (hs : s.ticking) (hd : s.drained = true)
    (hF : s.fLatch.hasInsn = true) (hfit : s.inputs.AddressesFit) (hc : s.fetchClass = .index k)
    (hlast : s.inputs.code.length = k + 1) (hdec : decode (s.codeRecord k) = .instr i) (hi : isStraight i = true) :
    (s.delivered k).AloneIn .dec i ∧ step ⟨_, s⟩ = .next ⟨_, (s.delivered k).retimed (s.clock + 1) Signals.rest⟩ := by
  have hempty := CoreState.drained_iff.mp hd
  refine ⟨
    { ticking := hs
      exhausted := delivered_exhausted hs.1 hfit hc hlast
      live := rfl
      holds := fetchRecord_instr hdec s
      empty := fun x hx hne => ?_ }, ?_⟩
  · cases x with
    | fetch => exact absurd rfl hx
    | dec => exact absurd rfl hne
    | ex => exact hempty .ex nofun
    | mem => exact hempty .mem nofun
    | wb => exact hempty .wb nofun
  · have hrun : ((s.restSignals.atStage .fetch).fetchRecord (s.codeRecord k)).deliver.status = .running :=
      CoreState.running_of_ticking hs
    rw [stepRunsDecodedInstruction s k i hs hd hF hc hdec, exec_fetch i rfl, fetch_of_isStraight hi,
      andThen_running rfl hrun, endOfTick_of_live (by simp [CoreState.drained])]
    rfl

/-- A passage is its four stage steps. -/
theorem Passage.steps {i : Instr} {s s1 s2 s3 s4 : CoreState xlen} (h : Passage i s s1 s2 s3 s4) :
    s1 = (stepsOf i).dec (s.atStage .dec) ∧ s2 = (stepsOf i).ex (s1.atStage .ex) ∧
      s3 = (stepsOf i).mem (s2.atStage .mem) ∧ s4 = (stepsOf i).wb (s3.atStage .wb) := by
  obtain ⟨hdec, hex, hmem, hwb⟩ := h
  rw [exec_dec i rfl] at hdec
  rw [exec_ex i rfl] at hex
  rw [exec_mem i rfl] at hmem
  rw [exec_wb i rfl] at hwb
  cases hdec
  cases hex
  cases hmem
  cases hwb
  exact ⟨rfl, rfl, rfl, rfl⟩

/-- A run of a machine goes on from what its first step answers. -/
theorem coreRun_succ {M : Host.Core} {s t : M.State} (h : M.step s = .next t) (n : Nat) :
    M.run (n + 1) s = M.run n t := by
  simp [Host.Core.run, h]

theorem run_succ_of_step {s t : State} (h : step s = .next t) (n : Nat) : run (n + 1) s = run n t :=
  coreRun_succ (M := Sys2Proof.core) h n

/-- The four ticks after delivery leave what the passage leaves, and end the run. -/
theorem CoreState.AloneIn.run_passage {s s1 s2 s3 s4 : CoreState xlen} {i : Instr} (h : s.AloneIn .dec i)
    (hi : isStraight i = true) (hcan : s.canDispatch i) (hp : Passage i s s1 s2 s3 s4) (hrun : s4.status = .running)
    (n : Nat) : run 4 ⟨_, s.retimed n Signals.rest⟩ = .next ⟨_, s4.exhaust.retimed (n + 4) Signals.rest⟩ ∧
      s4.drained = true := by
  have hn : i ≠ .nop := by
    rintro rfl
    nomatch hi
  obtain ⟨hs1, rfl, rfl, rfl⟩ := hp.steps
  rw [dec_of_canDispatch (s := s.atStage .dec) hn hcan] at hs1
  subst hs1
  have hmem := (wb_status hi _).symm.trans hrun
  have hex := running_of_mem hmem
  have hE := h.decode
  have hM := hE.execute hi hex
  have hW := hM.memory hmem
  refine ⟨?_, (hW.writeback hi).1⟩
  rw [run_succ_of_step (h.step_decode hn hcan n), run_succ_of_step (hE.step_execute hi hex (n + 1)),
    run_succ_of_step (hM.step_memory hmem (n + 2)), run_succ_of_step (hW.step_writeback hi (n + 3))]
  rfl

/-- An instruction that is none of those the statement leaves out goes straight through the stages. -/
theorem isStraight_of_not_control {s : CoreState xlen} {i : Instr} (hnop : i ≠ .nop) (hhalt : i ≠ .halt)
    (htaken : ∀ l, takenTarget s i l = none)
    (hbranch : ∀ imm, i ≠ .bz imm ∧ i ≠ .bnz imm ∧ i ≠ .bp imm ∧ i ≠ .bnp imm) : isStraight i = true := by
  cases i with
  | nop => exact absurd rfl hnop
  | halt => exact absurd rfl hhalt
  | jump => nomatch htaken s.eLatch
  | bz imm | bnz imm | bp imm | bnp imm => simpa using hbranch imm
  | _ => rfl

/-- Settles O59: the first tick delivers the instruction, and the four after it are its passage at another time. -/
theorem runAloneMatchesPassage : Obligations.RunAloneMatchesPassage := by
  intro xlen s s1 s2 s3 s4 k i hs hd hF hfit hc hlast hdec hnop hhalt htaken hbranch hcan hp hrun
  have hi : isStraight i = true := isStraight_of_not_control hnop hhalt htaken hbranch
  obtain ⟨halone, hstep⟩ := step_delivers_alone hs hd hF (s.addressesFit hs.1 hfit) hc hlast hdec hi
  obtain ⟨hfour, hdone⟩ := halone.run_passage hi hcan hp hrun (s.clock + 1)
  exact ⟨_, (run_succ_of_step hstep 4).trans hfour, rfl, rfl, rfl, rfl, rfl, rfl, rfl, rfl, rfl, rfl, hdone⟩

end Sys2Proof.Machine

/-!
PROOFS. The statements of 41_alu.md: the quotient, the flags, and what the passage of each arithmetic, logical, move and
compare instruction leaves.
-/

namespace Sys2Proof.Machine

open Sys2Proof.Claims

variable {xlen : Nat}

/-! ## Division (41_alu.md R126, R131) -/

theorem signed_eq_zero_iff {a : Word xlen} : signed a = 0 ↔ a = 0 := by
  simpa [signed] using BitVec.toInt_inj (x := a) (y := 0#xlen)

/-- A quotient rounded toward zero is negative when the operands have opposite signs and the divisor goes into the
dividend at least once. -/
theorem tdiv_neg_iff (a b : Int) :
    a.tdiv b < 0 ↔ ((a < 0 ∧ 0 < b) ∨ (0 < a ∧ b < 0)) ∧ b.natAbs ≤ a.natAbs := by
  rw [← Int.sign_eq_neg_one_iff_neg, Int.sign_tdiv]
  split
  case isTrue hsmall => exact iff_of_false nofun fun h => absurd h.2 hsmall.not_ge
  case isFalse hlarge =>
    rw [← Int.sign_mul, Int.sign_eq_neg_one_iff_neg, Int.mul_neg_iff, or_comm, and_iff_left (not_lt.mp hlarge)]

/-- A DIV by 0 raises its fault in Execute and does nothing else (60_exceptions.md R160). -/
theorem ex_div_by_zero {s : CoreState xlen} (rd rs1 rs2 : RegIndex) (hzero : s.eLatch.rs2Value = 0) :
    (stepsOf (.div rd rs1 rs2)).ex s = s.raiseFault .divideByZero .ex s.eLatch.pc := if_pos hzero

/-- Settles O7: the integer quotient rounded toward zero is the `q` that `divw` wraps. -/
theorem divisionTruncatesTowardZero : Obligations.DivisionTruncatesTowardZero := by
  refine ⟨fun a b _ => ⟨(signed a).tdiv (signed b), Int.natAbs_tdiv .., tdiv_neg_iff .., rfl⟩, by decide,
    fun s rd rs1 rs2 hst hzero => ?_⟩
  rw [exec_ex _ hst, ex_div_by_zero rd rs1 rs2 hzero, CoreState.raiseFault]

/-! ## The flags (41_alu.md R127) -/

theorem zeroOf_iff {v : Word xlen} : zeroOf v = true ↔ v = 0 := decide_eq_true_iff

theorem positiveOf_iff {v : Word xlen} : positiveOf v = true ↔ 0 < signed v := decide_eq_true_iff

theorem not_zeroOf_and_positiveOf (v : Word xlen) : ¬(zeroOf v = true ∧ positiveOf v = true) := fun ⟨hz, hp⟩ =>
  absurd hz (by simp [zeroOf_of_positiveOf hp])

/-- A negative word clears both flags. -/
theorem flagsOf_negative {v : Word xlen} (h : signed v < 0) : zeroOf v = false ∧ positiveOf v = false := by
  refine ⟨Bool.eq_false_iff.mpr fun hz => ?_, Bool.eq_false_iff.mpr fun hp => ?_⟩
  · exact h.ne (signed_eq_zero_iff.mpr (zeroOf_iff.mp hz))
  · exact h.not_gt (positiveOf_iff.mp hp)

/-! ## The result of Execute, with the operators of bit vectors (00_scope.md R13) -/

section
variable (rd rs1 rs2 : RegIndex) (imm : Imm) (l : Latch xlen)

theorem executeResult_add : executeResult (.add rd rs1 rs2) l = some (rd, l.rs1Value + l.rs2Value) := by
  rw [executeResult, addw_eq]

theorem executeResult_sub : executeResult (.sub rd rs1 rs2) l = some (rd, l.rs1Value - l.rs2Value) := by
  rw [executeResult, subw_eq]

theorem executeResult_mul : executeResult (.mul rd rs1 rs2) l = some (rd, l.rs1Value * l.rs2Value) := by
  rw [executeResult, mulw_eq]

theorem executeResult_addl : executeResult (.addl rd rs1 imm) l = some (rd, l.rs1Value + immWord imm) := by
  rw [executeResult, addw_eq]

theorem executeResult_subl : executeResult (.subl rd rs1 imm) l = some (rd, l.rs1Value - immWord imm) := by
  rw [executeResult, subw_eq]

variable {l} in
theorem executeResult_div (h : l.rs2Value ≠ 0) :
    executeResult (.div rd rs1 rs2) l = some (rd, divw l.rs1Value l.rs2Value) := if_neg h

end

/-! ## The stage steps of an instruction whose result Execute computes (40_pipeline.md R118) -/

/-- Execute produces the result, and writes the flags from it if the instruction is one that writes them. -/
theorem ex_of_executeResult {u : CoreState xlen} {i : Instr} {rd : RegIndex} {v : Word xlen}
    (h : executeResult i u.eLatch = some (rd, v)) :
    (stepsOf i).ex u = if writesFlags i then u.produceFlags rd v else u.produce rd v := by
  cases i with
  | add | sub | mul | and | or | xor | movc | addl | subl =>
    cases h
    rfl
  | div =>
    obtain ⟨hne, hsome⟩ := Option.ite_none_left_eq_some.mp h
    cases hsome
    exact if_neg hne
  | _ => nomatch h

/-- Memory only passes on an instruction whose result Execute computes. -/
theorem mem_of_executeResult {i : Instr} {l : Latch xlen} {rd : RegIndex} {v : Word xlen}
    (h : executeResult i l = some (rd, v)) (u : CoreState xlen) : (stepsOf i).mem u = u.sendToWriteback u.mLatch := by
  cases i with
  | load | store | ldi | sti => nomatch h
  | _ => rfl

/-- The one destination of an instruction whose result Execute computes is the register the result is for. -/
theorem destsOf_of_executeResult {i : Instr} {l : Latch xlen} {rd : RegIndex} {v : Word xlen}
    (h : executeResult i l = some (rd, v)) : destsOf i = [rd] := by
  cases i with
  | add | sub | mul | and | or | xor | movc | addl | subl =>
    cases h
    rfl
  | div =>
    obtain ⟨_, hsome⟩ := Option.ite_none_left_eq_some.mp h
    cases hsome
    rfl
  | _ => nomatch h

theorem ne_nop_of_executeResult {i : Instr} {l : Latch xlen} {r : RegIndex × Word xlen}
    (h : executeResult i l = some r) : i ≠ .nop := by
  rintro rfl
  nomatch h

/-- Execute of CMP writes the flags from the wrapped difference and passes on. -/
theorem ex_cmp (rs1 rs2 : RegIndex) (u : CoreState xlen) :
    (stepsOf (.cmp rs1 rs2)).ex u =
      (u.sendToMemory u.eLatch).setFlags (u.eLatch.rs1Value - u.eLatch.rs2Value) := by
  rw [← subw_eq]
  rfl

/-- Both flags of `t` are those of the word `v`. -/
def CoreState.HasFlagsOf (v : Word xlen) (t : CoreState xlen) : Prop :=
  t.zeroFlag = zeroOf v ∧ t.positiveFlag = positiveOf v

theorem ex_hasFlagsOf {u : CoreState xlen} {i : Instr} {rd : RegIndex} {v : Word xlen}
    (h : executeResult i u.eLatch = some (rd, v)) (hw : writesFlags i = true) :
    ((stepsOf i).ex u).HasFlagsOf v := by
  rw [ex_of_executeResult h, if_pos hw]
  exact ⟨rfl, rfl⟩

/-- Settles O8: each of the seven leaves the flags of its word, and every word has exclusive flags. -/
theorem flagsComeFromOneWord : Obligations.FlagsComeFromOneWord := by
  intro xlen s rd rs1 rs2 imm hst c hc hdiv
  have hflags : ((stepsOf c.1).ex s).HasFlagsOf c.2 := by
    simp only [List.mem_cons, List.not_mem_nil, or_false] at hc
    rcases hc with rfl | rfl | rfl | rfl | rfl | rfl | rfl
    · exact ex_hasFlagsOf (executeResult_add ..) rfl
    · exact ex_hasFlagsOf (executeResult_sub ..) rfl
    · exact ex_hasFlagsOf (executeResult_mul ..) rfl
    · exact ex_hasFlagsOf (executeResult_div _ _ _ (hdiv rfl)) rfl
    · exact ex_hasFlagsOf (executeResult_addl ..) rfl
    · exact ex_hasFlagsOf (executeResult_subl ..) rfl
    · rw [ex_cmp]
      exact ⟨rfl, rfl⟩
  obtain ⟨hz, hp⟩ := hflags
  refine ⟨_, exec_ex c.1 hst, ?_⟩
  rw [hz, hp]
  exact ⟨zeroOf_iff, positiveOf_iff, not_zeroOf_and_positiveOf c.2, flagsOf_negative⟩

/-! ## The passage of an instruction whose result Execute computes (40_pipeline.md R85, R90) -/

theorem CoreState.commitTo_bv_self (s : CoreState xlen) (r : RegIndex) (v : Word xlen) :
    Bank.get (s.commitTo r v).bv r = validAfterCommit s.inputs.cfg.bypassExpiry (Bank.get s.bv r) := by
  rw [CoreState.commitTo_bv]
  cases s.inputs.cfg.bypassExpiry <;> simp [validAfterCommit]

/-- What Memory and Writeback leave of an instruction with one result for `rd`, when Execute has left `u`. -/
def CoreState.committed (rd : RegIndex) (u : CoreState xlen) : CoreState xlen :=
  CoreState.commitResult rd (((u.atStage .mem).sendToWriteback u.mLatch).atStage .wb)

section
variable (rd : RegIndex) (u : CoreState xlen)

@[simp] theorem CoreState.committed_zeroFlag : (u.committed rd).zeroFlag = u.zeroFlag := rfl
@[simp] theorem CoreState.committed_positiveFlag : (u.committed rd).positiveFlag = u.positiveFlag := rfl
@[simp] theorem CoreState.committed_regs : (u.committed rd).regs = Bank.put u.regs rd u.mLatch.resultBuffer := rfl
@[simp] theorem CoreState.committed_sb : (u.committed rd).sb = Bank.put u.sb rd false := rfl
@[simp] theorem CoreState.committed_byp : (u.committed rd).byp = u.byp := rfl
@[simp] theorem CoreState.committed_dmem : (u.committed rd).dmem = u.dmem := rfl
@[simp] theorem CoreState.committed_pc : (u.committed rd).pc = u.pc := rfl
@[simp] theorem CoreState.committed_fLatch : (u.committed rd).fLatch = u.fLatch := rfl
@[simp] theorem CoreState.committed_dLatch : (u.committed rd).dLatch = u.dLatch := rfl
@[simp] theorem CoreState.committed_eLatch : (u.committed rd).eLatch = u.eLatch := rfl
@[simp] theorem CoreState.committed_mLatch : (u.committed rd).mLatch = u.mLatch.emptied := rfl
@[simp] theorem CoreState.committed_wLatch : (u.committed rd).wLatch = u.mLatch.filled.emptied := rfl
@[simp] theorem CoreState.committed_clock : (u.committed rd).clock = u.clock := rfl
@[simp] theorem CoreState.committed_retired : (u.committed rd).retired = u.retired + 1 := rfl
@[simp] theorem CoreState.committed_status : (u.committed rd).status = u.status := rfl
@[simp] theorem CoreState.committed_inputs : (u.committed rd).inputs = u.inputs := rfl

theorem CoreState.committed_bv_self :
    Bank.get (u.committed rd).bv rd = validAfterCommit u.inputs.cfg.bypassExpiry (Bank.get u.bv rd) :=
  CoreState.commitTo_bv_self (((u.atStage .mem).sendToWriteback u.mLatch).atStage .wb) rd u.mLatch.resultBuffer

variable {rd} in
theorem CoreState.committed_bv_of_ne {r : RegIndex} (h : r ≠ rd) :
    Bank.get (u.committed rd).bv r = Bank.get u.bv r := by
  obtain ⟨_, _, hbv⟩ := CoreState.commitTo_other (s := ((u.atStage .mem).sendToWriteback u.mLatch).atStage .wb)
    u.mLatch.resultBuffer h
  exact hbv

end

/-- Producing `v` for the one destination `rd` and committing it leaves `v` in the register and in the bypass entry of
`rd`, takes back the scoreboard bit that the dispatch set, and changes nothing else. -/
theorem committedResult_of_produce {i : Instr} {rd : RegIndex} (hd : destsOf i = [rd]) (v : Word xlen)
    (s : CoreState xlen) :
    CommittedResult rd v s (CoreState.committed rd ((((s.atStage .dec).dispatched i).atStage .ex).produce rd v)) where
  reg := by simp [CoreState.produce]
  pending := by simp
  bypass := by simp [CoreState.produce]
  valid := by
    rw [CoreState.committed_bv_self]
    simp [CoreState.produce, CoreState.dispatched]
  others := by
    refine ⟨fun r hr => ?_, fun r hr => ?_, fun r hr => ?_, fun r hr => ?_⟩ <;>
      have hne : r ≠ rd := List.ne_of_not_mem_cons hr
    · simp [CoreState.produce, CoreState.dispatched, hne]
    · simp [CoreState.produce, CoreState.dispatched, hne, hd, Bank.get_setAll]
    · rw [CoreState.committed_bv_of_ne _ hne]
      simp [CoreState.produce, CoreState.dispatched, hne]
    · simp [CoreState.produce, CoreState.dispatched, hne]
  memory := fun _ => by simp [CoreState.produce, CoreState.dispatched]
  fetch := by constructor <;> simp [CoreState.produce, CoreState.dispatched]
  run := by refine ⟨?_, ?_, ?_⟩ <;> simp [CoreState.produce, CoreState.dispatched]
  retired := by simp [CoreState.produce, CoreState.dispatched]
  drained := by simp [CoreState.drained, CoreState.produce, CoreState.dispatched]

/-- What an instruction commits does not depend on the flags. -/
theorem committedResult_setFlags {rd : RegIndex} {v : Word xlen} {s t : CoreState xlen}
    (h : CommittedResult rd v s t) (w : Word xlen) : CommittedResult rd v s (t.setFlags w) :=
  ⟨h.reg, h.pending, h.bypass, h.valid, ⟨h.others.regs, h.others.sb, h.others.bv, h.others.byp⟩, h.memory, h.fetch,
    h.run, h.retired, h.drained⟩

section
variable {i : Instr} {s : CoreState xlen} {rd : RegIndex} {v : Word xlen}

/-- The passage commits what Execute leaves. -/
theorem passage_of_executeResult (hcan : s.canDispatch i) (h : executeResult i (s.dispatched i).eLatch = some (rd, v)) :
    ∃ s1 s2 s3, Passage i s s1 s2 s3
      (CoreState.committed rd ((stepsOf i).ex (((s.atStage .dec).dispatched i).atStage .ex))) := by
  have hpass := passage_of_canDispatch (ne_nop_of_executeResult h) hcan
  rw [mem_of_executeResult h, wb_of_executeResult h] at hpass
  exact ⟨_, _, _, hpass⟩

theorem passesWithFlags_of_executeResult (hcan : s.canDispatch i) (hw : writesFlags i = true)
    (h : executeResult i (s.dispatched i).eLatch = some (rd, v)) : PassesWithFlags i rd v s := by
  obtain ⟨s1, s2, s3, hpass⟩ := passage_of_executeResult hcan h
  rw [ex_of_executeResult (u := ((s.atStage .dec).dispatched i).atStage .ex) h, if_pos hw] at hpass
  have hcommit := committedResult_of_produce (destsOf_of_executeResult h) v s
  exact ⟨s1, s2, s3, _, hpass, committedResult_setFlags hcommit v, rfl, rfl⟩

theorem passesKeepingFlags_of_executeResult (hcan : s.canDispatch i) (hw : writesFlags i = false)
    (h : executeResult i (s.dispatched i).eLatch = some (rd, v)) : PassesKeepingFlags i rd v s := by
  obtain ⟨s1, s2, s3, hpass⟩ := passage_of_executeResult hcan h
  rw [ex_of_executeResult (u := ((s.atStage .dec).dispatched i).atStage .ex) h,
    if_neg (Bool.eq_false_iff.mp hw)] at hpass
  refine ⟨s1, s2, s3, _, hpass, committedResult_of_produce (destsOf_of_executeResult h) v s, ?_, ?_⟩ <;>
    simp [CoreState.produce, CoreState.dispatched]

/-- The two checked sources fill `rs1_value` and `rs2_value`. -/
theorem CoreState.dispatched_operands {rs1 rs2 : RegIndex} (hsrc : sourcesOf i = [rs1, rs2]) (s : CoreState xlen) :
    (s.dispatched i).eLatch.rs1Value = s.operand rs1 ∧ (s.dispatched i).eLatch.rs2Value = s.operand rs2 :=
  ⟨CoreState.dispatched_rs1Value (fill1Of_of_source (by rw [hsrc]; rfl)) s,
    CoreState.dispatched_rs2Value (by rw [hsrc]; rfl) s⟩

/-- The result of a register-register instruction is that of the operands Decode reads. -/
theorem executeResult_dispatched {op : Word xlen → Word xlen → Word xlen} {rs1 rs2 : RegIndex}
    (hsrc : sourcesOf i = [rs1, rs2])
    (h : ∀ l : Latch xlen, executeResult i l = some (rd, op l.rs1Value l.rs2Value)) (s : CoreState xlen) :
    executeResult i (s.dispatched i).eLatch = some (rd, op (s.operand rs1) (s.operand rs2)) := by
  obtain ⟨h1, h2⟩ := s.dispatched_operands hsrc
  rw [h, h1, h2]

end

/-- Settles O9: the three are register-register instructions that write the flags from the result. -/
theorem arithmeticInstructionsComplete : Obligations.ArithmeticInstructionsComplete := by
  intro xlen s rd rs1 rs2
  refine ⟨fun hcan => passesWithFlags_of_executeResult hcan rfl ?add,
    fun hcan => passesWithFlags_of_executeResult hcan rfl ?sub,
    fun hcan => passesWithFlags_of_executeResult hcan rfl ?mul⟩
  case add => exact executeResult_dispatched rfl (executeResult_add rd rs1 rs2) s
  case sub => exact executeResult_dispatched rfl (executeResult_sub rd rs1 rs2) s
  case mul => exact executeResult_dispatched rfl (executeResult_mul rd rs1 rs2) s

/-- Settles O10: the divisor that Execute finds in `E` is the operand, so it is not 0 there either. -/
theorem divisionCompletes : Obligations.DivisionCompletes := by
  intro xlen s rd rs1 rs2 hcan hne
  obtain ⟨h1, h2⟩ := s.dispatched_operands (i := .div rd rs1 rs2) rfl
  refine passesWithFlags_of_executeResult hcan rfl ?_
  rw [executeResult_div rd rs1 rs2 (h2 ▸ hne), h1, h2]

/-- Settles O11: the three are register-register instructions that write no flag. -/
theorem logicalInstructionsComplete : Obligations.LogicalInstructionsComplete := fun s _ _ _ =>
  ⟨fun hcan => passesKeepingFlags_of_executeResult hcan rfl (executeResult_dispatched rfl (fun _ => rfl) s),
    fun hcan => passesKeepingFlags_of_executeResult hcan rfl (executeResult_dispatched rfl (fun _ => rfl) s),
    fun hcan => passesKeepingFlags_of_executeResult hcan rfl (executeResult_dispatched rfl (fun _ => rfl) s)⟩

/-- Settles O12: Execute finds the operand of `rs1` in `E`, and the immediate is the instruction's own. -/
theorem immediateInstructionsComplete : Obligations.ImmediateInstructionsComplete := by
  intro xlen s rd rs1 imm
  refine ⟨fun hcan => passesWithFlags_of_executeResult hcan rfl ?addl,
    fun hcan => passesWithFlags_of_executeResult hcan rfl ?subl⟩
  case addl => rw [executeResult_addl, CoreState.dispatched_rs1Value (r := rs1) rfl]
  case subl => rw [executeResult_subl, CoreState.dispatched_rs1Value (r := rs1) rfl]

/-- Settles O13: MOVC has no checked source, so it dispatches, and its result is the immediate. -/
theorem moveImmediateCompletes : Obligations.MoveImmediateCompletes := by
  intro xlen s rd imm hreg
  have hcan : s.canDispatch (.movc rd imm) := ⟨by simp [Instr.wellFormed, Instr.usedRegs, hreg], rfl⟩
  exact passesKeepingFlags_of_executeResult hcan rfl rfl

/-- Settles O14: CMP has no destination; Execute writes the flags, and Memory and Writeback only pass it on. -/
theorem compareCompletes : Obligations.CompareCompletes := by
  intro xlen s rs1 rs2 hcan
  obtain ⟨h1, h2⟩ := (s.atStage .dec).dispatched_operands (i := .cmp rs1 rs2) rfl
  have hpass := passage_of_canDispatch (i := .cmp rs1 rs2) nofun hcan
  rw [ex_cmp, CoreState.atStage_eLatch, h1, h2] at hpass
  refine ⟨_, _, _, _, hpass, ⟨⟨?_, ?_, ?_, ?_⟩, ?_, ⟨?_, ?_, ?_⟩, ?_, ?_⟩, ⟨?_, ?_⟩, rfl, rfl⟩
  all_goals simp [stepsOf, CoreState.dispatched, destsOf, Bank.setAll, KeepsMemory, CoreState.drained]

/-! ## Every step keeps the flags exclusive (41_alu.md R127) -/

/-- The flags of any word are exclusive. -/
theorem CoreState.HasFlagsOf.exclusive {v : Word xlen} {t : CoreState xlen} (h : t.HasFlagsOf v) :
    t.FlagsExclusive := by
  obtain ⟨hz, hp⟩ := h
  rw [CoreState.FlagsExclusive, hz, hp]
  exact not_zeroOf_and_positiveOf v

theorem CoreState.FlagsExclusive.of_keepsFlags {u v : CoreState xlen} (h : u.FlagsExclusive) (hk : KeepsFlags u v) :
    v.FlagsExclusive := by
  obtain ⟨hz, hp⟩ := hk
  rwa [CoreState.FlagsExclusive, hz, hp]

/-- Execute keeps the flags or writes both from one word. -/
theorem executeStage_keeps_flagsExclusive {u v : CoreState xlen} (hu : u.FlagsExclusive)
    (hst : u.signals.stage = .ex) (h : executeStage u = .next ⟨_, v⟩) : v.FlagsExclusive := by
  rcases executeStage_cases hst h with
    ⟨_, rfl⟩ | ⟨_, _, _, rfl⟩ | ⟨_, _, _, _, _, rfl⟩ | ⟨_, _, byp, bv, z, p, l, rfl, _, _, hflags, _⟩
  · exact hu
  · exact hu
  · exact hu
  · rcases hflags with hkept | ⟨_, x, _, _, hwritten⟩
    · exact hu.of_keepsFlags hkept
    · exact CoreState.HasFlagsOf.exclusive (v := x) hwritten

/-- Settles O55: reset clears both flags, and of the stages only Execute writes them. -/
theorem stepKeepsFlagsExclusive : Obligations.StepKeepsFlagsExclusive := by
  intro xlen s t hs h
  refine tick_induction (P := CoreState.FlagsExclusive) hs h (CoreState.resetWith_inv s.inputs).flags (fun _ hu => hu)
    (fun _ _ hu => hu) ?wb ?mem (fun _ _ => executeStage_keeps_flagsExclusive) ?dec ?fetch ?fin
  case wb =>
    intro u v hu hst hv
    obtain ⟨-, hz, hp, -⟩ := writebackStage_frame hst hv
    exact hu.of_keepsFlags ⟨hz, hp⟩
  case mem =>
    intro u v hu hst hv
    obtain ⟨-, -, -, -, hz, hp, -⟩ := memoryStage_frame hst hv
    exact hu.of_keepsFlags ⟨hz, hp⟩
  case dec =>
    intro u v hu hst hv
    obtain ⟨-, -, -, -, hz, hp, -⟩ := decodeStage_frame hst hv
    exact hu.of_keepsFlags ⟨hz, hp⟩
  case fetch =>
    intro u v hu hst hv
    obtain ⟨-, -, -, -, -, hz, hp, -⟩ := fetchUnit_frame hst hv
    exact hu.of_keepsFlags ⟨hz, hp⟩
  case fin =>
    intro u v hu hv
    rcases endOfTick_frame hv with rfl | rfl
    exacts [hu, hu]

end Sys2Proof.Machine

/-!
PROOFS. The statements of 42_loadstore.md: what the passage of each load and store leaves.
-/

namespace Sys2Proof.Machine

open Sys2Proof.Claims

variable {xlen : Nat}

/-! ## The memory_stage at a valid address (40_pipeline.md R88) -/

/-- The state with the word at `M.memory_address` in `M.result_buffer`: what a load does in Memory, but for moving on. -/
def CoreState.loaded (u : CoreState xlen) : CoreState xlen :=
  { u with mLatch := { u.mLatch with resultBuffer := Memory.read u.dmem (signed u.mLatch.memoryAddress).toNat } }

/-- The state with `M.rs1_value` in the word at `M.memory_address`: what a store does in Memory, but for moving on. -/
def CoreState.stored (u : CoreState xlen) : CoreState xlen :=
  { u with dmem := Memory.write u.dmem (signed u.mLatch.memoryAddress).toNat u.mLatch.rs1Value }

section
variable (u : CoreState xlen)

@[simp] theorem CoreState.loaded_regs : u.loaded.regs = u.regs := rfl
@[simp] theorem CoreState.loaded_sb : u.loaded.sb = u.sb := rfl
@[simp] theorem CoreState.loaded_bv : u.loaded.bv = u.bv := rfl
@[simp] theorem CoreState.loaded_byp : u.loaded.byp = u.byp := rfl
@[simp] theorem CoreState.loaded_dmem : u.loaded.dmem = u.dmem := rfl
@[simp] theorem CoreState.loaded_inputs : u.loaded.inputs = u.inputs := rfl
@[simp] theorem CoreState.loaded_resultBuffer :
    u.loaded.mLatch.resultBuffer = Memory.read u.dmem (signed u.mLatch.memoryAddress).toNat := rfl
@[simp] theorem CoreState.loaded_newResultBuffer : u.loaded.mLatch.newResultBuffer = u.mLatch.newResultBuffer := rfl

@[simp] theorem CoreState.stored_regs : u.stored.regs = u.regs := rfl
@[simp] theorem CoreState.stored_sb : u.stored.sb = u.sb := rfl
@[simp] theorem CoreState.stored_bv : u.stored.bv = u.bv := rfl
@[simp] theorem CoreState.stored_byp : u.stored.byp = u.byp := rfl
@[simp] theorem CoreState.stored_dmem :
    u.stored.dmem = Memory.write u.dmem (signed u.mLatch.memoryAddress).toNat u.mLatch.rs1Value := rfl
@[simp] theorem CoreState.stored_inputs : u.stored.inputs = u.inputs := rfl
@[simp] theorem CoreState.stored_mLatch : u.stored.mLatch = u.mLatch := rfl

end

/-! ## What Memory and Writeback do at a valid address (40_pipeline.md R84 to R88) -/

/-- The state in which Writeback finds what Memory passes on as it is in `M` of `u`. -/
def CoreState.atWriteback (u : CoreState xlen) : CoreState xlen :=
  ((u.atStage .mem).sendToWriteback u.mLatch).atStage .wb

/-- What Memory and Writeback leave of an instruction in `M` of `u` that they only pass on. -/
def CoreState.passedOn (u : CoreState xlen) : CoreState xlen := u.atWriteback.retire

section
variable {u : CoreState xlen}

@[simp] theorem CoreState.passedOn_regs : u.passedOn.regs = u.regs := by
  simp [CoreState.passedOn, CoreState.atWriteback]
@[simp] theorem CoreState.passedOn_sb : u.passedOn.sb = u.sb := by simp [CoreState.passedOn, CoreState.atWriteback]
@[simp] theorem CoreState.passedOn_bv : u.passedOn.bv = u.bv := by simp [CoreState.passedOn, CoreState.atWriteback]
@[simp] theorem CoreState.passedOn_byp : u.passedOn.byp = u.byp := by simp [CoreState.passedOn, CoreState.atWriteback]
@[simp] theorem CoreState.passedOn_dmem : u.passedOn.dmem = u.dmem := by
  simp [CoreState.passedOn, CoreState.atWriteback]

theorem CoreState.loadWord_of_validAddress (h : u.validAddress u.mLatch.memoryAddress = true) :
    (u.atStage .mem).loadWord.atStage .wb = u.loaded.atWriteback := by
  rcases (u.atStage .mem).loadWord_cases with ⟨_, hword⟩ | ⟨hinvalid, _⟩
  · rw [hword]
    rfl
  · nomatch h.symm.trans hinvalid

theorem CoreState.storeWord_of_validAddress (h : u.validAddress u.mLatch.memoryAddress = true) :
    (u.atStage .mem).storeWord.atStage .wb = u.stored.atWriteback := by
  rcases (u.atStage .mem).storeWord_cases with ⟨_, hword⟩ | ⟨hinvalid, _⟩
  · rw [hword]
    rfl
  · nomatch h.symm.trans hinvalid

variable (u) (rd rs1 rs2 : RegIndex) (imm : Imm)

theorem wb_load :
    (stepsOf (.load rd rs1 imm)).wb u.atWriteback = (u.commitTo rd u.mLatch.resultBuffer).passedOn := rfl

/-- LDI commits the incremented base before the loaded word (40_pipeline.md R85). -/
theorem wb_ldi :
    (stepsOf (.ldi rd rs1 imm)).wb u.atWriteback =
      ((u.commitTo rs1 u.mLatch.newResultBuffer).commitTo rd u.mLatch.resultBuffer).passedOn := rfl

theorem wb_store : (stepsOf (.store rs1 rs2 imm)).wb u.atWriteback = u.passedOn := rfl

theorem wb_sti :
    (stepsOf (.sti rs1 rs2 imm)).wb u.atWriteback = (u.commitTo rs2 u.mLatch.newResultBuffer).passedOn := rfl

end

/-! ## Decode and Execute of a load or store (42_loadstore.md R139, R140) -/

/-- The state in which Execute finds the instruction `i` that Decode has dispatched in `s`. -/
def CoreState.atExecute (i : Instr) (s : CoreState xlen) : CoreState xlen :=
  ((s.atStage .dec).dispatched i).atStage .ex

/-- The bypass table and the latches are apart, so the order of the two writes is immaterial. -/
theorem CoreState.writeBypass_sendToMemory (base : RegIndex) (v : Word xlen) (l : Latch xlen) (u : CoreState xlen) :
    CoreState.writeBypass base v (u.sendToMemory l) = (u.writeBypass base v).sendToMemory l := rfl

section
variable (i : Instr) (s : CoreState xlen)

@[simp] theorem CoreState.atExecute_regs : (s.atExecute i).regs = s.regs := rfl
@[simp] theorem CoreState.atExecute_dmem : (s.atExecute i).dmem = s.dmem := rfl
@[simp] theorem CoreState.atExecute_bv : (s.atExecute i).bv = s.bv := rfl
@[simp] theorem CoreState.atExecute_byp : (s.atExecute i).byp = s.byp := rfl
@[simp] theorem CoreState.atExecute_inputs : (s.atExecute i).inputs = s.inputs := rfl

section
variable {s} {a : Word xlen} (h : s.validAddress a = true)
include h

/-- The address that Memory checks is the one that Execute formed. -/
theorem CoreState.validAddress_formAddress :
    ((s.atExecute i).formAddress a).validAddress ((s.atExecute i).formAddress a).mLatch.memoryAddress = true := by
  rw [CoreState.validAddress_congr (s := s) (by simp [CoreState.formAddress])]
  simpa [CoreState.formAddress] using h

theorem CoreState.validAddress_formAddressInc (base : RegIndex) (old : Word xlen) :
    ((s.atExecute i).formAddressInc base a old).validAddress
      ((s.atExecute i).formAddressInc base a old).mLatch.memoryAddress = true := by
  rw [CoreState.validAddress_congr (s := s) (by simp [CoreState.formAddressInc])]
  simpa [CoreState.formAddressInc] using h

end

variable {i} {r : RegIndex}

theorem CoreState.atExecute_rs1Value (h : fill1Of i = some r) : (s.atExecute i).eLatch.rs1Value = s.operand r :=
  CoreState.dispatched_rs1Value h _

theorem CoreState.atExecute_rs2Value (h : (sourcesOf i)[1]? = some r) :
    (s.atExecute i).eLatch.rs2Value = s.operand r := CoreState.dispatched_rs2Value h _

variable (rd rs1 rs2 : RegIndex) (imm : Imm)

/-- The base of LOAD is the operand of `rs1`. -/
theorem ex_load :
    (stepsOf (.load rd rs1 imm)).ex (s.atExecute (.load rd rs1 imm)) =
      (s.atExecute (.load rd rs1 imm)).formAddress (s.operand rs1 + immWord imm) := by
  rw [← addw_eq, ← CoreState.atExecute_rs1Value (i := .load rd rs1 imm) s rfl]
  rfl

/-- The base of LDI is the operand of `rs1`. -/
theorem ex_ldi :
    (stepsOf (.ldi rd rs1 imm)).ex (s.atExecute (.ldi rd rs1 imm)) =
      (s.atExecute (.ldi rd rs1 imm)).formAddressInc rs1 (s.operand rs1 + immWord imm) (s.operand rs1) := by
  rw [← addw_eq, ← CoreState.atExecute_rs1Value (i := .ldi rd rs1 imm) s rfl]
  rfl

/-- The base of STORE is the operand of `rs2`. -/
theorem ex_store :
    (stepsOf (.store rs1 rs2 imm)).ex (s.atExecute (.store rs1 rs2 imm)) =
      (s.atExecute (.store rs1 rs2 imm)).formAddress (s.operand rs2 + immWord imm) := by
  rw [← addw_eq, ← CoreState.atExecute_rs2Value (i := .store rs1 rs2 imm) s rfl]
  rfl

/-- The base of STI is the operand of `rs2`. -/
theorem ex_sti :
    (stepsOf (.sti rs1 rs2 imm)).ex (s.atExecute (.sti rs1 rs2 imm)) =
      (s.atExecute (.sti rs1 rs2 imm)).formAddressInc rs2 (s.operand rs2 + immWord imm) (s.operand rs2) := by
  rw [← addw_eq, ← CoreState.atExecute_rs2Value (i := .sti rs1 rs2 imm) s rfl]
  rfl

end

/-! ## The register banks (40_pipeline.md R85, R90, R103) -/

section
variable {s u : CoreState xlen} {rs : List RegIndex} {r : RegIndex}

theorem KeepsRegsBut.congr {t : CoreState xlen} (h : KeepsRegsBut rs s u) (hregs : t.regs = u.regs) (hsb : t.sb = u.sb)
    (hbv : t.bv = u.bv) (hbyp : t.byp = u.byp) : KeepsRegsBut rs s t :=
  ⟨hregs ▸ h.regs, hsb ▸ h.sb, hbv ▸ h.bv, hbyp ▸ h.byp⟩

/-- A dispatch changes the scoreboard bits of the destinations only. -/
theorem keepsRegsBut_atExecute (i : Instr) (s : CoreState xlen) : KeepsRegsBut (destsOf i) s (s.atExecute i) where
  regs _ _ := rfl
  sb r hr := (Bank.get_setAll ..).trans (by simp [hr])
  bv _ _ := rfl
  byp _ _ := rfl

theorem KeepsRegsBut.writeBypass (h : KeepsRegsBut rs s u) (hr : r ∈ rs) (v : Word xlen) :
    KeepsRegsBut rs s (u.writeBypass r v) where
  regs := h.regs
  sb := h.sb
  bv q hq := (Bank.get_put_ne _ _ (ne_of_mem_of_not_mem hr hq).symm).trans (h.bv q hq)
  byp q hq := (Bank.get_put_ne _ _ (ne_of_mem_of_not_mem hr hq).symm).trans (h.byp q hq)

theorem KeepsRegsBut.commitTo (h : KeepsRegsBut rs s u) (hr : r ∈ rs) (v : Word xlen) :
    KeepsRegsBut rs s (u.commitTo r v) := by
  refine ⟨fun q hq => ?_, fun q hq => ?_, fun q hq => ?_, h.byp⟩ <;>
    obtain ⟨hsb, hregs, hbv⟩ := CoreState.commitTo_other (s := u) v (ne_of_mem_of_not_mem hr hq).symm
  · rw [hregs, h.regs q hq]
  · rw [hsb, h.sb q hq]
  · rw [hbv, h.bv q hq]

theorem CoreState.commitTo_bv_of_ne (u : CoreState xlen) (v : Word xlen) {q : RegIndex} (h : q ≠ r) :
    Bank.get (u.commitTo r v).bv q = Bank.get u.bv q := by
  obtain ⟨_, _, hbv⟩ := CoreState.commitTo_other (s := u) v h
  exact hbv

/-- A bypass entry does not expire a second time: a later commit, to the same register or to another, leaves its valid
bit. -/
theorem CoreState.commitTo_commitTo_bv (u : CoreState xlen) (r q : RegIndex) (v w : Word xlen) :
    Bank.get ((u.commitTo r v).commitTo q w).bv r =
      validAfterCommit u.inputs.cfg.bypassExpiry (Bank.get u.bv r) := by
  by_cases h : r = q
  · subst h
    rw [CoreState.commitTo_bv_self, CoreState.commitTo_bv_self, CoreState.commitTo_inputs]
    cases u.inputs.cfg.bypassExpiry <;> rfl
  · rw [CoreState.commitTo_bv_of_ne _ _ h, CoreState.commitTo_bv_self]

end

/-! ## What the passage of a load or store leaves alone (42_loadstore.md R139, R140) -/

/-- From `s` to `u` the instruction that `s` dispatches has left Execute, and nothing has changed but latches, the data
memory and the banks of the registers listed. -/
structure ReachesMemory (rs : List RegIndex) (s u : CoreState xlen) : Prop where
  others : KeepsRegsBut rs s u
  flags : KeepsFlags s u
  fetch : KeepsFetch s u
  run : KeepsRun s u
  retired : u.retired = s.retired
  leftDecode : u.dLatch.hasInsn = false
  leftExecute : u.eLatch.hasInsn = false

/-- From `s` to `t` one instruction has been retired, nothing is in flight, and nothing has changed but latches, the
data memory and the banks of the registers listed. -/
structure Retires (rs : List RegIndex) (s t : CoreState xlen) : Prop where
  others : KeepsRegsBut rs s t
  flags : KeepsFlags s t
  fetch : KeepsFetch s t
  run : KeepsRun s t
  retired : t.retired = s.retired + 1
  drained : t.drained = true

section
variable {s u : CoreState xlen} {rs : List RegIndex} {r : RegIndex}

theorem reachesMemory_sendToMemory (i : Instr) (l : Latch xlen) (s : CoreState xlen) :
    ReachesMemory (destsOf i) s ((s.atExecute i).sendToMemory l) where
  others := (keepsRegsBut_atExecute i s).congr (by simp) (by simp) (by simp) (by simp)
  flags := by simp [KeepsFlags, CoreState.atExecute, CoreState.dispatched]
  fetch := by simp [KeepsFetch, CoreState.atExecute, CoreState.dispatched]
  run := by simp [KeepsRun, CoreState.atExecute, CoreState.dispatched]
  retired := by simp [CoreState.atExecute, CoreState.dispatched]
  leftDecode := by simp [CoreState.atExecute, CoreState.dispatched]
  leftExecute := by simp

theorem ReachesMemory.writeBypass (h : ReachesMemory rs s u) (hr : r ∈ rs) (v : Word xlen) :
    ReachesMemory rs s (u.writeBypass r v) :=
  ⟨h.others.writeBypass hr v, h.flags, h.fetch, h.run, h.retired, h.leftDecode, h.leftExecute⟩

theorem reachesMemory_formAddress (i : Instr) (a : Word xlen) (s : CoreState xlen) :
    ReachesMemory (destsOf i) s ((s.atExecute i).formAddress a) := reachesMemory_sendToMemory i _ s

theorem reachesMemory_formAddressInc {i : Instr} (hr : r ∈ destsOf i) (a old : Word xlen) (s : CoreState xlen) :
    ReachesMemory (destsOf i) s ((s.atExecute i).formAddressInc r a old) := by
  rw [CoreState.formAddressInc, ← CoreState.writeBypass_sendToMemory]
  exact (reachesMemory_sendToMemory i _ s).writeBypass hr _

theorem ReachesMemory.loaded (h : ReachesMemory rs s u) : ReachesMemory rs s u.loaded :=
  ⟨⟨h.others.regs, h.others.sb, h.others.bv, h.others.byp⟩, h.flags, h.fetch, h.run, h.retired, h.leftDecode,
    h.leftExecute⟩

theorem ReachesMemory.stored (h : ReachesMemory rs s u) : ReachesMemory rs s u.stored :=
  ⟨⟨h.others.regs, h.others.sb, h.others.bv, h.others.byp⟩, h.flags, h.fetch, h.run, h.retired, h.leftDecode,
    h.leftExecute⟩

theorem ReachesMemory.commitTo (h : ReachesMemory rs s u) (hr : r ∈ rs) (v : Word xlen) :
    ReachesMemory rs s (u.commitTo r v) :=
  ⟨h.others.commitTo hr v, h.flags, h.fetch, h.run, h.retired, h.leftDecode, h.leftExecute⟩

theorem ReachesMemory.retires (h : ReachesMemory rs s u) : Retires rs s u.passedOn where
  others := h.others.congr (by simp) (by simp) (by simp) (by simp)
  flags := by simpa [KeepsFlags, CoreState.passedOn, CoreState.atWriteback] using h.flags
  fetch := by simpa [KeepsFetch, CoreState.passedOn, CoreState.atWriteback] using h.fetch
  run := by simpa [KeepsRun, CoreState.passedOn, CoreState.atWriteback] using h.run
  retired := by simp [CoreState.passedOn, CoreState.atWriteback, h.retired]
  drained := by simp [CoreState.drained, CoreState.passedOn, CoreState.atWriteback, h.leftDecode, h.leftExecute]

end

/-! ## The passage of a load or store at a valid address (40_pipeline.md R83 to R88) -/

section
variable {s u : CoreState xlen} {i : Instr}

/-- Writeback of a load or store commits to destinations only. -/
theorem ReachesMemory.retires_wb (h : ReachesMemory (destsOf i) s u) (hi : isMemoryInstr i = true) :
    Retires (destsOf i) s ((stepsOf i).wb u.atWriteback) := by
  cases i with
  | load rd rs1 imm => exact (h.commitTo (by simp [destsOf]) _).retires
  | store rs1 rs2 imm => exact h.retires
  | ldi rd rs1 imm => exact ((h.commitTo (by simp [destsOf]) _).commitTo (by simp [destsOf]) _).retires
  | sti rs1 rs2 imm => exact (h.commitTo (by simp [destsOf]) _).retires
  | _ => nomatch hi

theorem ne_nop_of_isMemoryInstr (hi : isMemoryInstr i = true) : i ≠ .nop := by
  rintro rfl
  nomatch hi

/-- The passage of a load or store that Memory passes on as `u` holds it. -/
theorem passage_of_isMemoryInstr (hi : isMemoryInstr i = true) (hcan : s.canDispatch i)
    (hmem : ((stepsOf i).mem (((stepsOf i).ex (s.atExecute i)).atStage .mem)).atStage .wb = u.atWriteback)
    (hu : ReachesMemory (destsOf i) s u) :
    ∃ s1 s2 s3, Passage i s s1 s2 s3 ((stepsOf i).wb u.atWriteback) ∧
      Retires (destsOf i) s ((stepsOf i).wb u.atWriteback) := by
  have hretires := hu.retires_wb hi
  rw [← hmem] at hretires ⊢
  exact ⟨_, _, _, passage_of_canDispatch (ne_nop_of_isMemoryInstr hi) hcan, hretires⟩

end

/-! ## The statements -/

/-- Settles O15: Execute does not produce the loaded word, so only the commit touches the bypass entry of `rd`. -/
theorem loadCompletes : Obligations.LoadCompletes := by
  intro xlen s rd rs1 imm hcan hvalid
  obtain ⟨s1, s2, s3, hpass, hrest⟩ := passage_of_isMemoryInstr rfl hcan
    (by rw [ex_load]; exact CoreState.loadWord_of_validAddress (CoreState.validAddress_formAddress _ hvalid))
    (reachesMemory_formAddress ..).loaded
  rw [wb_load] at hpass hrest
  refine ⟨s1, s2, s3, _, hpass, ?reg, ?pending, ?bypass, ?valid, hrest.others, hrest.flags, fun _ => ?memory,
    hrest.fetch, hrest.run, hrest.retired, hrest.drained⟩
  case valid =>
    rw [CoreState.passedOn_bv, CoreState.commitTo_bv_self]
    simp [CoreState.formAddress]
  all_goals simp [CoreState.formAddress]

/-- Settles O16: Writeback commits the incremented base and then the loaded word, which stands if they are one
register. -/
theorem loadIncrementCompletes : Obligations.LoadIncrementCompletes := by
  intro xlen s rd rs1 imm hcan hvalid
  obtain ⟨s1, s2, s3, hpass, hrest⟩ := passage_of_isMemoryInstr (i := .ldi rd rs1 imm) rfl hcan
    (by rw [ex_ldi]; exact CoreState.loadWord_of_validAddress (CoreState.validAddress_formAddressInc _ hvalid _ _))
    (reachesMemory_formAddressInc (by simp [destsOf]) ..).loaded
  rw [wb_ldi] at hpass hrest
  refine ⟨s1, s2, s3, _, hpass, ?reg, fun hne => ?base, ?pending, ?pendingBase, ?bypassBase, ?validBase,
    fun hne => ⟨?bypass, ?valid⟩, hrest.others, hrest.flags, fun _ => ?memory, hrest.fetch, hrest.run, hrest.retired,
    hrest.drained⟩
  case base => simp [CoreState.formAddressInc, addw_eq, hne]
  case validBase =>
    rw [CoreState.passedOn_bv, CoreState.commitTo_commitTo_bv]
    simp [CoreState.formAddressInc]
  case bypass => simp [CoreState.formAddressInc, hne.symm]
  case valid =>
    rw [CoreState.passedOn_bv, CoreState.commitTo_bv_self, CoreState.commitTo_bv_of_ne _ _ hne.symm]
    simp [CoreState.formAddressInc, hne.symm]
  all_goals simp [CoreState.formAddressInc, addw_eq, Bank.get_put]

/-- Settles O17: STORE has no destination, and Memory writes the operand of `rs1` to the one word. -/
theorem storeCompletes : Obligations.StoreCompletes := by
  intro xlen s rs1 rs2 imm hcan hwf hvalid
  obtain ⟨s1, s2, s3, hpass, hrest⟩ := passage_of_isMemoryInstr rfl hcan
    (by rw [ex_store]; exact CoreState.storeWord_of_validAddress (CoreState.validAddress_formAddress _ hvalid))
    (reachesMemory_formAddress ..).stored
  rw [wb_store] at hpass hrest
  have hdata := CoreState.atExecute_rs1Value (i := .store rs1 rs2 imm) s rfl
  refine ⟨s1, s2, s3, _, hpass, ?word, fun a ha => ?memory, hrest.others, hrest.flags, hrest.fetch, hrest.run,
    hrest.retired, hrest.drained⟩
  case word => simp [CoreState.formAddress, hdata, Memory.read_write_self _ _ hwf]
  case memory => simp [CoreState.formAddress, Memory.read_write_ne _ _ ha]

/-- Settles O18: as STORE, and Execute produces the incremented base, which Writeback commits. -/
theorem storeIncrementCompletes : Obligations.StoreIncrementCompletes := by
  intro xlen s rs1 rs2 imm hcan hwf hvalid
  obtain ⟨s1, s2, s3, hpass, hrest⟩ := passage_of_isMemoryInstr (i := .sti rs1 rs2 imm) rfl hcan
    (by rw [ex_sti]; exact CoreState.storeWord_of_validAddress (CoreState.validAddress_formAddressInc _ hvalid _ _))
    (reachesMemory_formAddressInc (by simp [destsOf]) ..).stored
  rw [wb_sti] at hpass hrest
  have hdata := CoreState.atExecute_rs1Value (i := .sti rs1 rs2 imm) s rfl
  refine ⟨s1, s2, s3, _, hpass, ?word, fun a ha => ?memory, ?base, ?pending, ?bypass, ?valid, hrest.others, hrest.flags,
    hrest.fetch, hrest.run, hrest.retired, hrest.drained⟩
  case word => simp [CoreState.formAddressInc, hdata, Memory.read_write_self _ _ hwf]
  case memory => simp [CoreState.formAddressInc, Memory.read_write_ne _ _ ha]
  case valid =>
    rw [CoreState.passedOn_bv, CoreState.commitTo_bv_self]
    simp [CoreState.formAddressInc]
  all_goals simp [CoreState.formAddressInc, addw_eq]

end Sys2Proof.Machine

/-!
PROOFS. The statement of 43_control.md: what the passage of each conditional branch leaves.
-/

namespace Sys2Proof.Machine

open Sys2Proof.Claims

variable {xlen : Nat}

/-! ## What the passage of a conditional branch leaves (43_control.md R145; 40_pipeline.md R92 to R94) -/

section
variable {s t : CoreState xlen}

/-- An instruction without a destination that leaves the data memory alone commits nothing. -/
theorem Retires.committedNothing (h : Retires [] s t) (hmem : t.dmem = s.dmem) : CommittedNothing s t :=
  ⟨h.others, fun _ => by rw [hmem], h.run, h.retired, h.drained⟩

/-- A redirect writes `PC`, the Fetch latch and a signal, which are not part of the claim, and empties the Decode
latch. -/
theorem committedNothing_redirect (h : CommittedNothing s t) (target : Word xlen) :
    CommittedNothing s (t.redirect target) where
  others := h.others.congr rfl rfl rfl rfl
  memory := h.memory
  run := h.run
  retired := h.retired
  drained := by
    have hdrained := h.drained
    rw [CoreState.drained] at hdrained ⊢
    simp_all

/-- What is left of a branch that is taken is what is left of one that is not, redirected: no later stage touches what
the redirect writes. -/
theorem CoreState.passedOn_branch (taken : Bool) (target : Word xlen) (u : CoreState xlen) :
    (u.branch taken target).passedOn =
      if taken then (u.sendToMemory u.eLatch).passedOn.redirect target else (u.sendToMemory u.eLatch).passedOn := by
  cases taken <;> rfl

variable {i : Instr} {cond : CoreState xlen → Bool} {imm : Imm}

/-- Execute resolves the branch, and Memory and Writeback only pass it on. -/
theorem passage_of_condBranch (hsteps : stepsOf i = condBranch cond imm) (hn : i ≠ .nop) (hcan : s.canDispatch i) :
    ∃ s1 s2 s3, Passage i s s1 s2 s3
      ((s.atExecute i).branch (cond (s.atExecute i)) (s.dLatch.pc + immWord imm)).passedOn := by
  have hpass := passage_of_canDispatch hn hcan
  rw [hsteps] at hpass
  rw [← addw_eq]
  exact ⟨_, _, _, hpass⟩

/-- An instruction with the stages of a conditional branch passes as one: Execute finds the flags as they were. -/
theorem passesAsBranch_of_condBranch (hsteps : stepsOf i = condBranch cond imm) (hn : i ≠ .nop)
    (hcan : s.canDispatch i) (hdests : destsOf i = []) (hcond : cond (s.atExecute i) = cond s) :
    PassesAsBranch i (cond s) imm s := by
  obtain ⟨s1, s2, s3, hpass⟩ := passage_of_condBranch hsteps hn hcan
  have hrest := (reachesMemory_sendToMemory i (s.atExecute i).eLatch s).retires
  rw [hdests] at hrest
  have hnothing := hrest.committedNothing (by simp)
  rw [hcond, CoreState.passedOn_branch] at hpass
  refine ⟨s1, s2, s3, _, hpass, ?_⟩
  cases cond s with
  | false => exact ⟨hnothing, hrest.flags, hrest.fetch⟩
  | true => exact ⟨committedNothing_redirect hnothing _, hrest.flags, rfl, congrArg Latch.filled hrest.fetch.2⟩

end

/-- Settles O19: the four are conditional branches, each on its own flag, and none has a register to wait for. -/
theorem conditionalBranchesComplete : Obligations.ConditionalBranchesComplete := by
  intro xlen s imm
  refine ⟨?bz, ?bnz, ?bp, ?bnp⟩
  case bz => exact passesAsBranch_of_condBranch (cond := fun t => t.zeroFlag) rfl nofun ⟨rfl, rfl⟩ rfl rfl
  case bnz => exact passesAsBranch_of_condBranch (cond := fun t => !t.zeroFlag) rfl nofun ⟨rfl, rfl⟩ rfl rfl
  case bp => exact passesAsBranch_of_condBranch (cond := fun t => t.positiveFlag) rfl nofun ⟨rfl, rfl⟩ rfl rfl
  case bnp => exact passesAsBranch_of_condBranch (cond := fun t => !t.positiveFlag) rfl nofun ⟨rfl, rfl⟩ rfl rfl

end Sys2Proof.Machine

/-!
PROOFS. The statements of 44_system.md: what the passage of HALT leaves, and what Decode leaves of a NOP.
-/

namespace Sys2Proof.Machine

variable {xlen : Nat}

/-! ## How a committed HALT ends the run (44_system.md R153, R154; 40_pipeline.md R87) -/

/-- Execute and Memory only pass HALT on, and Writeback ends the run after it has retired it. -/
theorem passage_halt (s : CoreState xlen) :
    ∃ s1 s2 s3, Passage .halt s s1 s2 s3
      ((s.atExecute .halt).sendToMemory (s.atExecute .halt).eLatch).passedOn.halt.countTick :=
  ⟨_, _, _, passage_of_canDispatch nofun ⟨rfl, rfl⟩⟩

/-- Settles O21: HALT is retired like any instruction without a destination, and the end of the run then writes only the
status and the clock. -/
theorem haltCompletes : Obligations.HaltCompletes := by
  intro xlen s
  obtain ⟨s1, s2, s3, hpass⟩ := passage_halt s
  have hrest : Retires [] s _ := (reachesMemory_sendToMemory .halt (s.atExecute .halt).eLatch s).retires
  obtain ⟨hclock, _, hinputs⟩ := hrest.run
  refine ⟨s1, s2, s3, _, hpass, rfl, ?clock, hrest.retired, hrest.drained, ?others, hrest.flags,
    fun _ => ?memory, hrest.fetch, hinputs⟩
  case clock => rw [CoreState.countTick_clock, CoreState.halt_clock, hclock]
  case others => exact hrest.others.congr rfl rfl rfl rfl
  case memory => simp

/-! ## What Decode leaves of a NOP (44_system.md R152; 40_pipeline.md R106) -/

/-- Settles O22: the Decode step of NOP checks nothing and only drops it; the emptied latch keeps its other fields
(40_pipeline.md R81). -/
theorem nopIsDroppedInDecode : Obligations.NopIsDroppedInDecode := fun _ hdec => exec_dec .nop hdec

end Sys2Proof.Machine

/-!
PROOFS. The statements of 60_exceptions.md: what raises each fault and that it writes the status alone, the fault that a tick
with several causes reports, and the paused edge.
-/

namespace Sys2Proof.Machine

open Sys2Proof.Claims

variable {xlen : Nat}

/-! ## Decode: a register that does not exist, and an illegal opcode (60_exceptions.md R159, R161) -/

theorem wellFormed_iff {cfg : Config} {i : Instr} :
    i.wellFormed cfg = true ↔ ∀ r ∈ i.usedRegs, r.toNat < cfg.numRegs := by simp [Instr.wellFormed, Config.hasReg]

/-- The registers are checked before the hazards (60_exceptions.md R166). -/
theorem dec_of_not_wellFormed {i : Instr} {s : CoreState xlen} (hwf : i.wellFormed s.inputs.cfg = false) :
    (stepsOf i).dec s = s.raiseFault .registerIndexOutOfRange .dec s.dLatch.pc := by
  have hn : i ≠ .nop := by
    rintro rfl
    nomatch hwf
  have hused : ¬(needsOf i).used.all s.inputs.cfg.hasReg = true := Bool.eq_false_iff.mp hwf
  rw [stepsOf_dec hn, CoreState.decodeWith, if_neg hused]

/-- Decode of a well-formed instruction drops a NOP, stalls or dispatches, none of which writes the status. -/
theorem dec_status_of_wellFormed {i : Instr} {s : CoreState xlen} (hwf : i.wellFormed s.inputs.cfg = true) :
    ((stepsOf i).dec s).status = s.status := by
  by_cases hn : i = .nop
  · subst hn
    rfl
  · cases hready : (sourcesOf i).all s.ready with
    | false =>
      rw [dec_of_not_ready hn hwf hready]
      rfl
    | true =>
      rw [dec_of_canDispatch hn ⟨hwf, hready⟩]
      rfl

/-- An instruction whose registers exist does not fault in Decode. -/
theorem exec_dec_running {i : Instr} {s : CoreState xlen} (hst : s.signals.stage = .dec) (hrun : s.status = .running)
    (hregs : ∀ r ∈ i.usedRegs, r.toNat < s.inputs.cfg.numRegs) :
    ∃ t : CoreState xlen, exec i ⟨_, s⟩ = .next ⟨_, t⟩ ∧ t.status = .running :=
  ⟨_, exec_dec i hst, (dec_status_of_wellFormed (wellFormed_iff.mpr hregs)).trans hrun⟩

/-- Settles O26: the check of the registers comes first, only its failure writes the status, and a register field of 5 bits
cannot name a register 32 or above. -/
theorem missingRegisterFaults : Obligations.MissingRegisterFaults := by
  refine ⟨fun i s r hst hr hmissing => ?_, rfl, rfl, fun _ _ => exec_dec_running, rfl, fun i s hst hrun h32 =>
    exec_dec_running hst hrun fun r _ => h32 ▸ r.isLt⟩
  have hwf : i.wellFormed s.inputs.cfg = false :=
    Bool.eq_false_iff.mpr fun hwf => Nat.not_lt.mpr hmissing (wellFormed_iff.mp hwf r hr)
  rw [exec_dec i hst, dec_of_not_wellFormed hwf]
  rfl

/-- The opcodes from 0x16 on are those of no instruction (30_encoding.md R67). -/
theorem Latch.instr_eq_none_of_opcode {l : Latch xlen} (h : 0x16 ≤ l.opcode.toNat) : l.instr = none := by
  have hillegal := illegalOpcodesAreExactly (packRecord l.opcode l.rd l.rs1 l.rs2 l.imm)
  rw [opcodeField_packRecord, decode_packRecord] at hillegal
  rw [Latch.instr, hillegal.mpr h]

theorem decodeStage_of_illegal {u : CoreState xlen} (hlive : u.dLatch.hasInsn = true) (hi : u.dLatch.instr = none) :
    decodeStage u = .next ⟨_, u.raiseFault .illegalInstruction .dec u.dLatch.pc⟩ := by
  simp [decodeStage, stageWork, hlive, hi]

/-- Settles O27: no instruction has the opcode, whatever the other fields hold. -/
theorem illegalInstructionFaults : Obligations.IllegalInstructionFaults :=
  ⟨fun _ hlive hop => decodeStage_of_illegal hlive (Latch.instr_eq_none_of_opcode hop), rfl, rfl⟩

/-! ## Execute: a DIV by 0 (60_exceptions.md R160; 41_alu.md R131) -/

theorem CoreState.branch_status (taken : Bool) (target : Word xlen) (s : CoreState xlen) :
    (s.branch taken target).status = s.status := by cases taken <;> rfl

/-- Of all Execute can do only a DIV by 0 writes the status. -/
theorem ex_status {i : Instr} {s : CoreState xlen}
    (h : ∀ rd rs1 rs2, i = .div rd rs1 rs2 → s.eLatch.rs2Value ≠ 0) : ((stepsOf i).ex s).status = s.status := by
  cases i with
  | div rd rs1 rs2 =>
    simp only [stepsOf, if_neg (h rd rs1 rs2 rfl)]
    rfl
  | bz | bnz | bp | bnp => exact CoreState.branch_status ..
  | _ => rfl

/-- Settles O28: the DIV checks its divisor first. -/
theorem divideByZeroFaults : Obligations.DivideByZeroFaults := by
  refine ⟨fun s rd rs1 rs2 hst h0 => ?_, rfl, rfl, fun i s hst hrun hdiv =>
    ⟨_, exec_ex i hst, (ex_status hdiv).trans hrun⟩⟩
  rw [exec_ex _ hst, ex_div_by_zero rd rs1 rs2 h0]
  rfl

/-! ## Memory: an address that is not valid (60_exceptions.md R158; 20_memory.md R43) -/

theorem CoreState.validAddress_eq_false_iff {s : CoreState xlen} {a : Word xlen} :
    s.validAddress a = false ↔ signed a < 0 ∨ (s.inputs.cfg.dmemSize : Int) ≤ signed a := by
  simp only [CoreState.validAddress, decide_eq_false_iff_not]
  omega

/-- A load or store checks its address first. -/
theorem mem_of_invalidAddress {i : Instr} {s : CoreState xlen} (hi : isMemoryInstr i = true)
    (h : s.validAddress s.mLatch.memoryAddress = false) :
    (stepsOf i).mem s = s.raiseFault .dataAddressOutOfRange .mem s.mLatch.pc := by
  cases i with
  | load | ldi =>
    rcases s.loadWord_cases with ⟨hvalid, _⟩ | ⟨_, hfault⟩
    · nomatch h.symm.trans hvalid
    · exact hfault
  | store | sti =>
    rcases s.storeWord_cases with ⟨hvalid, _⟩ | ⟨_, hfault⟩
    · nomatch h.symm.trans hvalid
    · exact hfault
  | _ => nomatch hi

/-- Settles O29: the four are the instructions that access the data memory. -/
theorem dataAddressOutOfRangeFaults : Obligations.DataAddressOutOfRangeFaults := by
  refine ⟨fun s r q imm hst hrange i hi => ?_, rfl, rfl⟩
  have hmem : isMemoryInstr i = true := by
    simp only [List.mem_cons, List.not_mem_nil, or_false] at hi
    rcases hi with rfl | rfl | rfl | rfl <;> rfl
  rw [exec_mem i hst, mem_of_invalidAddress hmem (CoreState.validAddress_eq_false_iff.mpr hrange)]
  rfl

/-! ## A tick that a fault stops (60_exceptions.md R156, R163, R166) -/

/-- From `s` to `u` nothing has written what Decode and Fetch own, nor the clock. -/
structure KeepsFront (s u : CoreState xlen) : Prop where
  decode : u.dLatch = s.dLatch
  fetch : KeepsFetch s u
  clock : u.clock = s.clock

theorem KeepsFront.atStage {s u : CoreState xlen} (h : KeepsFront s u) (stage : Stage) :
    KeepsFront s (u.atStage stage) := ⟨h.decode, h.fetch, h.clock⟩

/-- A fault raised before Decode and Fetch have done anything is reported, in the status and at the ports. -/
theorem KeepsFront.faultReported {s u : CoreState xlen} (h : KeepsFront s u) (code : FaultCode) (stage : FaultStage)
    (pc : Word xlen) :
    FaultReported code (faultCodeNumber code) stage (faultStageNumber stage) pc s
      (u.raiseFault code stage pc).restSignals :=
  ⟨rfl, rfl, rfl, rfl, by simp [finished], h.decode, h.fetch, h.clock⟩

section
variable {s u : CoreState xlen} (hs : s.ticking)
include hs

/-- Where Decode ends the tick, Fetch and the end of the tick do not run. -/
theorem step_of_decode_stopped (h : afterDecode s = .next ⟨_, u⟩) (hstop : u.status ≠ .running) :
    step ⟨_, s⟩ = .next ⟨_, u.restSignals⟩ := by
  have hF : afterFetch s = .next ⟨_, u⟩ := andThen_stopped h hstop
  rw [step_of_ticking hs, andThen_stopped hF hstop]
  rfl

/-- Where Execute ends the tick, Decode does not run either. -/
theorem step_of_execute_stopped (h : afterExecute s = .next ⟨_, u⟩) (hstop : u.status ≠ .running) :
    step ⟨_, s⟩ = .next ⟨_, u.restSignals⟩ :=
  step_of_decode_stopped hs (andThen_stopped h hstop) hstop

/-- Where Memory ends the tick, Execute does not run either. -/
theorem step_of_memory_stopped (h : afterMemory s = .next ⟨_, u⟩) (hstop : u.status ≠ .running) :
    step ⟨_, s⟩ = .next ⟨_, u.restSignals⟩ :=
  step_of_execute_stopped hs (andThen_stopped h hstop) hstop

end

/-! ## The oldest fault is in Memory -/

/-- Where Writeback commits no HALT the tick goes on, and Memory finds what the tick began with. -/
theorem afterWriteback_goesOn {s : CoreState xlen} (hs : s.ticking) (hW : s.NoHaltCommit) :
    ∃ a : CoreState xlen, afterWriteback s = .next ⟨_, a⟩ ∧ a.status = .running ∧ KeepsFront s a ∧ s.SameAccess a ∧
      a.eLatch = s.eLatch ∧ KeepsFlags s a ∧ a.byp = s.byp := by
  obtain ⟨a, ha⟩ := afterWriteback_answers_next s
  obtain ⟨hdmem, hz, hp, hpc, hbyp, hF, hD, hE, hM, hin, -, -, -, hend⟩ := writebackStage_frame rfl ha
  obtain ⟨hstatus, hclock, -⟩ := hend.resolve_right fun ⟨_, _, hhalt⟩ => hW hhalt
  exact ⟨a, ha, hstatus.trans (CoreState.running_of_ticking hs), ⟨hD, ⟨hpc, hF⟩, hclock⟩, ⟨hdmem, hM, hin⟩, hE,
    ⟨hz, hp⟩, hbyp⟩

/-- A data access at an address that is not valid ends the tick in Memory, with Writeback's commit alone done. -/
theorem step_of_memory_fault {s : CoreState xlen} {i : Instr} (hs : s.ticking) (hW : s.NoHaltCommit)
    (hlive : s.mLatch.hasInsn = true) (hi : s.mLatch.instr = some i) (hmem : isMemoryInstr i = true)
    (hbad : s.validAddress s.mLatch.memoryAddress = false) :
    ∃ t : CoreState xlen, step ⟨_, s⟩ = .next ⟨_, t⟩ ∧
      FaultReported .dataAddressOutOfRange 1 .mem 4 s.mLatch.pc s t ∧ t.mLatch = s.mLatch ∧ t.eLatch = s.eLatch ∧
      KeepsMemory s t ∧ KeepsFlags s t ∧ t.byp = s.byp := by
  obtain ⟨a, ha, hrun, hfront, ⟨hdmem, hM, hin⟩, hE, hflags, hbyp⟩ := afterWriteback_goesOn hs hW
  have hbad' : (a.atStage .mem).validAddress (a.atStage .mem).mLatch.memoryAddress = false := by
    rw [CoreState.validAddress_congr (s := s) (by simp [hin]), CoreState.atStage_mLatch, hM, hbad]
  have hfault : afterMemory s =
      .next ⟨_, (a.atStage .mem).raiseFault .dataAddressOutOfRange .mem s.mLatch.pc⟩ := by
    rw [afterMemory, andThen_running ha hrun,
      memoryStage_of_instr (i := i) rfl (by simp [hM, hlive]) (by simp [hM, hi]), mem_of_invalidAddress hmem hbad',
      CoreState.atStage_mLatch, hM]
  exact ⟨_, step_of_memory_stopped hs hfault nofun, (hfront.atStage .mem).faultReported .., hM, hE,
    fun _ => congrArg (Memory.read · _) hdmem, hflags, hbyp⟩

/-! ## The oldest fault is in Execute -/

/-- A tick that goes on from Memory has left `PC`, `F` and the bypass values alone, and `M` empty. -/
theorem afterMemory_front {s b : CoreState xlen} (h : afterMemory s = .next ⟨_, b⟩) (hrun : b.status = .running) :
    KeepsFetch s b ∧ b.byp = s.byp ∧ b.mLatch.hasInsn = false := by
  obtain ⟨a, ha, ⟨hstop, rfl⟩ | ⟨_, hb⟩⟩ := andThen_cases (afterWriteback_answers_next s) h
  · exact absurd hrun hstop
  obtain ⟨-, -, -, hpc, hbyp, hF, -⟩ := writebackStage_frame rfl ha
  obtain ⟨-, -, -, hbyp', -, -, hpc', hF', -, -, -, -, -, -, ⟨_, hempty⟩ | hfault⟩ := memoryStage_frame rfl hb
  · exact ⟨⟨hpc'.trans hpc, hF'.trans hF⟩, hbyp'.trans hbyp, hempty⟩
  · nomatch hrun.symm.trans hfault

/-- A DIV by 0 ends the tick in Execute, with nothing written after Memory. -/
theorem step_of_execute_fault {s : CoreState xlen} {rd rs1 rs2 : RegIndex} (hs : s.ticking) (hW : s.NoHaltCommit)
    (hM : s.NoMemoryFault) (hlive : s.eLatch.hasInsn = true) (hi : s.eLatch.instr = some (.div rd rs1 rs2))
    (h0 : s.eLatch.rs2Value = 0) :
    ∃ t : CoreState xlen, step ⟨_, s⟩ = .next ⟨_, t⟩ ∧ FaultReported .divideByZero 3 .ex 3 s.eLatch.pc s t ∧
      t.mLatch.hasInsn = false ∧ t.eLatch = s.eLatch ∧ KeepsFlags s t ∧ t.byp = s.byp := by
  obtain ⟨b, hb, hgo⟩ := afterMemory_goesOn hs hW hM
  obtain ⟨hfetch, hbyp, hempty⟩ := afterMemory_front hb hgo.running
  have hfault : afterExecute s = .next ⟨_, (b.atStage .ex).raiseFault .divideByZero .ex s.eLatch.pc⟩ := by
    rw [afterExecute, andThen_running hb hgo.running,
      executeStage_of_instr (i := .div rd rs1 rs2) rfl (by simp [hgo.eLatch, hlive]) (by simp [hgo.eLatch, hi]),
      ex_div_by_zero rd rs1 rs2 (by simp [hgo.eLatch, h0]), CoreState.atStage_eLatch, hgo.eLatch]
  have hfront : KeepsFront s b := ⟨hgo.dLatch, hfetch, hgo.clock⟩
  exact ⟨_, step_of_execute_stopped hs hfault nofun, (hfront.atStage .ex).faultReported .., hempty, hgo.eLatch,
    hgo.flags, hbyp⟩

/-! ## The oldest fault is in Decode -/

theorem CoreState.ExecuteGoesOn.congr {s u : CoreState xlen} (h : s.ExecuteGoesOn) (hE : u.eLatch = s.eLatch)
    (hflags : KeepsFlags s u) : u.ExecuteGoesOn := by
  intro hlive i hi
  rw [hE] at hlive hi ⊢
  rw [takenTarget_congr hflags]
  exact h hlive i hi

/-- The tick from `s` has gone through Execute without a redirect and left `c`: Decode finds its record, and `E` empty. -/
structure CoreState.ReachesDecode (s c : CoreState xlen) : Prop where
  running : c.status = .running
  inputs : c.inputs = s.inputs
  front : KeepsFront s c
  eEmpty : c.eLatch.hasInsn = false
  pending : ∀ r, Bank.get c.sb r = true → Bank.get s.sb r = true

theorem afterExecute_reachesDecode {s : CoreState xlen} (hs : s.ticking) (hW : s.NoHaltCommit) (hM : s.NoMemoryFault)
    (hE : s.ExecuteGoesOn) : ∃ c : CoreState xlen, afterExecute s = .next ⟨_, c⟩ ∧ s.ReachesDecode c := by
  obtain ⟨b, hb, hgo⟩ := afterMemory_goesOn hs hW hM
  obtain ⟨hfetch, _⟩ := afterMemory_front hb hgo.running
  obtain ⟨c, hc⟩ := afterExecute_answers_next s
  have hc' : executeStage (b.atStage .ex) = .next ⟨_, c⟩ := (andThen_running hb hgo.running).symm.trans hc
  have hE' : (b.atStage .ex).ExecuteGoesOn := hE.congr hgo.eLatch hgo.flags
  have hfront : KeepsFront s (b.atStage .ex) := ⟨hgo.dLatch, hfetch, hgo.clock⟩
  refine ⟨c, hc, ?_⟩
  rcases executeStage_cases rfl hc' with
    ⟨hempty, rfl⟩ | ⟨hlive, ⟨rd, rs1, rs2, hi⟩, h0, _⟩ | ⟨hlive, i, target, hi, htaken, _⟩ |
      ⟨_, _, byp, bv, z, p, l, rfl, _⟩
  · exact ⟨hgo.running, hgo.inputs, hfront, hempty, hgo.pending⟩
  · obtain ⟨_, hdiv⟩ := hE' hlive _ hi
    exact absurd h0 (hdiv rd rs1 rs2 rfl)
  · obtain ⟨hnone, _⟩ := hE' hlive i hi
    nomatch htaken.symm.trans hnone
  · exact ⟨hgo.running, hgo.inputs, ⟨hfront.decode, hfront.fetch, hfront.clock⟩, rfl, hgo.pending⟩

/-- A fault that Decode raises ends the tick there, with no register made pending. -/
theorem CoreState.ReachesDecode.step_of_fault {s c : CoreState xlen} (hc : s.ReachesDecode c) (hs : s.ticking)
    (hE : afterExecute s = .next ⟨_, c⟩) {code : FaultCode}
    (hfault : decodeStage (c.atStage .dec) =
      .next ⟨_, (c.atStage .dec).raiseFault code .dec (c.atStage .dec).dLatch.pc⟩) :
    ∃ t : CoreState xlen, step ⟨_, s⟩ = .next ⟨_, t⟩ ∧
      FaultReported code (faultCodeNumber code) .dec 2 s.dLatch.pc s t ∧ t.eLatch.hasInsn = false ∧
      ∀ r, Bank.get t.sb r = true → Bank.get s.sb r = true := by
  have hD : afterDecode s = .next ⟨_, (c.atStage .dec).raiseFault code .dec s.dLatch.pc⟩ := by
    rw [afterDecode, andThen_running hE hc.running, hfault, CoreState.atStage_dLatch, hc.front.decode]
  exact ⟨_, step_of_decode_stopped hs hD nofun, (hc.front.atStage .dec).faultReported .., hc.eEmpty, hc.pending⟩

/-- Settles O51: the tick runs its stages oldest instruction first, and a fault stops it there. -/
theorem oldestFaultIsReported : Obligations.OldestFaultIsReported := by
  refine ⟨fun _ _ => step_of_memory_fault, fun _ _ _ _ => step_of_execute_fault,
    fun s hs hW hM hgo hlive => ?decode⟩
  case decode =>
    obtain ⟨c, hE, hc⟩ := afterExecute_reachesDecode hs hW hM hgo
    have hD : (c.atStage .dec).dLatch = s.dLatch := hc.front.decode
    refine ⟨fun hi => ?illegal, fun j hi hwf => ?missing⟩
    case illegal => exact hc.step_of_fault hs hE (decodeStage_of_illegal (by rw [hD, hlive]) (by rw [hD, hi]))
    case missing =>
      have hwf' : j.wellFormed (c.atStage .dec).inputs.cfg = false := by rw [CoreState.atStage_inputs, hc.inputs, hwf]
      refine hc.step_of_fault hs hE (code := .registerIndexOutOfRange) ?_
      rw [decodeStage_of_instr (i := j) rfl (by rw [hD, hlive]) (by rw [hD, hi]), dec_of_not_wellFormed hwf']

/-! ## A paused edge (60_exceptions.md R173) -/

/-- Settles O36: of all a step can do, only holding the state is left to a valid core that is neither reset nor ticking. -/
theorem pausedEdgeHoldsEverything : Obligations.PausedEdgeHoldsEverything := by
  intro xlen s hvalid hrst hpaused
  rcases step_cases s with ⟨hinvalid, _⟩ | ⟨_, hreset, _⟩ | ⟨_, _, _, hheld⟩ | ⟨⟨_, _, htick, _⟩, _⟩
  · exact absurd hvalid hinvalid
  · nomatch hrst.symm.trans hreset
  · exact hheld
  · nomatch hpaused.symm.trans htick

end Sys2Proof.Machine

/-!
PROOFS. The statements of 70_reset_and_hazards.md: what a reset edge leaves, the invariant of every reset state, and the first
tick after reset.
-/

namespace Sys2Proof.Machine

variable {xlen : Nat}

/-! ## The reset edge (70_reset_and_hazards.md R178, R179) -/

/-- An edge with `rst = 1` resets a valid core, whatever `tick_en` and the status hold. -/
theorem step_of_reset {s : CoreState xlen} (hv : s.validCore) (hrst : s.inputs.rst = true) :
    step ⟨_, s⟩ = .next ⟨_, CoreState.resetWith s.inputs⟩ := by
  rcases step_cases s with ⟨hinvalid, _⟩ | ⟨_, _, hreset⟩ | ⟨_, hlow, _⟩ | ⟨⟨_, hlow, _⟩, _⟩
  · exact absurd hv hinvalid
  · exact hreset
  · nomatch hrst.symm.trans hlow
  · nomatch hrst.symm.trans hlow

/-- Settles O37: the edge leaves the reset state for the inputs it had. -/
theorem resetEdgeResetsEverything : Obligations.ResetEdgeResetsEverything := by
  intro xlen s hv hrst
  obtain ⟨hF, hD, hE, hM, hW⟩ := CoreState.resetWith_latches s.inputs
  exact ⟨_, step_of_reset hv hrst, CoreState.resetWith_banks s.inputs, CoreState.resetWith_read s.inputs, rfl, rfl, rfl,
    hF, hD, hE, hM, hW, rfl, rfl, rfl, rfl⟩

/-- Settles O56: `State.reset` is the reset state for the standard inputs. -/
theorem resetHasInvariant : Obligations.ResetHasInvariant :=
  ⟨CoreState.resetWith_inv Inputs.standard, CoreState.resetWith_inv⟩

/-! ## Where Fetch reads after reset (20_memory.md R49; 40_pipeline.md R108) -/

/-- Words that hold the code's addresses hold `CODE_BASE`, so that `PC` at reset is that address. -/
theorem signed_codeBase {inputs : Inputs xlen} (hfit : inputs.AddressesFit) :
    signed (BitVec.ofNat xlen inputs.cfg.codeBase) = inputs.cfg.codeBase := by
  have hbase : inputs.cfg.codeBase < 2 ^ (xlen - 1) := (Nat.le_add_right _ _).trans_lt hfit
  cases xlen with
  | zero =>
    have hzero : inputs.cfg.codeBase = 0 := Nat.lt_one_iff.mp hbase
    rw [hzero]
    rfl
  | succ m => exact signed_ofNat_of_fits hbase

/-- `PC` at reset is the address of record 0. -/
theorem CoreState.resetWith_address {inputs : Inputs xlen} (hfit : inputs.AddressesFit) :
    signed (CoreState.resetWith inputs).pc = inputs.cfg.codeBase + inputs.cfg.insnWidth * (0 : Nat) :=
  (signed_codeBase hfit).trans (by simp)

theorem CoreState.insnWidth_pos {s : CoreState xlen} (hv : s.validCore) : 1 ≤ s.inputs.cfg.insnWidth := by
  simp only [CoreState.validCore, Config.valid, decide_eq_true_eq] at hv
  omega

/-- With no code, Fetch is exhausted from the start (60_exceptions.md R177). -/
theorem CoreState.resetWith_exhausted {inputs : Inputs xlen} (hv : (CoreState.resetWith inputs).validCore)
    (hfit : inputs.AddressesFit) (hcode : inputs.code = []) : (CoreState.resetWith inputs).fetchClass = .exhausted :=
  fetchClassOf_exhausted_of_address (CoreState.insnWidth_pos hv) (CoreState.resetWith_address hfit)
    (List.length_eq_zero_iff.mpr hcode).le

/-- With code, Fetch reads record 0 first. -/
theorem CoreState.resetWith_index_zero {inputs : Inputs xlen} (hv : (CoreState.resetWith inputs).validCore)
    (hfit : inputs.AddressesFit) (hcode : inputs.code ≠ []) : (CoreState.resetWith inputs).fetchClass = .index 0 :=
  (fetchClassOf_index_iff (CoreState.insnWidth_pos hv)).mpr
    ⟨CoreState.resetWith_address hfit, List.length_pos_iff.mpr hcode⟩

/-! ## The first tick (70_reset_and_hazards.md R180) -/

/-- With nothing in flight, the tick that fetches record `k` delivers it, and the run goes on (40_pipeline.md R109, R113,
R116). -/
theorem step_of_drained_delivers {s : CoreState xlen} (hs : s.ticking) (hd : s.drained = true)
    (hF : s.fLatch.hasInsn = true) {k : Nat} (hc : s.fetchClass = .index k) :
    step ⟨_, s⟩ = .next ⟨_, { (s.delivered k).countTick.restSignals with
      fLatch := { (s.delivered k).dLatch with hasInsn := decide (opcodeField (s.codeRecord k) ≠ 0x0C) } }⟩ := by
  have hfetch := fetchUnit_eq_delivered (s := s.restSignals.atStage .fetch) rfl hF rfl rfl hc
  rw [step_of_drained hs hd, andThen_running hfetch (CoreState.running_of_ticking hs),
    endOfTick_of_live (by simp [CoreState.drained, CoreState.delivered])]
  rfl

/-- Settles O40: nothing is in flight after reset, so the tick is Fetch's; with no code it ends the run, and with code it
delivers record 0. -/
theorem firstTickAfterReset : Obligations.FirstTickAfterReset := by
  intro xlen inputs hs hx
  have hfit : inputs.AddressesFit := CoreState.addressesFit hs.1 hx
  cases hcode : inputs.code with
  | nil =>
    have hcannot : (CoreState.resetWith inputs).cannotFetch = true := by
      simp [CoreState.cannotFetch, CoreState.resetWith_exhausted hs.1 hfit hcode]
    exact ⟨_, (emptyPipelineExhausts _ hs rfl).1 hcannot, rfl, rfl, rfl, rfl, rfl, rfl, rfl, rfl, rfl, rfl, rfl, rfl, rfl,
      fun _ => ⟨rfl, rfl, rfl⟩, nofun⟩
  | cons w rest =>
    have hindex := CoreState.resetWith_index_zero hs.1 hfit (by simp [hcode])
    have hrecord : (CoreState.resetWith inputs).codeRecord 0 = w := congrArg (·.getD 0 0) hcode
    refine ⟨_, step_of_drained_delivers hs rfl rfl hindex, rfl, rfl, rfl, rfl, rfl, rfl, rfl, rfl, rfl, rfl, rfl, rfl,
      rfl, nofun, ?_⟩
    rintro _ _ ⟨⟩
    exact ⟨rfl, rfl, congrArg opcodeField hrecord, congrArg rdField hrecord, congrArg rs1Field hrecord,
      congrArg rs2Field hrecord, congrArg immField hrecord, rfl, addw_eq _ _⟩

end Sys2Proof.Machine
